-- ==== Sys2Proof/Word.lean ====
section
/-! DEFINITION. The machine word and its two readings as a number (spec 00_scope.md R10). -/

namespace Sys2Proof

/-- A machine word: W = 32 bits (R9, R10). -/
abbrev Word := BitVec 32

/-- A byte of a file (45_trap.md R189). Memory has no bytes (20_memory.md R60). -/
abbrev Byte := BitVec 8

/-- `sint(v)`: the word as a two's-complement integer in [-2^31, 2^31) (R10). -/
abbrev sint (w : Word) : Int := w.toInt

/-- `uint(v)`: the word as an integer in [0, 2^32) (R10). -/
abbrev uint (w : Word) : Nat := w.toNat

/-- `word(n)`: the integer reduced modulo 2^32 (R10). -/
abbrev word (n : Int) : Word := BitVec.ofInt 32 n

end Sys2Proof
end

