-- ==== Sys2Proof/Syntax.lean ====
section
/-! DEFINITION. The instruction set as syntax: the 65 instructions of 30_encoding.md R86 with their inline operands,
their mnemonics, the instruction record of 10_state.md R36, and the two maps of numbers that a machine is configured with
(00_scope.md R9). -/

namespace Sys2Proof

/-- The mnemonics of R86, one per row of the opcode table, in the table's order. -/
inductive Mnemonic where
  | add | and | div | mod | mul | or | sub | xor | eq | ne
  | lt | gt | le | ge | lsl | lsr | rol | ror | cmp | neg
  | not | beq | bne | blt | bgt | ble | bge | adjs | bra | brf
  | brt | bsr | halt | jsr | lda | ldma | ldaa | ldc | ldl | ldml
  | ldla | ldr | ldrr | lds | ldms | ldsa | link | nop | ret | sta
  | stma | stl | stml | str | sts | stms | swp | swpr | swprr | trap
  | unlink | ldh | ldmh | sth | stmh
  deriving DecidableEq, Repr

/-- The four instruction categories (R2, 10_state.md R36). -/
inductive Category where
  | binop | unop | op | brcc
  deriving DecidableEq, Repr

/-- An instruction record (10_state.md R36); `conditionMask` is present for BRCC records only. -/
structure InstrRecord where
  opcode : Word
  mnemonic : Mnemonic
  category : Category
  operandCount : Nat
  conditionMask : Option (BitVec 3)
  deriving DecidableEq, Repr

/-- `OpcodeMap` (00_scope.md R9, 30_encoding.md R81): the opcode number of each mnemonic, in the order of R86. -/
structure OpcodeMap where
  numbers : List Word
  deriving DecidableEq, Repr

/-- The sub-operations of TRAP (45_trap.md R175). -/
inductive TrapOp where
  | prInt | prChar | inInt | inChar | inCharArray | fileOpenRead | fileOpenWrite | fileRead | fileWrite | fileClose
  deriving DecidableEq, Repr

/-- `TrapMap` (00_scope.md R9, 45_trap.md R175): the number of each sub-operation of TRAP. -/
structure TrapMap where
  prInt : Int
  prChar : Int
  inInt : Int
  inChar : Int
  inCharArray : Int
  fileOpenRead : Int
  fileOpenWrite : Int
  fileRead : Int
  fileWrite : Int
  fileClose : Int
  deriving DecidableEq, Repr

/-- An instruction with its inline operands, each one whole word as fetched (R76, R77): `k` and `n` are read with
`sint`, `r`, `r1`, `r2` with `uint`, `t` with `sint` (00_scope.md R19). -/
inductive Instr where
  | add
  | and
  | div
  | mod
  | mul
  | or
  | sub
  | xor
  | eq
  | ne
  | lt
  | gt
  | le
  | ge
  | lsl
  | lsr
  | rol
  | ror
  | cmp
  | neg
  | not
  | beq (k : Word)
  | bne (k : Word)
  | blt (k : Word)
  | bgt (k : Word)
  | ble (k : Word)
  | bge (k : Word)
  | adjs (k : Word)
  | bra (k : Word)
  | brf (k : Word)
  | brt (k : Word)
  | bsr (k : Word)
  | halt
  | jsr
  | lda (k : Word)
  | ldma (k n : Word)
  | ldaa (k : Word)
  | ldc (k : Word)
  | ldl (k : Word)
  | ldml (k n : Word)
  | ldla (k : Word)
  | ldr (r : Word)
  | ldrr (r1 r2 : Word)
  | lds (k : Word)
  | ldms (k n : Word)
  | ldsa (k : Word)
  | link (n : Word)
  | nop
  | ret
  | sta (k : Word)
  | stma (k n : Word)
  | stl (k : Word)
  | stml (k n : Word)
  | str (r : Word)
  | sts (k : Word)
  | stms (k n : Word)
  | swp
  | swpr (r : Word)
  | swprr (r1 r2 : Word)
  | trap (t : Word)
  | unlink
  | ldh (k : Word)
  | ldmh (k n : Word)
  | sth
  | stmh (n : Word)
  deriving DecidableEq, Repr

/-- The mnemonic of an instruction. -/
def Instr.mnemonic : Instr → Mnemonic
  | .add => .add
  | .and => .and
  | .div => .div
  | .mod => .mod
  | .mul => .mul
  | .or => .or
  | .sub => .sub
  | .xor => .xor
  | .eq => .eq
  | .ne => .ne
  | .lt => .lt
  | .gt => .gt
  | .le => .le
  | .ge => .ge
  | .lsl => .lsl
  | .lsr => .lsr
  | .rol => .rol
  | .ror => .ror
  | .cmp => .cmp
  | .neg => .neg
  | .not => .not
  | .beq _ => .beq
  | .bne _ => .bne
  | .blt _ => .blt
  | .bgt _ => .bgt
  | .ble _ => .ble
  | .bge _ => .bge
  | .adjs _ => .adjs
  | .bra _ => .bra
  | .brf _ => .brf
  | .brt _ => .brt
  | .bsr _ => .bsr
  | .halt => .halt
  | .jsr => .jsr
  | .lda _ => .lda
  | .ldma _ _ => .ldma
  | .ldaa _ => .ldaa
  | .ldc _ => .ldc
  | .ldl _ => .ldl
  | .ldml _ _ => .ldml
  | .ldla _ => .ldla
  | .ldr _ => .ldr
  | .ldrr _ _ => .ldrr
  | .lds _ => .lds
  | .ldms _ _ => .ldms
  | .ldsa _ => .ldsa
  | .link _ => .link
  | .nop => .nop
  | .ret => .ret
  | .sta _ => .sta
  | .stma _ _ => .stma
  | .stl _ => .stl
  | .stml _ _ => .stml
  | .str _ => .str
  | .sts _ => .sts
  | .stms _ _ => .stms
  | .swp => .swp
  | .swpr _ => .swpr
  | .swprr _ _ => .swprr
  | .trap _ => .trap
  | .unlink => .unlink
  | .ldh _ => .ldh
  | .ldmh _ _ => .ldmh
  | .sth => .sth
  | .stmh _ => .stmh

/-- The inline operands of an instruction, in the order of R79. -/
def Instr.operands : Instr → List Word
  | .add => []
  | .and => []
  | .div => []
  | .mod => []
  | .mul => []
  | .or => []
  | .sub => []
  | .xor => []
  | .eq => []
  | .ne => []
  | .lt => []
  | .gt => []
  | .le => []
  | .ge => []
  | .lsl => []
  | .lsr => []
  | .rol => []
  | .ror => []
  | .cmp => []
  | .neg => []
  | .not => []
  | .beq k => [k]
  | .bne k => [k]
  | .blt k => [k]
  | .bgt k => [k]
  | .ble k => [k]
  | .bge k => [k]
  | .adjs k => [k]
  | .bra k => [k]
  | .brf k => [k]
  | .brt k => [k]
  | .bsr k => [k]
  | .halt => []
  | .jsr => []
  | .lda k => [k]
  | .ldma k n => [k, n]
  | .ldaa k => [k]
  | .ldc k => [k]
  | .ldl k => [k]
  | .ldml k n => [k, n]
  | .ldla k => [k]
  | .ldr r => [r]
  | .ldrr r1 r2 => [r1, r2]
  | .lds k => [k]
  | .ldms k n => [k, n]
  | .ldsa k => [k]
  | .link n => [n]
  | .nop => []
  | .ret => []
  | .sta k => [k]
  | .stma k n => [k, n]
  | .stl k => [k]
  | .stml k n => [k, n]
  | .str r => [r]
  | .sts k => [k]
  | .stms k n => [k, n]
  | .swp => []
  | .swpr r => [r]
  | .swprr r1 r2 => [r1, r2]
  | .trap t => [t]
  | .unlink => []
  | .ldh k => [k]
  | .ldmh k n => [k, n]
  | .sth => []
  | .stmh n => [n]

end Sys2Proof
end

