-- ==== Sys2Proof/Decode.lean ====
section
/-! DEFINITION. The opcode table (30_encoding.md R86) for every opcode map (R81), the decoder (R87), the encoder (R88), the
TRAP numbers (45_trap.md R175), and the reading of a table row's bits. -/

namespace Sys2Proof

/-- One row of R86: opcode number, mnemonic, category, operand count, condition mask. -/
def row (opcode : Nat) (m : Mnemonic) (c : Category) (count : Nat) (mask : Option (BitVec 3)) : InstrRecord where
  opcode := BitVec.ofNat 32 opcode
  mnemonic := m
  category := c
  operandCount := count
  conditionMask := mask

/-- The rows of R86. -/
def rowOf : Mnemonic → InstrRecord
  | .add => row 0x01 .add .binop 0 none
  | .and => row 0x02 .and .binop 0 none
  | .div => row 0x04 .div .binop 0 none
  | .mod => row 0x07 .mod .binop 0 none
  | .mul => row 0x08 .mul .binop 0 none
  | .or => row 0x09 .or .binop 0 none
  | .sub => row 0x0C .sub .binop 0 none
  | .xor => row 0x0D .xor .binop 0 none
  | .eq => row 0x0E .eq .binop 0 none
  | .ne => row 0x0F .ne .binop 0 none
  | .lt => row 0x10 .lt .binop 0 none
  | .gt => row 0x11 .gt .binop 0 none
  | .le => row 0x12 .le .binop 0 none
  | .ge => row 0x13 .ge .binop 0 none
  | .lsl => row 0x14 .lsl .binop 0 none
  | .lsr => row 0x15 .lsr .binop 0 none
  | .rol => row 0x16 .rol .binop 0 none
  | .ror => row 0x17 .ror .binop 0 none
  | .cmp => row 0x18 .cmp .binop 0 none
  | .neg => row 0x20 .neg .unop 0 none
  | .not => row 0x21 .not .unop 0 none
  | .beq => row 0x58 .beq .brcc 1 (some 0b010)
  | .bne => row 0x59 .bne .brcc 1 (some 0b101)
  | .blt => row 0x5A .blt .brcc 1 (some 0b001)
  | .bgt => row 0x5B .bgt .brcc 1 (some 0b100)
  | .ble => row 0x5C .ble .brcc 1 (some 0b011)
  | .bge => row 0x5D .bge .brcc 1 (some 0b110)
  | .adjs => row 0x64 .adjs .op 1 none
  | .bra => row 0x68 .bra .op 1 none
  | .brf => row 0x6C .brf .op 1 none
  | .brt => row 0x6D .brt .op 1 none
  | .bsr => row 0x70 .bsr .op 1 none
  | .halt => row 0x74 .halt .op 0 none
  | .jsr => row 0x78 .jsr .op 0 none
  | .lda => row 0x7C .lda .op 1 none
  | .ldma => row 0x7E .ldma .op 2 none
  | .ldaa => row 0x80 .ldaa .op 1 none
  | .ldc => row 0x84 .ldc .op 1 none
  | .ldl => row 0x88 .ldl .op 1 none
  | .ldml => row 0x8A .ldml .op 2 none
  | .ldla => row 0x8C .ldla .op 1 none
  | .ldr => row 0x90 .ldr .op 1 none
  | .ldrr => row 0x94 .ldrr .op 2 none
  | .lds => row 0x98 .lds .op 1 none
  | .ldms => row 0x9A .ldms .op 2 none
  | .ldsa => row 0x9C .ldsa .op 1 none
  | .link => row 0xA0 .link .op 1 none
  | .nop => row 0xA4 .nop .op 0 none
  | .ret => row 0xA8 .ret .op 0 none
  | .sta => row 0xAC .sta .op 1 none
  | .stma => row 0xAE .stma .op 2 none
  | .stl => row 0xB0 .stl .op 1 none
  | .stml => row 0xB2 .stml .op 2 none
  | .str => row 0xB4 .str .op 1 none
  | .sts => row 0xB8 .sts .op 1 none
  | .stms => row 0xBA .stms .op 2 none
  | .swp => row 0xBC .swp .op 0 none
  | .swpr => row 0xC0 .swpr .op 1 none
  | .swprr => row 0xC4 .swprr .op 2 none
  | .trap => row 0xC8 .trap .op 1 none
  | .unlink => row 0xCC .unlink .op 0 none
  | .ldh => row 0xD0 .ldh .op 1 none
  | .ldmh => row 0xD4 .ldmh .op 2 none
  | .sth => row 0xD6 .sth .op 0 none
  | .stmh => row 0xD8 .stmh .op 1 none

/-- All mnemonics, in the table's order. -/
def allMnemonics : List Mnemonic :=
  ([.add, .and, .div, .mod, .mul, .or, .sub, .xor, .eq, .ne, .lt, .gt, .le] : List Mnemonic) ++
  ([.ge, .lsl, .lsr, .rol, .ror, .cmp, .neg, .not, .beq, .bne, .blt, .bgt, .ble] : List Mnemonic) ++
  ([.bge, .adjs, .bra, .brf, .brt, .bsr, .halt, .jsr, .lda, .ldma, .ldaa, .ldc, .ldl] : List Mnemonic) ++
  ([.ldml, .ldla, .ldr, .ldrr, .lds, .ldms, .ldsa, .link, .nop, .ret, .sta, .stma, .stl] : List Mnemonic) ++
  ([.stml, .str, .sts, .stms, .swp, .swpr, .swprr, .trap, .unlink, .ldh, .ldmh, .sth, .stmh] : List Mnemonic)

/-- The opcode map of this spec: the numbers of R86 (R81, 00_scope.md R9). -/
def OpcodeMap.standard : OpcodeMap := ⟨allMnemonics.map fun x => (rowOf x).opcode⟩

/-- The opcode number of a mnemonic. -/
def OpcodeMap.number (m : OpcodeMap) (x : Mnemonic) : Word := m.numbers.getD x.ctorIdx 0

/-- An opcode map gives every mnemonic a number of its own (R87), whose bits 31:8 are 0 (R74, R90). -/
def OpcodeMap.wellFormed (m : OpcodeMap) : Bool :=
  decide (m.numbers.length = allMnemonics.length) && decide m.numbers.Nodup && m.numbers.all fun w => decide (uint w < 256)

/-- The record of a mnemonic under an opcode map: its row of R86, with the map's number. -/
def recordOf (m : OpcodeMap) (x : Mnemonic) : InstrRecord := { rowOf x with opcode := m.number x }

/-- The complete opcode table (R86) under an opcode map. -/
def opcodeTable (m : OpcodeMap) : List InstrRecord := allMnemonics.map (recordOf m)

/-- `lookup(w)` (R87): the whole opcode word is compared with each opcode number (R75). -/
def lookup (m : OpcodeMap) (w : Word) : Option InstrRecord := (opcodeTable m).find? fun r => r.opcode == w

/-- The mask over the condition word that a BRCC mnemonic carries (R83); no bit for the others. -/
def conditionMaskOf (x : Mnemonic) : BitVec 3 := (rowOf x).conditionMask.getD 0

/-- The TRAP map of this spec: the numbers of 45_trap.md R175. -/
def TrapMap.standard : TrapMap where
  prInt := 0
  prChar := 1
  inInt := 10
  inChar := 11
  inCharArray := 12
  fileOpenRead := 20
  fileOpenWrite := 21
  fileRead := 22
  fileWrite := 23
  fileClose := 24

/-- The number of a sub-operation. -/
def TrapMap.number (m : TrapMap) : TrapOp → Int
  | .prInt => m.prInt
  | .prChar => m.prChar
  | .inInt => m.inInt
  | .inChar => m.inChar
  | .inCharArray => m.inCharArray
  | .fileOpenRead => m.fileOpenRead
  | .fileOpenWrite => m.fileOpenWrite
  | .fileRead => m.fileRead
  | .fileWrite => m.fileWrite
  | .fileClose => m.fileClose

/-- All sub-operations, in the order of 45_trap.md R175. -/
def allTrapOps : List TrapOp :=
  [.prInt, .prChar, .inInt, .inChar, .inCharArray, .fileOpenRead, .fileOpenWrite, .fileRead, .fileWrite, .fileClose]

/-- A TRAP map gives every sub-operation a number of its own, which a TRAP operand can be. -/
def TrapMap.wellFormed (m : TrapMap) : Bool :=
  decide (allTrapOps.map m.number).Nodup && allTrapOps.all fun o => decide (sint (word (m.number o)) = m.number o)

/-- The sub-operation that a TRAP operand selects, `TrapMap⁻¹(sint(t))` (45_trap.md R174); none for an unknown number
(R190). -/
def trapOf (m : TrapMap) (t : Word) : Option TrapOp := allTrapOps.find? fun o => m.number o == sint t

/-- An F0 instruction from its operand list (R74). -/
def f0 (i : Instr) (ops : List Word) : Option Instr :=
  match ops with
  | [] => some i
  | _ :: _ => none

/-- An F1 instruction from its operand list (R74). -/
def f1 (c : Word → Instr) (ops : List Word) : Option Instr :=
  match ops with
  | [a] => some (c a)
  | _ => none

/-- An F2 instruction from its operand list, in the order of R79 (R74). -/
def f2 (c : Word → Word → Instr) (ops : List Word) : Option Instr :=
  match ops with
  | [a, b] => some (c a b)
  | _ => none

/-- The instruction that a mnemonic and its latched operands make; none where their number is not the mnemonic's. -/
def assemble : Mnemonic → List Word → Option Instr
  | .add => f0 .add
  | .and => f0 .and
  | .div => f0 .div
  | .mod => f0 .mod
  | .mul => f0 .mul
  | .or => f0 .or
  | .sub => f0 .sub
  | .xor => f0 .xor
  | .eq => f0 .eq
  | .ne => f0 .ne
  | .lt => f0 .lt
  | .gt => f0 .gt
  | .le => f0 .le
  | .ge => f0 .ge
  | .lsl => f0 .lsl
  | .lsr => f0 .lsr
  | .rol => f0 .rol
  | .ror => f0 .ror
  | .cmp => f0 .cmp
  | .neg => f0 .neg
  | .not => f0 .not
  | .beq => f1 .beq
  | .bne => f1 .bne
  | .blt => f1 .blt
  | .bgt => f1 .bgt
  | .ble => f1 .ble
  | .bge => f1 .bge
  | .adjs => f1 .adjs
  | .bra => f1 .bra
  | .brf => f1 .brf
  | .brt => f1 .brt
  | .bsr => f1 .bsr
  | .halt => f0 .halt
  | .jsr => f0 .jsr
  | .lda => f1 .lda
  | .ldma => f2 .ldma
  | .ldaa => f1 .ldaa
  | .ldc => f1 .ldc
  | .ldl => f1 .ldl
  | .ldml => f2 .ldml
  | .ldla => f1 .ldla
  | .ldr => f1 .ldr
  | .ldrr => f2 .ldrr
  | .lds => f1 .lds
  | .ldms => f2 .ldms
  | .ldsa => f1 .ldsa
  | .link => f1 .link
  | .nop => f0 .nop
  | .ret => f0 .ret
  | .sta => f1 .sta
  | .stma => f2 .stma
  | .stl => f1 .stl
  | .stml => f2 .stml
  | .str => f1 .str
  | .sts => f1 .sts
  | .stms => f2 .stms
  | .swp => f0 .swp
  | .swpr => f1 .swpr
  | .swprr => f2 .swprr
  | .trap => f1 .trap
  | .unlink => f0 .unlink
  | .ldh => f1 .ldh
  | .ldmh => f2 .ldmh
  | .sth => f0 .sth
  | .stmh => f1 .stmh

/-- Why a list of words is no instruction. -/
inductive DecodeError where
  /-- The first word is not in R86 (R90). -/
  | illegalOpcode (w : Word)
  /-- Fewer operand words follow than the opcode declares (R73). -/
  | truncated (m : Mnemonic)
  /-- There is no word at all. -/
  | empty
  deriving DecidableEq, Repr

/-- The decoder, total on every list of words: the first instruction and the words after it (R73, R78, R87). Operand
values are never checked (R89). -/
def decode (m : OpcodeMap) : List Word → Except DecodeError (Instr × List Word)
  | [] => .error .empty
  | w :: rest =>
    match lookup m w with
    | none => .error (.illegalOpcode w)
    | some r =>
      match assemble r.mnemonic (rest.take r.operandCount) with
      | none => .error (.truncated r.mnemonic)
      | some i => .ok (i, rest.drop r.operandCount)

/-- The encoder (R88): the opcode number, then each operand as one word in the order of R79. -/
def encode (m : OpcodeMap) (i : Instr) : List Word := m.number i.mnemonic :: i.operands

/-- The longest instruction, in words (R74). -/
def maxWords : Nat := 3

/-- The words of an instruction whose bits are `w`, bit 0 the least significant bit of the first word, each bit from
`nbits` up read as 0, laid out as the hardware stores them: at ascending addresses (R73). -/
def tableWords (nbits w : Nat) : List Word :=
  (List.range maxWords).map fun j => BitVec.ofNat 32 ((w % 2 ^ nbits) >>> (32 * j))

/-- The instruction the decoder reads from a row's bits, under the opcode map of this spec. -/
def decodeTableWord (nbits w : Nat) : Option Instr :=
  match decode .standard (tableWords nbits w) with
  | .ok (i, _) => some i
  | .error _ => none

end Sys2Proof
end

