-- ==== Sys2Proof/Config.lean ====
section
/-! DEFINITION. What a configuration fixes (00_scope.md R9, 10_state.md R43), the spec's constants, and the free
values: what the spec leaves open and no proof can know. -/

namespace Sys2Proof

/-- The signed stride DIR, +1 or -1 (R9). -/
inductive Dir where
  | up | down
  deriving DecidableEq, Repr

/-- DIR as an integer. -/
def Dir.toInt : Dir → Int
  | .up => 1
  | .down => -1

/-- The configuration record (R9, R43): fixed at construction, written by no instruction. `stackBase = none` asks for
the default of R9, which exists for DIR = +1 only (70_reset_and_hazards.md R217). W = 32 and NREG = 8 are fixed and no
fields (log 18). -/
structure Params where
  dir : Dir
  memInit : Nat
  growInc : Nat
  initFrame : Nat
  stackBase : Option Int
  heapBase : Int
  constTrue : Word
  constFalse : Word
  opcodes : OpcodeMap
  traps : TrapMap
  deriving DecidableEq, Repr

/-- The configuration of this spec: the values and defaults of R9. -/
def Params.standard : Params where
  dir := .up
  memInit := 2048
  growInc := 1024
  initFrame := 0
  stackBase := none
  heapBase := 1024
  constTrue := 0xFFFFFFFF
  constFalse := 0x00000000
  opcodes := .standard
  traps := .standard

/-- STACK_BASE for an image of `len` words; none where the configuration must give it and does not (R217, D6). -/
def Params.stackBaseFor (p : Params) (len : Nat) : Option Int :=
  match p.stackBase, p.dir with
  | some b, _ => some b
  | none, .up => some ((len : Int) - 1)
  | none, .down => none

/-- The bounds R9 puts on the configuration and on the image loaded under it; the two maps are one-to-one. -/
def Params.wellFormed (p : Params) (len : Nat) : Bool :=
  decide (1 ≤ p.growInc) && decide (len ≤ p.memInit) && (p.stackBaseFor len).isSome &&
    p.opcodes.wellFormed && p.traps.wellFormed

/-- NREG, the number of registers (R9, 10_state.md R25). -/
def nreg : Nat := 8

/-- What the text of an annotation describes (20_memory.md R63, files 40 to 44). Its spelling is open (R64). -/
inductive AnnText where
  /-- "left OP right" on the result cell of a BINOP (40_alu.md R94). -/
  | result (op : Mnemonic) (left right : Word)
  /-- The originating instruction's description on a copied cell (42_load_store.md R139). -/
  | copied (by_ : Mnemonic)
  /-- The first cell of a heap block of two or more words (44_heap.md R170). -/
  | heapBegin
  /-- The last cell of a heap block of two or more words (44_heap.md R170). -/
  | heapEnd
  /-- The single combined marker of a one-word heap block (44_heap.md R169, R170). -/
  | heapBeginEnd
  deriving DecidableEq, Repr

/-- FREE VALUE (U15): the tag, if any, that goes with an annotation's text; the spec gives no tag values.
DESIGN CHOICE, log 8. -/
opaque Config.annotationTag : AnnText → Option Nat

/-- FREE VALUE (U19, 45_trap.md R189): whether the host's file store reports an error on its `n`th call, where the
state holds no verdict for it. DESIGN CHOICE, log 5. -/
opaque Config.fileServiceFails : Nat → Bool

end Sys2Proof
end

