-- ==== Sys2Proof/Machine/Flags.lean ====
section
/-! DEFINITION. The core has no flag register (10_state.md R31): what stands here are the words that comparisons push
and branches pop, the sentinels (40_alu.md R108) and the condition word (R115). -/

namespace Sys2Proof.Machine

open Sys2Proof

/-- The sentinel a comparison pushes, CONST_TRUE or CONST_FALSE of the configuration (R108). -/
def sentinel (p : Params) (holds : Bool) : Word := if holds then p.constTrue else p.constFalse

/-- The condition word of CMP (R115, R116): bit 0 LT, bit 1 EQ, bit 2 GT, signed; bits 31:3 are 0. -/
def conditionWord (l r : Word) : Word :=
  (if sint l > sint r then 4 else 0) ||| (if l = r then 2 else 0) ||| (if sint l < sint r then 1 else 0)

/-- Whether a popped condition word matches a mask: they share a set bit (41_control.md R128). -/
def conditionMatches (w : Word) (mask : BitVec 3) : Bool := decide (w &&& mask.zeroExtend 32 ≠ 0)

/-- Whether BRF takes a popped word for false; BRT branches on every other word (41_control.md R123, R124). -/
def isFalse (p : Params) (w : Word) : Bool := decide (w = p.constFalse)

end Sys2Proof.Machine
end

