-- ==== Sys2Proof/Machine/Memory.lean ====
section
/-! DEFINITION. Sparse maps by number, and the memory as one: word cells, unlisted cells 0 (20_memory.md R54, R57). -/

namespace Sys2Proof.Machine

/-- What a sparse map lists at `a`. -/
def sparseGet {α : Type} : List (Nat × α) → Nat → Option α
  | [], _ => none
  | (b, v) :: m, a => if a = b then some v else sparseGet m a

/-- List `v` at `a`, keeping the keys rising. -/
def sparseSet {α : Type} : List (Nat × α) → Nat → α → List (Nat × α)
  | [], a, v => [(a, v)]
  | (b, w) :: m, a, v =>
    if a < b then (a, v) :: (b, w) :: m
    else if a = b then (a, v) :: m
    else (b, w) :: sparseSet m a v

/-- List nothing at `a`. -/
def sparseErase {α : Type} (m : List (Nat × α)) (a : Nat) : List (Nat × α) := m.filter fun c => c.1 != a

/-- List nothing at `n` and above. -/
def sparseBelow {α : Type} (m : List (Nat × α)) (n : Nat) : List (Nat × α) := m.filter fun c => decide (c.1 < n)

/-- The keys rise strictly, so that equal maps are equal lists. -/
abbrev Rising {α : Type} (m : List (Nat × α)) : Prop := (m.map Prod.fst).Pairwise (· < ·)

/-- The word cells that do not hold 0, by address (R54). -/
abbrev Memory := List (Nat × Word)

/-- What a cell that is not listed holds: memory is zero-filled at reset and at growth (R57, 10_state.md R45). -/
def unlistedWord : Word := 0

/-- The canonical form: addresses strictly rising, no entry equal to what an unlisted address reads as. -/
abbrev Memory.wf (m : Memory) : Prop := Rising m ∧ ∀ c ∈ m, c.2 ≠ unlistedWord

/-- The word at an address. -/
def memGet (m : Memory) (a : Nat) : Word := (sparseGet m a).getD unlistedWord

/-- The memory with `v` at `a`, in canonical form. -/
def memSet (m : Memory) (a : Nat) (v : Word) : Memory :=
  if v = unlistedWord then sparseErase m a else sparseSet m a v

/-- The cells of an image loaded from address `a` upwards (R66, 70_reset_and_hazards.md R214). -/
def imageCells : Nat → List Word → Memory
  | _, [] => []
  | a, w :: ws => if w = unlistedWord then imageCells (a + 1) ws else (a, w) :: imageCells (a + 1) ws

end Sys2Proof.Machine
end

