-- ==== Sys2Proof/Machine/Registers.lean ====
section
/-! DEFINITION. The register file: eight words, by name and by number (10_state.md R25 to R27). -/

namespace Sys2Proof.Machine

/-- The registers by their names (R25). -/
inductive Reg where
  | pc | sp | mp | hp | r4 | r5 | r6 | r7
  deriving DecidableEq, Repr

/-- The register file (R25). No register is hardwired (R26). -/
structure Regs where
  pc : Word
  sp : Word
  mp : Word
  hp : Word
  r4 : Word
  r5 : Word
  r6 : Word
  r7 : Word
  deriving DecidableEq, Repr

/-- `x[i]`. -/
def regsGet (x : Regs) : Reg → Word
  | .pc => x.pc
  | .sp => x.sp
  | .mp => x.mp
  | .hp => x.hp
  | .r4 => x.r4
  | .r5 => x.r5
  | .r6 => x.r6
  | .r7 => x.r7

/-- `x` with `v` in register `i`. -/
def regsSet (x : Regs) (i : Reg) (v : Word) : Regs :=
  match i with
  | .pc => { x with pc := v }
  | .sp => { x with sp := v }
  | .mp => { x with mp := v }
  | .hp => { x with hp := v }
  | .r4 => { x with r4 := v }
  | .r5 => { x with r5 := v }
  | .r6 => { x with r6 := v }
  | .r7 => { x with r7 := v }

/-- The register a number names (R25); none from NREG up (R27). -/
def regOfNumber (n : Nat) : Option Reg :=
  [Reg.pc, .sp, .mp, .hp, .r4, .r5, .r6, .r7][n]?

/-- The number of a register (R25). -/
def numberOfReg : Reg → Nat
  | .pc => 0
  | .sp => 1
  | .mp => 2
  | .hp => 3
  | .r4 => 4
  | .r5 => 5
  | .r6 => 6
  | .r7 => 7

end Sys2Proof.Machine
end

