-- ==== Sys2Proof/Machine/State.lean ====
section
/-! DEFINITION. Everything the spec gives the machine, as plain data (10_state.md, 20_memory.md, 45_trap.md,
60_exceptions.md), the ways a step of the model can stop, and the state after reset. -/

namespace Sys2Proof.Machine

open Sys2Proof

/-- What a fault records (60_exceptions.md R194); `pc` is IA. -/
inductive FaultInfo where
  | addressFault (address : Int) (pc : Int)
  | divideByZero (pc : Int)
  | invalidRegister (reg : Nat) (pc : Int)
  | invalidCount (count : Int) (pc : Int)
  deriving DecidableEq, Repr

/-- The run state RS (10_state.md R38). -/
inductive RunState where
  | running
  | halted
  | faulted (info : FaultInfo)
  deriving DecidableEq, Repr

/-- The console prompts, the only points where a step waits (45_trap.md R182). -/
inductive Prompt where
  | int | char | charArray
  deriving DecidableEq, Repr

/-- A file name: the character codes of its characters (45_trap.md R183). -/
abbrev FileName := List Word

/-- The mode of an open stream (10_state.md R41). -/
inductive Mode where
  | read | write
  deriving DecidableEq, Repr

/-- An open stream (45_trap.md R189): a READ stream is a name and a position, a WRITE stream appends to a name. -/
inductive Stream where
  | reader (name : FileName) (position : Nat)
  | writer (name : FileName)
  deriving DecidableEq, Repr

/-- The diagnostics, by kind and info (60_exceptions.md R193, R197). -/
inductive Diag where
  | illegalOpcode (address : Int) (word : Word)
  | fileNotFound (name : FileName)
  | ioError (handle : Word)
  | invalidHandle (handle : Word)
  | unknownTrap (t : Int) (address : Int)
  | unknownInstruction (mnemonic : Mnemonic) (address : Int)
  | fault (info : FaultInfo)
  | halted
  deriving DecidableEq, Repr

/-- The console output events of TRAP (45_trap.md R176). -/
inductive ConsoleEvent where
  | outInt (v : Word)
  | outChar (v : Word)
  deriving DecidableEq, Repr

/-- The change events (10_state.md R33, 20_memory.md R65; a memory event carries no new value, 90_conflicts.md C6). -/
inductive ChangeEvent where
  | reg (r : Reg) (old new : Word)
  | mem (addr : Nat) (old : Word)
  deriving DecidableEq, Repr

/-- The annotation of a cell (20_memory.md R63). -/
structure Annotation where
  text : AnnText
  tag : Option Nat
  deriving DecidableEq, Repr

/-- What lies outside the block and a step can reach through the host calls of 00_scope.md R16: the Messenger's two
streams (10_state.md R44), the file store (45_trap.md R189), the subscribers (10_state.md R49), and the answers the host
has given and no step has taken yet (R182, R189). Reset leaves all of it (70_reset_and_hazards.md R216). -/
structure HostState where
  /-- TRAP's output events, oldest first. -/
  console : List ConsoleEvent
  /-- The diagnostic lines, oldest first. -/
  diags : List Diag
  /-- The file store: a name occurs once. -/
  files : List (FileName × List Byte)
  /-- One entry per listener: how many change events there were when it subscribed (log 11). -/
  subscribers : List Nat
  /-- Answers to `promptInt` not taken yet, the next one first (DESIGN CHOICE, log 3). -/
  intAnswers : List Word
  /-- Answers to `promptChar` not taken yet, the next one first (log 3). -/
  charAnswers : List Word
  /-- Answers to `promptCharArray` not taken yet, the next one first (log 3, log 16). -/
  textAnswers : List (List Word)
  /-- What the next file service calls report, the next one first: `true` is an error (DESIGN CHOICE,
  log 5). -/
  fileVerdicts : List Bool
  /-- How many file service calls there were: the argument of `Config.fileServiceFails` (log 5). -/
  fileCalls : Nat
  deriving DecidableEq, Repr

/-- What a listener can see when it is called: the state at that moment (70_reset_and_hazards.md R224) but for the latches
IR, OPS and IA, which only diagnostics and a host read between steps can observe (10_state.md R35), the configuration,
which is constant, and the event feed itself. The fields are those of `State` (log 11). -/
structure View where
  regs : Regs
  mem : Memory
  cap : Nat
  ann : List (Nat × Annotation)
  rs : RunState
  waiting : Option Prompt
  handles : List (Nat × Stream)
  host : HostState
  deriving DecidableEq, Repr

/-- The machine. -/
structure State where
  /-- The configuration (10_state.md R43): constant. DESIGN CHOICE, log 1. -/
  params : Params
  /-- The register file (R25). -/
  regs : Regs
  /-- The memory words (20_memory.md R54; log 10). -/
  mem : Memory
  /-- The capacity `cap` (R54). -/
  cap : Nat
  /-- The annotations, by address (R63). -/
  ann : List (Nat × Annotation)
  /-- `IR` (10_state.md R35). -/
  ir : Option InstrRecord
  /-- `OPS` (R35). -/
  ops : List Word
  /-- `IA` (R35). -/
  ia : Int
  /-- `RS` (R38). -/
  rs : RunState
  /-- The prompt at which the step in progress waits, if it does (R40, 45_trap.md R182; log 4). -/
  waiting : Option Prompt
  /-- `openHandles`, by handle (R41). -/
  handles : List (Nat × Stream)
  /-- The change-event feed, oldest first (R33, R65; log 11). -/
  events : List ChangeEvent
  /-- What the listeners saw when they were called, oldest first: one view for each event since the first listener
  subscribed, and none before (70_reset_and_hazards.md R224; log 11). -/
  views : List View
  /-- What lies outside the block. -/
  host : HostState
  deriving DecidableEq, Repr

/-- What a listener that is called now sees (R224). -/
def State.view (s : State) : View where
  regs := s.regs
  mem := s.mem
  cap := s.cap
  ann := s.ann
  rs := s.rs
  waiting := s.waiting
  handles := s.handles
  host := s.host

/-- Why the machine of the model stops with a fault: never. The faults of 60_exceptions.md R193 are not stops of the
model: raising one is a next state whose run state is FAULTED (R195). So this type has no constructor, nobody raises
one, and that is safe: it hides no behaviour. -/
inductive Fault where
  deriving DecidableEq, Repr

/-- Why the model gives an instruction no meaning. -/
inductive Refusal where
  /-- Raised by `exec`'s arm of an instruction that has no meaning yet; no arm raises it now. Safe: nothing can be
  proved of such an instruction. -/
  | notModelled (mnemonic : String)
  deriving DecidableEq, Repr

/-- The host side before anything has happened: no output, no file, no listener, no answer given. DESIGN CHOICE, log 12. -/
def HostState.initial : HostState where
  console := []
  diags := []
  files := []
  subscribers := []
  intAnswers := []
  charAnswers := []
  textAnswers := []
  fileVerdicts := []
  fileCalls := 0

/-- The state `reset(image)` leaves (70_reset_and_hazards.md R214, 10_state.md R45), where STACK_BASE is `base`, over a
host side and an event feed that reset does not touch (R216). -/
def State.afterReset (p : Params) (base : Int) (image : List Word) (h : HostState) (evs : List ChangeEvent)
    (vs : List View) : State where
  params := p
  regs :=
    { pc := 0, sp := word (base + p.initFrame * p.dir.toInt), mp := word base, hp := word p.heapBase,
      r4 := 0, r5 := 0, r6 := 0, r7 := 0 }
  mem := imageCells 0 image
  cap := p.memInit
  ann := []
  ir := none
  ops := []
  ia := 0
  rs := .running
  waiting := none
  handles := []
  events := evs
  views := vs
  host := h

/-- The machine right after its first reset: the default configuration, whose STACK_BASE is `len(image) - 1`
(00_scope.md R9), and an image of no words, since the interface loads no program (log 2). -/
def State.reset : State := State.afterReset Params.standard (((0 : Nat) : Int) - 1) [] HostState.initial [] []

end Sys2Proof.Machine
end

