-- ==== Sys2Proof/Machine/FileStore.lean ====
section
/-! DEFINITION. The host's file store as a finite map (45_trap.md R189), and the choice of a handle (10_state.md R42). -/

namespace Sys2Proof.Machine

open Sys2Proof

/-- The bytes of a file; none if there is no file of that name. -/
def fileGet : List (FileName × List Byte) → FileName → Option (List Byte)
  | [], _ => none
  | (m, bs) :: fs, n => if n = m then some bs else fileGet fs n

/-- The store in which the file `n` holds `bs`, created if it was not there. -/
def filePut : List (FileName × List Byte) → FileName → List Byte → List (FileName × List Byte)
  | [], n, bs => [(n, bs)]
  | (m, cs) :: fs, n, bs => if n = m then (n, bs) :: fs else (m, cs) :: filePut fs n bs

/-- The smallest non-negative integer that is not a key of the open-handle table (R42). -/
def firstFree (handles : List (Nat × Stream)) : Nat :=
  ((List.range (handles.length + 1)).find? fun n => (sparseGet handles n).isNone).getD handles.length

/-- The mode of a stream (10_state.md R41). -/
def Stream.mode : Stream → Mode
  | .reader _ _ => .read
  | .writer _ => .write

/-- The file a stream is open on. -/
def Stream.name : Stream → FileName
  | .reader n _ => n
  | .writer n => n

end Sys2Proof.Machine
end

