-- ==== Sys2Proof/Machine/Operands.lean ====
section
/-! DEFINITION. How operand words are read and addresses are formed (00_scope.md R14, R19, 30_encoding.md R76,
42_load_store.md R139). -/

namespace Sys2Proof.Machine

open Sys2Proof

/-- `x[r]`: reading a register changes nothing (10_state.md R32). -/
def State.reg (s : State) (r : Reg) : Word := regsGet s.regs r

/-- DIR as an integer (R9). -/
def State.dir (s : State) : Int := s.params.dir.toInt

/-- `A(e)`: the address that an integer address expression stands for (42_load_store.md R139). -/
def addr (e : Int) : Int := sint (word e)

/-- `Disp(r, k)`: the displaced address "register value + k·direction" (00_scope.md R14). -/
def disp (s : State) (r : Reg) (k : Int) : Word := word (sint (s.reg r) + k * s.dir)

/-- The target of a relative branch: `next + k`, where PC holds `next` (41_control.md R121). -/
def branchTarget (s : State) (k : Word) : Word := word (sint (s.reg .pc) + sint k)

/-- The register an operand word names; none from NREG up (10_state.md R27). -/
def regOperand (r : Word) : Option Reg := regOfNumber (uint r)

/-- The amount of a shift or rotate: modulo 32 (40_alu.md R103). -/
def shiftAmount (r : Word) : Nat := uint r % 32

end Sys2Proof.Machine
end

