-- ==== Sys2Proof/Machine/Ops.lean ====
section
/-! DEFINITION. The operations every instruction rule is written in: register writes with their events, memory access
with growth and AddressFault, raising a fault, diagnostics, the stack primitives, the block primitives, and the host
calls (00_scope.md R11 to R16). -/

namespace Sys2Proof.Machine

open Sys2Proof

/-- How a stretch of an instruction's pseudocode ends (00_scope.md R17): it is done with a value and goes on, or the
instruction has ended early, because a fault was raised (60_exceptions.md R195) or HALT was substituted for an illegal
opcode (R198). Either way the effects so far stand (R196). -/
inductive Res (α : Type) where
  | done (a : α) (s : State)
  | stopped (s : State)

/-- Statements in sequence: the second sees the writes of the first (R17). -/
def Res.bind {α β : Type} (r : Res α) (k : α → State → Res β) : Res β :=
  match r with
  | .done a s => k a s
  | .stopped s => .stopped s

/-- The state in which the stretch ends. -/
def Res.state {α : Type} : Res α → State
  | .done _ s => s
  | .stopped s => s

/-- An instruction's meaning as an outcome of the machine: always a next state. -/
def Res.outcome (r : Res Unit) : Host.Outcome State Fault Refusal := .next r.state

/-! ### Change events -/

/-- The views `vs` reach the listeners, if there is one (10_state.md R49). -/
def State.heard (s : State) (vs : List View) : List View := if s.host.subscribers = [] then [] else vs

/-- A change event goes to every listener before the write returns (10_state.md R33, 20_memory.md R65): each one is called
now and sees the state as it is (70_reset_and_hazards.md R224; log 11). -/
def emit (e : ChangeEvent) (s : State) : State :=
  { s with events := s.events ++ [e], views := s.views ++ s.heard [s.view] }

/-! ### Registers -/

/-- `x[r] <- v`, with its change event, even where nothing changes (10_state.md R33). -/
def setReg (r : Reg) (v : Word) (s : State) : State :=
  emit (.reg r (s.reg r) v) { s with regs := regsSet s.regs r v }

/-- `Adjust(r, k)`: one register write (00_scope.md R14). -/
def adjust (r : Reg) (k : Int) (s : State) : State := setReg r (disp s r k) s

/-! ### Diagnostics and faults -/

/-- `diag(kind, info)`: one line of the diagnostic stream (60_exceptions.md R197). -/
def diag (d : Diag) (s : State) : State := { s with host := { s.host with diags := s.host.diags ++ [d] } }

/-- The state a fault leaves (60_exceptions.md R195): FAULTED, one diagnostic, nothing saved, no register changed. -/
def enterFault (info : FaultInfo) (s : State) : State := diag (.fault info) { s with rs := .faulted info }

/-- `raise F(info)` (R195): fault entry, and the instruction stops there. There is no return from it but reset (R203).
-/
def raise {α : Type} (info : FaultInfo) (s : State) : Res α := .stopped (enterFault info s)

/-- The cause code of a fault (R194). -/
def FaultInfo.cause : FaultInfo → Nat
  | .addressFault _ _ => 1
  | .divideByZero _ => 2
  | .invalidRegister _ _ => 3
  | .invalidCount _ _ => 4

/-- The text of a diagnostic line, where the spec gives one (R197, 41_control.md R136). -/
def Diag.text : Diag → Option String
  | .halted => some "machine halted"
  | .illegalOpcode _ _ | .fileNotFound _ | .ioError _ | .invalidHandle _ | .unknownTrap _ _
  | .unknownInstruction _ _ | .fault _ => none

/-- How a console event is rendered, where the spec says it: OutInt in decimal (45_trap.md R176). -/
def ConsoleEvent.text : ConsoleEvent → Option String
  | .outInt v => some (toString (sint v))
  | .outChar _ => none

/-- `halt()`: the machine moves to HALTED (00_scope.md R15). -/
def halt (s : State) : State := { s with rs := .halted }

/-- The default arm of EXECUTE (10_state.md R50): a diagnostic and no further change (log 14). -/
def unknownInstruction (s : State) : State :=
  match s.ir with
  | some r => diag (.unknownInstruction r.mnemonic s.ia) s
  | none => s

/-! ### Memory -/

/-- Auto-growth by GROW_INC (20_memory.md R57): the new cells hold 0 and have no annotation. -/
def grow (s : State) : State :=
  { s with
    cap := s.cap + s.params.growInc
    mem := sparseBelow s.mem s.cap
    ann := sparseBelow s.ann s.cap }

/-- An access to `a` is not refused (R55, R57, R58). -/
def State.admitsAddr (s : State) (a : Int) : Bool :=
  decide (0 ≤ a) && decide (a < (s.cap : Int) + s.params.growInc)

/-- What an access that is not refused does to the capacity (R56, R57): growth in the window above `cap`, else
nothing. -/
def touch (a : Int) (s : State) : State := if a < (s.cap : Int) then s else grow s

/-- What every access does first: AddressFault, or growth where it is needed (R56 to R58). -/
def access (a : Int) (s : State) : Res Unit :=
  if s.admitsAddr a then .done () (touch a s) else raise (.addressFault a s.ia) s

/-- `MemRead(a, 1)` (R56, R57, R58). -/
def memRead (a : Int) (s : State) : Res Word :=
  (access a s).bind fun _ s => .done (memGet s.mem a.toNat) s

/-- `M[a] <- v` with its change event (R59, R65), for an admitted address. The cell's annotation stays
(log 9). -/
def storeCell (a : Nat) (v : Word) (s : State) : State :=
  emit (.mem a (memGet s.mem a)) { s with mem := memSet s.mem a v }

/-- `MemWrite(a, 1, v)` (R57, R58, R59). -/
def memWrite (a : Int) (v : Word) (s : State) : Res Unit :=
  (access a s).bind fun _ s => .done () (storeCell a.toNat v s)

/-- `Ann(a) <- text` on a cell that has just been written (R63, R64): no event. -/
def annotate (a : Int) (t : AnnText) (s : State) : State :=
  { s with ann := sparseSet s.ann a.toNat { text := t, tag := Config.annotationTag t } }

/-! ### The stack (00_scope.md R13) -/

/-- `Push(v)`: SP moves one word in direction DIR, then the word is written. -/
def push (v : Word) (s : State) : Res Unit :=
  let s := adjust .sp 1 s
  memWrite (sint (s.reg .sp)) v s

/-- `Pop()`: the word is read, then SP moves back. -/
def pop (s : State) : Res Word :=
  (memRead (sint (s.reg .sp)) s).bind fun v s => .done v (adjust .sp (-1) s)

/-- `Top()`. -/
def top (s : State) : Res Word := memRead (sint (s.reg .sp)) s

/-- Push each word in turn. -/
def pushAll : List Word → State → Res Unit
  | [], s => .done () s
  | v :: vs, s => (push v s).bind fun _ s => pushAll vs s

/-! ### Checks that come before every access (60_exceptions.md R202) -/

/-- `CheckReg(r)` (43_register_frame.md, 10_state.md R27). -/
def checkReg (r : Word) (s : State) : Res Reg :=
  match regOperand r with
  | some x => .done x s
  | none => raise (.invalidRegister (uint r) s.ia) s

/-- A count below `least` is refused (42_load_store.md R140, 44_heap.md R170). -/
def checkCount (least : Int) (n : Word) (s : State) : Res Unit :=
  if sint n < least then raise (.invalidCount (sint n) s.ia) s else .done () s

/-! ### Blocks (42_load_store.md R139) -/

/-- Read `n` words at `A(b)`, `A(b + stride)`, …, in that order. -/
def readBlock (b stride : Int) : Nat → State → Res (List Word)
  | 0, s => .done [] s
  | n + 1, s =>
    (memRead (addr b) s).bind fun v s =>
    (readBlock (b + stride) stride n s).bind fun vs s => .done (v :: vs) s

/-- Write the words at `A(b)`, `A(b + stride)`, …, in that order, each with its annotation where there is one. -/
def writeBlock (b stride : Int) (text : Option AnnText) : List Word → State → Res Unit
  | [], s => .done () s
  | v :: vs, s =>
    (memWrite (addr b) v s).bind fun _ s =>
    let s := match text with
      | some t => annotate (addr b) t s
      | none => s
    writeBlock (b + stride) stride text vs s

/-- The second half of `LoadMulti` (R139) and LDMH (44_heap.md R172): SP moves once over the words, then each is
written, the first one deepest. -/
def putBlock (m : Mnemonic) (vs : List Word) (s : State) : Res Unit :=
  let s0 := sint (s.reg .sp)
  let s := setReg .sp (word (s0 + vs.length * s.dir)) s
  writeBlock (s0 + s.dir) s.dir (some (.copied m)) vs s

/-- `LoadMulti(b, n, desc)` (R139), for a count that was checked; the source words lie `stride` apart. -/
def loadMulti (b stride : Int) (n : Word) (m : Mnemonic) (s : State) : Res Unit :=
  (readBlock b stride (sint n).toNat s).bind fun vs s => putBlock m vs s

/-- The first half of `StoreMulti` (R139) and STMH (44_heap.md R170): the top `n` stack words, deepest first, then SP
moves back over them once. -/
def takeBlock (n : Word) (s : State) : Res (List Word) :=
  let s0 := sint (s.reg .sp)
  (readBlock (s0 - (sint n - 1) * s.dir) s.dir (sint n).toNat s).bind fun us s =>
  .done us (setReg .sp (word (s0 - sint n * s.dir)) s)

/-- `StoreMulti(b, n, desc)` (R139), for a count that was checked. -/
def storeMulti (b : Int) (n : Word) (m : Mnemonic) (s : State) : Res Unit :=
  (takeBlock n s).bind fun us s => writeBlock b s.dir (some (.copied m)) us s

/-! ### Control -/

/-- `pc <- target`: the next fetch reads there (41_control.md R137). -/
def jump (target : Word) (s : State) : State := setReg .pc target s

/-- Branch to `next + k` if the condition holds, else fall through to `next` (R121). -/
def branchIf (taken : Bool) (k : Word) (s : State) : State :=
  if taken then jump (branchTarget s k) s else s

/-! ### The Messenger (45_trap.md R176 to R182) -/

/-- `Host.print(e)`: one event of the console stream (R176). -/
def print (e : ConsoleEvent) (s : State) : State :=
  { s with host := { s.host with console := s.host.console ++ [e] } }

/-- The step waits at a prompt for the host's answer (R182, log 4). -/
def awaitPrompt (p : Prompt) (s : State) : Res Unit := .done () { s with waiting := some p }

/-- The host has answered: the step goes on, with `h` left of the host side. -/
def answered (h : HostState) (s : State) : State := { s with waiting := none, host := h }

/-- `Host.promptInt()`, then push the answer (R179). -/
def promptInt (s : State) : Res Unit :=
  match s.host.intAnswers with
  | [] => awaitPrompt .int s
  | v :: rest => push v (answered { s.host with intAnswers := rest } s)

/-- `Host.promptChar()`, then push the answer (R180). -/
def promptChar (s : State) : Res Unit :=
  match s.host.charAnswers with
  | [] => awaitPrompt .char s
  | v :: rest => push v (answered { s.host with charAnswers := rest } s)

/-- `Host.promptCharArray()`, then push 0 and the codes in reverse, so that the first ends on top (R181). -/
def promptCharArray (s : State) : Res Unit :=
  match s.host.textAnswers with
  | [] => awaitPrompt .charArray s
  | cs :: rest => pushAll (0 :: cs.reverse) (answered { s.host with textAnswers := rest } s)

/-- The prompt a waiting step goes on with. -/
def resume (p : Prompt) (s : State) : State :=
  match p with
  | .int => (promptInt s).state
  | .char => (promptChar s).state
  | .charArray => (promptCharArray s).state

/-! ### The file service (45_trap.md R183 to R189) -/

/-- `PopString()` (R183) with a bound on the words popped. -/
def popStringUpTo : Nat → State → Res (List Word)
  | 0, s => .done [] s
  | fuel + 1, s =>
    (pop s).bind fun c s =>
    if c = 0 then .done [] s
    else (popStringUpTo fuel s).bind fun cs s => .done (c :: cs) s

/-- `PopString()` (R183): the words down to the first 0, which is consumed. SP takes 2^32 values and a pop at a negative
one faults, so the bound is never met (log 15). -/
def popString (s : State) : Res (List Word) := popStringUpTo (2 ^ 32) s

/-- Whether the host's file store reports an error on the next call (R189): the host's verdict, or a free value. -/
def State.fileServiceFails (s : State) : Bool :=
  match s.host.fileVerdicts with
  | v :: _ => v
  | [] => Config.fileServiceFails s.host.fileCalls

/-- A file service call was made. -/
def afterFileCall (s : State) : State :=
  { s with host := { s.host with fileVerdicts := s.host.fileVerdicts.tail, fileCalls := s.host.fileCalls + 1 } }

/-- The file `n` holds `bs`. -/
def setFile (n : FileName) (bs : List Byte) (s : State) : State :=
  { s with host := { s.host with files := filePut s.host.files n bs } }

/-- `Host.openFile(name, readOnly)` (R184, R185): the stream, or none for a file that is not found or a host error. An
open for writing creates the file or empties it. A call that reports an error does neither (log 6, log 7). -/
def openFile (m : Mode) (n : FileName) (s : State) : Option Stream × State :=
  let t := afterFileCall s
  if s.fileServiceFails then (none, t)
  else
    match m with
    | .read => (if (fileGet s.host.files n).isSome then some (.reader n 0) else none, t)
    | .write => (some (.writer n), setFile n [] t)

/-- `openHandles[h] <- st`. -/
def setHandle (h : Nat) (st : Stream) (s : State) : State := { s with handles := sparseSet s.handles h st }

/-- `remove h from openHandles`. -/
def removeHandle (h : Nat) (s : State) : State := { s with handles := sparseErase s.handles h }

/-- The stream a handle word names; none if `sint(h)` is no key of `openHandles` (R186 to R188). -/
def State.stream (s : State) (h : Word) : Option Stream :=
  if sint h < 0 then none else sparseGet s.handles (sint h).toNat

/-- FILE_OPEN_READ and FILE_OPEN_WRITE (R184, R185). -/
def openHandle (m : Mode) (s : State) : Res Unit :=
  (popString s).bind fun n s =>
  match openFile m n s with
  | (some st, s) => push (word (firstFree s.handles)) (setHandle (firstFree s.handles) st s)
  | (none, s) => .done () (diag (.fileNotFound n) s)

/-- The word FILE_READ pushes for a byte, or for the end of the file (R186). -/
def readWord (bs : List Byte) (position : Nat) : Word :=
  match bs[position]? with
  | some b => b.zeroExtend 32
  | none => word (-1)

/-- The position after a read: it advances unless the end is reached (R189). -/
def nextPosition (bs : List Byte) (position : Nat) : Nat :=
  if position < bs.length then position + 1 else position

/-- FILE_READ (R186). -/
def readHandle (s : State) : Res Unit :=
  (pop s).bind fun h s =>
  match s.stream h with
  | none => .done () (diag (.invalidHandle h) s)
  | some (.writer _) => .done () (diag (.ioError h) s)
  | some (.reader n p) =>
    let bs := (fileGet s.host.files n).getD []
    let t := afterFileCall s
    if s.fileServiceFails then .done () (diag (.ioError h) t)
    else push (readWord bs p) (setHandle (sint h).toNat (.reader n (nextPosition bs p)) t)

/-- FILE_WRITE (R187): the handle is on top, the value below it; the low 8 bits are appended. -/
def writeHandle (s : State) : Res Unit :=
  (pop s).bind fun h s =>
  (pop s).bind fun v s =>
  match s.stream h with
  | none => .done () (diag (.invalidHandle h) s)
  | some (.reader _ _) => .done () (diag (.ioError h) s)
  | some (.writer n) =>
    let bs := (fileGet s.host.files n).getD []
    let t := afterFileCall s
    if s.fileServiceFails then .done () (diag (.ioError h) t)
    else push 0 (setFile n (bs ++ [v.truncate 8]) t)

/-- FILE_CLOSE (R188): the handle is removed even where the host reports an error. -/
def closeHandle (s : State) : Res Unit :=
  (pop s).bind fun h s =>
  match s.stream h with
  | none => .done () (diag (.invalidHandle h) s)
  | some _ =>
    let t := removeHandle (sint h).toNat (afterFileCall s)
    .done () (if s.fileServiceFails then diag (.ioError h) t else t)

end Sys2Proof.Machine
end

