-- ==== Sys2Proof/Machine/Alu.lean ====
section
/-! DEFINITION. The ALU: BINOP and UNOP (40_alu.md). The functions are the spec's `f(l, r)` and `g(v)`, computed on
integers and narrowed with `word`. -/

namespace Sys2Proof.Machine

open Sys2Proof

/-- Every BINOP (R94): pop right, pop left, push `f(left, right)`, annotate the result cell. `f` gives no result only
for a zero divisor, which raises DivideByZero after both pops (R98). -/
def binop (m : Mnemonic) (f : Word → Word → Option Word) (s : State) : Res Unit :=
  (pop s).bind fun right s =>
  (pop s).bind fun left s =>
  match f left right with
  | none => raise (.divideByZero s.ia) s
  | some res =>
    (push res s).bind fun _ s => .done () (annotate (sint (s.reg .sp)) (.result m left right) s)

/-- Every UNOP (R117): pop, push `g(v)`; no annotation. -/
def unop (g : Word → Word) (s : State) : Res Unit :=
  (pop s).bind fun v s => push (g v) s

/-- `f(l, r)` of ADD (R95): wraps. -/
def aluAdd (l r : Word) : Word := word (sint l + sint r)

/-- `f(l, r)` of SUB (R96): the left operand minus the right. -/
def aluSub (l r : Word) : Word := word (sint l - sint r)

/-- `f(l, r)` of MUL (R97): the low 32 bits of the product. -/
def aluMul (l r : Word) : Word := word (sint l * sint r)

/-- `f(l, r)` of AND (R100): bit by bit. -/
def aluAnd (l r : Word) : Word := l &&& r

/-- `f(l, r)` of OR (R101): bit by bit. -/
def aluOr (l r : Word) : Word := l ||| r

/-- `f(l, r)` of XOR (R102): bit by bit. -/
def aluXor (l r : Word) : Word := l ^^^ r

/-- `f(l, r)` of LSL (R104): zeros fill from bit 0. -/
def aluLsl (l r : Word) : Word := word (uint l * 2 ^ shiftAmount r)

/-- `f(l, r)` of LSR (R105): zeros fill from bit 31. -/
def aluLsr (l r : Word) : Word := word (uint l / 2 ^ shiftAmount r)

/-- `f(l, r)` of ROL (R106): bits past bit 31 come in at bit 0. -/
def aluRol (l r : Word) : Word :=
  if shiftAmount r = 0 then l
  else word (uint l * 2 ^ shiftAmount r) ||| word (uint l / 2 ^ (32 - shiftAmount r))

/-- `f(l, r)` of ROR (R107): bits past bit 0 come in at bit 31. -/
def aluRor (l r : Word) : Word :=
  if shiftAmount r = 0 then l
  else word (uint l / 2 ^ shiftAmount r) ||| word (uint l * 2 ^ (32 - shiftAmount r))

/-- `f(l, r)` of EQ (R109). -/
def aluEq (p : Params) (l r : Word) : Word := sentinel p (l = r)

/-- `f(l, r)` of NE (R110). -/
def aluNe (p : Params) (l r : Word) : Word := sentinel p (l ≠ r)

/-- `f(l, r)` of LT (R111): signed. -/
def aluLt (p : Params) (l r : Word) : Word := sentinel p (sint l < sint r)

/-- `f(l, r)` of GT (R112): signed. -/
def aluGt (p : Params) (l r : Word) : Word := sentinel p (sint l > sint r)

/-- `f(l, r)` of LE (R113): signed. -/
def aluLe (p : Params) (l r : Word) : Word := sentinel p (sint l ≤ sint r)

/-- `f(l, r)` of GE (R114): signed. -/
def aluGe (p : Params) (l r : Word) : Word := sentinel p (sint l ≥ sint r)

/-- `f(l, r)` of CMP (R116): a condition word. -/
def aluCmp (l r : Word) : Word := conditionWord l r

/-- `f(l, r)` of DIV (R98): rounded toward zero; none for a zero divisor. -/
def aluDiv (l r : Word) : Option Word :=
  if sint r = 0 then none else some (word ((sint l).tdiv (sint r)))

/-- `f(l, r)` of MOD (R99): the sign of the dividend; none for a zero divisor. -/
def aluMod (l r : Word) : Option Word :=
  if sint r = 0 then none else some (word (sint l - (sint l).tdiv (sint r) * sint r))

/-- `g(v)` of NEG (R118). -/
def aluNeg (v : Word) : Word := word (-(sint v))

/-- `g(v)` of NOT (R119): the bitwise complement. -/
def aluNot (v : Word) : Word := v ^^^ 0xFFFFFFFF

/-- ADD (R95). -/
def execAdd (s : State) : Host.Outcome State Fault Refusal :=
  (binop .add (fun l r => some (aluAdd l r)) s).outcome

/-- SUB (R96). -/
def execSub (s : State) : Host.Outcome State Fault Refusal :=
  (binop .sub (fun l r => some (aluSub l r)) s).outcome

/-- MUL (R97). -/
def execMul (s : State) : Host.Outcome State Fault Refusal :=
  (binop .mul (fun l r => some (aluMul l r)) s).outcome

/-- AND (R100). -/
def execAnd (s : State) : Host.Outcome State Fault Refusal :=
  (binop .and (fun l r => some (aluAnd l r)) s).outcome

/-- OR (R101). -/
def execOr (s : State) : Host.Outcome State Fault Refusal :=
  (binop .or (fun l r => some (aluOr l r)) s).outcome

/-- XOR (R102). -/
def execXor (s : State) : Host.Outcome State Fault Refusal :=
  (binop .xor (fun l r => some (aluXor l r)) s).outcome

/-- LSL (R104). -/
def execLsl (s : State) : Host.Outcome State Fault Refusal :=
  (binop .lsl (fun l r => some (aluLsl l r)) s).outcome

/-- LSR (R105). -/
def execLsr (s : State) : Host.Outcome State Fault Refusal :=
  (binop .lsr (fun l r => some (aluLsr l r)) s).outcome

/-- ROL (R106). -/
def execRol (s : State) : Host.Outcome State Fault Refusal :=
  (binop .rol (fun l r => some (aluRol l r)) s).outcome

/-- ROR (R107). -/
def execRor (s : State) : Host.Outcome State Fault Refusal :=
  (binop .ror (fun l r => some (aluRor l r)) s).outcome

/-- EQ (R109). -/
def execEq (s : State) : Host.Outcome State Fault Refusal :=
  (binop .eq (fun l r => some (aluEq s.params l r)) s).outcome

/-- NE (R110). -/
def execNe (s : State) : Host.Outcome State Fault Refusal :=
  (binop .ne (fun l r => some (aluNe s.params l r)) s).outcome

/-- LT (R111). -/
def execLt (s : State) : Host.Outcome State Fault Refusal :=
  (binop .lt (fun l r => some (aluLt s.params l r)) s).outcome

/-- GT (R112). -/
def execGt (s : State) : Host.Outcome State Fault Refusal :=
  (binop .gt (fun l r => some (aluGt s.params l r)) s).outcome

/-- LE (R113). -/
def execLe (s : State) : Host.Outcome State Fault Refusal :=
  (binop .le (fun l r => some (aluLe s.params l r)) s).outcome

/-- GE (R114). -/
def execGe (s : State) : Host.Outcome State Fault Refusal :=
  (binop .ge (fun l r => some (aluGe s.params l r)) s).outcome

/-- CMP (R116). -/
def execCmp (s : State) : Host.Outcome State Fault Refusal :=
  (binop .cmp (fun l r => some (aluCmp l r)) s).outcome

/-- DIV (R98). -/
def execDiv (s : State) : Host.Outcome State Fault Refusal :=
  (binop .div aluDiv s).outcome

/-- MOD (R99). -/
def execMod (s : State) : Host.Outcome State Fault Refusal :=
  (binop .mod aluMod s).outcome

/-- NEG (R118). -/
def execNeg (s : State) : Host.Outcome State Fault Refusal :=
  (unop aluNeg s).outcome

/-- NOT (R119). -/
def execNot (s : State) : Host.Outcome State Fault Refusal :=
  (unop aluNot s).outcome

end Sys2Proof.Machine
end

