-- ==== Sys2Proof/Machine/Control.lean ====
section
/-! DEFINITION. Control transfer, NOP and HALT (41_control.md). PC holds `next` when a meaning starts (00_scope.md R18). -/

namespace Sys2Proof.Machine

open Sys2Proof

/-- Every BRCC (R128): pop a condition word; branch if it shares a set bit with the mask. -/
def brcc (mask : BitVec 3) (k : Word) (s : State) : Res Unit :=
  (pop s).bind fun w s => .done () (branchIf (conditionMatches w mask) k s)

/-- BRA (R122). -/
def execBra (k : Word) (s : State) : Host.Outcome State Fault Refusal :=
  .next (jump (branchTarget s k) s)

/-- BRF (R123): branches on CONST_FALSE only. -/
def execBrf (k : Word) (s : State) : Host.Outcome State Fault Refusal :=
  ((pop s).bind fun v s => .done () (branchIf (isFalse s.params v) k s)).outcome

/-- BRT (R124): branches on every word but CONST_FALSE. -/
def execBrt (k : Word) (s : State) : Host.Outcome State Fault Refusal :=
  ((pop s).bind fun v s => .done () (branchIf (!isFalse s.params v) k s)).outcome

/-- BSR (R125). -/
def execBsr (k : Word) (s : State) : Host.Outcome State Fault Refusal :=
  ((push (s.reg .pc) s).bind fun _ s => .done () (jump (branchTarget s k) s)).outcome

/-- JSR (R126): `a` is absolute. -/
def execJsr (s : State) : Host.Outcome State Fault Refusal :=
  ((pop s).bind fun a s =>
   (push (s.reg .pc) s).bind fun _ s => .done () (jump a s)).outcome

/-- RET (R127). -/
def execRet (s : State) : Host.Outcome State Fault Refusal :=
  ((pop s).bind fun a s => .done () (jump a s)).outcome

/-- BEQ (R129). -/
def execBeq (k : Word) (s : State) : Host.Outcome State Fault Refusal :=
  (brcc (conditionMaskOf .beq) k s).outcome

/-- BNE (R130). -/
def execBne (k : Word) (s : State) : Host.Outcome State Fault Refusal :=
  (brcc (conditionMaskOf .bne) k s).outcome

/-- BLT (R131). -/
def execBlt (k : Word) (s : State) : Host.Outcome State Fault Refusal :=
  (brcc (conditionMaskOf .blt) k s).outcome

/-- BGT (R132). -/
def execBgt (k : Word) (s : State) : Host.Outcome State Fault Refusal :=
  (brcc (conditionMaskOf .bgt) k s).outcome

/-- BLE (R133). -/
def execBle (k : Word) (s : State) : Host.Outcome State Fault Refusal :=
  (brcc (conditionMaskOf .ble) k s).outcome

/-- BGE (R134). -/
def execBge (k : Word) (s : State) : Host.Outcome State Fault Refusal :=
  (brcc (conditionMaskOf .bge) k s).outcome

/-- NOP (R135): PC is at `next` already. -/
def execNop (s : State) : Host.Outcome State Fault Refusal :=
  .next s

/-- HALT (R136): a fetched HALT; the one substituted for an illegal opcode is `substituteHalt` of Machine/Fetch.lean. -/
def execHalt (s : State) : Host.Outcome State Fault Refusal :=
  .next (diag .halted (halt s))

end Sys2Proof.Machine
end

