-- ==== Sys2Proof/Machine/Heap.lean ====
section
/-! DEFINITION. Heap allocation and heap loads (44_heap.md). Heap addresses are plain words, not scaled by DIR, and HP
moves by +1 a word (R168). -/

namespace Sys2Proof.Machine

open Sys2Proof

/-- The begin and end markers of a block of `n` words from `h` (R170): one combined marker where `n` is 1. -/
def markBlock (h n : Int) (s : State) : State :=
  if n = 1 then annotate h .heapBeginEnd s
  else annotate (addr (h + n - 1)) .heapEnd (annotate h .heapBegin s)

/-- STH (R169). -/
def execSth (s : State) : Host.Outcome State Fault Refusal :=
  ((pop s).bind fun v s =>
   let h := sint (s.reg .hp)
   (memWrite h v s).bind fun _ s =>
   push (word h) (setReg .hp (word (h + 1)) (annotate h .heapBeginEnd s))).outcome

/-- STMH (R170): the deepest stack word goes to the lowest heap address. -/
def execStmh (n : Word) (s : State) : Host.Outcome State Fault Refusal :=
  ((checkCount 1 n s).bind fun _ s =>
   let h := sint (s.reg .hp)
   (takeBlock n s).bind fun us s =>
   (writeBlock h 1 none us s).bind fun _ s =>
   push (word (h + sint n - 1)) (setReg .hp (word (h + sint n)) (markBlock h (sint n) s))).outcome

/-- LDH (R171): `k` is not scaled. -/
def execLdh (k : Word) (s : State) : Host.Outcome State Fault Refusal :=
  ((pop s).bind fun a s =>
   (memRead (addr (sint a + sint k)) s).bind fun v s => push v s).outcome

/-- LDMH (R172): ascending heap words. -/
def execLdmh (k n : Word) (s : State) : Host.Outcome State Fault Refusal :=
  ((checkCount 0 n s).bind fun _ s =>
   (pop s).bind fun a s =>
   loadMulti (sint a + sint k) 1 n .ldmh s).outcome

end Sys2Proof.Machine
end

