-- ==== Sys2Proof/Machine/LoadStore.lean ====
section
/-! DEFINITION. Loads, stores, address forms and stack adjust (42_load_store.md). -/

namespace Sys2Proof.Machine

open Sys2Proof

/-- LDC (R141). -/
def execLdc (k : Word) (s : State) : Host.Outcome State Fault Refusal :=
  (push (word (sint k)) s).outcome

/-- LDS (R142): the displacement counts from SP before the push. -/
def execLds (k : Word) (s : State) : Host.Outcome State Fault Refusal :=
  ((memRead (sint (disp s .sp (sint k))) s).bind fun v s => push v s).outcome

/-- LDMS (R143). -/
def execLdms (k n : Word) (s : State) : Host.Outcome State Fault Refusal :=
  ((checkCount 0 n s).bind fun _ s =>
   loadMulti (sint (disp s .sp (sint k))) s.dir n .ldms s).outcome

/-- STS (R144): the displacement counts from SP before the pop. -/
def execSts (k : Word) (s : State) : Host.Outcome State Fault Refusal :=
  let a := disp s .sp (sint k)
  ((pop s).bind fun v s => memWrite (sint a) v s).outcome

/-- STMS (R145): the displacement counts from SP before the pops. -/
def execStms (k n : Word) (s : State) : Host.Outcome State Fault Refusal :=
  ((checkCount 0 n s).bind fun _ s =>
   storeMulti (sint (disp s .sp (sint k))) n .stms s).outcome

/-- LDL (R146). -/
def execLdl (k : Word) (s : State) : Host.Outcome State Fault Refusal :=
  ((memRead (sint (disp s .mp (sint k))) s).bind fun v s => push v s).outcome

/-- LDML (R147). -/
def execLdml (k n : Word) (s : State) : Host.Outcome State Fault Refusal :=
  ((checkCount 0 n s).bind fun _ s =>
   loadMulti (sint (disp s .mp (sint k))) s.dir n .ldml s).outcome

/-- STL (R148). -/
def execStl (k : Word) (s : State) : Host.Outcome State Fault Refusal :=
  let a := disp s .mp (sint k)
  ((pop s).bind fun v s => memWrite (sint a) v s).outcome

/-- STML (R149). -/
def execStml (k n : Word) (s : State) : Host.Outcome State Fault Refusal :=
  ((checkCount 0 n s).bind fun _ s =>
   storeMulti (sint (disp s .mp (sint k))) n .stml s).outcome

/-- LDA (R150). -/
def execLda (k : Word) (s : State) : Host.Outcome State Fault Refusal :=
  ((pop s).bind fun a s =>
   (memRead (addr (sint a + sint k * s.dir)) s).bind fun v s => push v s).outcome

/-- LDMA (R151): the count is checked before the pop. -/
def execLdma (k n : Word) (s : State) : Host.Outcome State Fault Refusal :=
  ((checkCount 0 n s).bind fun _ s =>
   (pop s).bind fun a s =>
   loadMulti (sint a + sint k * s.dir) s.dir n .ldma s).outcome

/-- STA (R152): the address is on top, the value below it. -/
def execSta (k : Word) (s : State) : Host.Outcome State Fault Refusal :=
  ((pop s).bind fun a s =>
   (pop s).bind fun v s =>
   memWrite (addr (sint a + sint k * s.dir)) v s).outcome

/-- STMA (R153): the count is checked before the pop. -/
def execStma (k n : Word) (s : State) : Host.Outcome State Fault Refusal :=
  ((checkCount 0 n s).bind fun _ s =>
   (pop s).bind fun a s =>
   storeMulti (sint a + sint k * s.dir) n .stma s).outcome

/-- LDAA (R154): no memory is read at the address. -/
def execLdaa (k : Word) (s : State) : Host.Outcome State Fault Refusal :=
  ((pop s).bind fun a s => push (word (sint a + sint k * s.dir)) s).outcome

/-- LDSA (R155): SP before the push. -/
def execLdsa (k : Word) (s : State) : Host.Outcome State Fault Refusal :=
  (push (disp s .sp (sint k)) s).outcome

/-- LDLA (R156). -/
def execLdla (k : Word) (s : State) : Host.Outcome State Fault Refusal :=
  (push (disp s .mp (sint k)) s).outcome

/-- ADJS (R157): one register write, no memory access. -/
def execAdjs (k : Word) (s : State) : Host.Outcome State Fault Refusal :=
  .next (adjust .sp (sint k) s)

end Sys2Proof.Machine
end

