-- ==== Sys2Proof/Machine/RegFrame.lean ====
section
/-! DEFINITION. Register moves, swaps and frame linkage (43_register_frame.md). Register operands are checked before
every other statement. -/

namespace Sys2Proof.Machine

open Sys2Proof

/-- LDR (R159): the register is read before the push. -/
def execLdr (r : Word) (s : State) : Host.Outcome State Fault Refusal :=
  ((checkReg r s).bind fun x s => push (s.reg x) s).outcome

/-- LDRR (R160): operand 1 is the destination. -/
def execLdrr (r1 r2 : Word) (s : State) : Host.Outcome State Fault Refusal :=
  ((checkReg r1 s).bind fun x1 s =>
   (checkReg r2 s).bind fun x2 s => .done () (setReg x1 (s.reg x2) s)).outcome

/-- STR (R161). -/
def execStr (r : Word) (s : State) : Host.Outcome State Fault Refusal :=
  ((checkReg r s).bind fun x s =>
   (pop s).bind fun v s => .done () (setReg x v s)).outcome

/-- SWP (R162): in place, SP does not change. -/
def execSwp (s : State) : Host.Outcome State Fault Refusal :=
  let a := sint (s.reg .sp)
  let b := addr (a - s.dir)
  ((memRead a s).bind fun t s =>
   (memRead b s).bind fun u s =>
   (memWrite a u s).bind fun _ s =>
   memWrite b t s).outcome

/-- SWPR (R163). -/
def execSwpr (r : Word) (s : State) : Host.Outcome State Fault Refusal :=
  ((checkReg r s).bind fun x s =>
   (memRead (sint (s.reg .sp)) s).bind fun t s =>
   (memWrite (sint (s.reg .sp)) (s.reg x) s).bind fun _ s =>
   .done () (setReg x t s)).outcome

/-- SWPRR (R164). -/
def execSwprr (r1 r2 : Word) (s : State) : Host.Outcome State Fault Refusal :=
  ((checkReg r1 s).bind fun x1 s =>
   (checkReg r2 s).bind fun x2 s =>
   .done () (setReg x2 (s.reg x1) (setReg x1 (s.reg x2) s))).outcome

/-- LINK (R165): the locals are not written. -/
def execLink (n : Word) (s : State) : Host.Outcome State Fault Refusal :=
  ((push (s.reg .mp) s).bind fun _ s =>
   .done () (adjust .sp (sint n) (setReg .mp (s.reg .sp) s))).outcome

/-- UNLINK (R166). -/
def execUnlink (s : State) : Host.Outcome State Fault Refusal :=
  ((pop (setReg .sp (s.reg .mp) s)).bind fun v s => .done () (setReg .mp v s)).outcome

end Sys2Proof.Machine
end

