-- ==== Sys2Proof/Machine/Trap.lean ====
section
/-! DEFINITION. TRAP (45_trap.md): console and file services. PC is `next` after every sub-operation. -/

namespace Sys2Proof.Machine

open Sys2Proof

/-- The sub-operations (R177 to R188). -/
def trapOp (o : TrapOp) (s : State) : Res Unit :=
  match o with
  | .prInt => (pop s).bind fun v s => .done () (print (.outInt v) s)
  | .prChar => (pop s).bind fun v s => .done () (print (.outChar v) s)
  | .inInt => promptInt s
  | .inChar => promptChar s
  | .inCharArray => promptCharArray s
  | .fileOpenRead => openHandle .read s
  | .fileOpenWrite => openHandle .write s
  | .fileRead => readHandle s
  | .fileWrite => writeHandle s
  | .fileClose => closeHandle s

/-- TRAP (R174): an unknown sub-opcode is a diagnostic and changes nothing else (R190). -/
def execTrap (t : Word) (s : State) : Host.Outcome State Fault Refusal :=
  match trapOf s.params.traps t with
  | some o => (trapOp o s).outcome
  | none => .next (diag (.unknownTrap (sint t) s.ia) s)

end Sys2Proof.Machine
end

