-- ==== Sys2Proof/Machine/Dispatch.lean ====
section
/-! DEFINITION. EXECUTE (10_state.md R48): one arm per instruction, each one call of its meaning. -/

namespace Sys2Proof.Machine

open Sys2Proof

def exec (i : Instr) (s : State) : Host.Outcome State Fault Refusal :=
  match i with
  | .add => Sys2Proof.Machine.execAdd s
  | .and => Sys2Proof.Machine.execAnd s
  | .div => Sys2Proof.Machine.execDiv s
  | .mod => Sys2Proof.Machine.execMod s
  | .mul => Sys2Proof.Machine.execMul s
  | .or => Sys2Proof.Machine.execOr s
  | .sub => Sys2Proof.Machine.execSub s
  | .xor => Sys2Proof.Machine.execXor s
  | .eq => Sys2Proof.Machine.execEq s
  | .ne => Sys2Proof.Machine.execNe s
  | .lt => Sys2Proof.Machine.execLt s
  | .gt => Sys2Proof.Machine.execGt s
  | .le => Sys2Proof.Machine.execLe s
  | .ge => Sys2Proof.Machine.execGe s
  | .lsl => Sys2Proof.Machine.execLsl s
  | .lsr => Sys2Proof.Machine.execLsr s
  | .rol => Sys2Proof.Machine.execRol s
  | .ror => Sys2Proof.Machine.execRor s
  | .cmp => Sys2Proof.Machine.execCmp s
  | .neg => Sys2Proof.Machine.execNeg s
  | .not => Sys2Proof.Machine.execNot s
  | .beq k => Sys2Proof.Machine.execBeq k s
  | .bne k => Sys2Proof.Machine.execBne k s
  | .blt k => Sys2Proof.Machine.execBlt k s
  | .bgt k => Sys2Proof.Machine.execBgt k s
  | .ble k => Sys2Proof.Machine.execBle k s
  | .bge k => Sys2Proof.Machine.execBge k s
  | .adjs k => Sys2Proof.Machine.execAdjs k s
  | .bra k => Sys2Proof.Machine.execBra k s
  | .brf k => Sys2Proof.Machine.execBrf k s
  | .brt k => Sys2Proof.Machine.execBrt k s
  | .bsr k => Sys2Proof.Machine.execBsr k s
  | .halt => Sys2Proof.Machine.execHalt s
  | .jsr => Sys2Proof.Machine.execJsr s
  | .lda k => Sys2Proof.Machine.execLda k s
  | .ldma k n => Sys2Proof.Machine.execLdma k n s
  | .ldaa k => Sys2Proof.Machine.execLdaa k s
  | .ldc k => Sys2Proof.Machine.execLdc k s
  | .ldl k => Sys2Proof.Machine.execLdl k s
  | .ldml k n => Sys2Proof.Machine.execLdml k n s
  | .ldla k => Sys2Proof.Machine.execLdla k s
  | .ldr r => Sys2Proof.Machine.execLdr r s
  | .ldrr r1 r2 => Sys2Proof.Machine.execLdrr r1 r2 s
  | .lds k => Sys2Proof.Machine.execLds k s
  | .ldms k n => Sys2Proof.Machine.execLdms k n s
  | .ldsa k => Sys2Proof.Machine.execLdsa k s
  | .link n => Sys2Proof.Machine.execLink n s
  | .nop => Sys2Proof.Machine.execNop s
  | .ret => Sys2Proof.Machine.execRet s
  | .sta k => Sys2Proof.Machine.execSta k s
  | .stma k n => Sys2Proof.Machine.execStma k n s
  | .stl k => Sys2Proof.Machine.execStl k s
  | .stml k n => Sys2Proof.Machine.execStml k n s
  | .str r => Sys2Proof.Machine.execStr r s
  | .sts k => Sys2Proof.Machine.execSts k s
  | .stms k n => Sys2Proof.Machine.execStms k n s
  | .swp => Sys2Proof.Machine.execSwp s
  | .swpr r => Sys2Proof.Machine.execSwpr r s
  | .swprr r1 r2 => Sys2Proof.Machine.execSwprr r1 r2 s
  | .trap t => Sys2Proof.Machine.execTrap t s
  | .unlink => Sys2Proof.Machine.execUnlink s
  | .ldh k => Sys2Proof.Machine.execLdh k s
  | .ldmh k n => Sys2Proof.Machine.execLdmh k n s
  | .sth => Sys2Proof.Machine.execSth s
  | .stmh n => Sys2Proof.Machine.execStmh n s

end Sys2Proof.Machine
end

