-- ==== Sys2Proof/Machine/Fetch.lean ====
section
/-! DEFINITION. FETCH and OPERANDS (10_state.md R47), and the HALT substituted for an illegal opcode (60_exceptions.md
R198). -/

namespace Sys2Proof.Machine

open Sys2Proof

/-- Each advance of PC is a register write (10_state.md R28). -/
def advancePc (s : State) : State := setReg .pc (word (sint (s.reg .pc) + 1)) s

/-- OPERANDS: `n` further words, latched in OPS in fetch order, PC advancing by one a word. -/
def fetchOperands : Nat → State → Res Unit
  | 0, s => .done () s
  | n + 1, s =>
    (memRead (sint (s.reg .pc)) s).bind fun w s =>
    fetchOperands n (advancePc { s with ops := s.ops ++ [w] })

/-- An illegal opcode word `w` at `a` (R47, R198): one diagnostic, HALT in the latches with no operands, and HALTED
without a second diagnostic (41_control.md R136). -/
def substituteHalt (a : Int) (w : Word) (s : State) : State :=
  halt { diag (.illegalOpcode a w) s with ir := some (recordOf s.params.opcodes .halt), ops := [], ia := a }

/-- Latch a fetched record (R47). -/
def latch (r : InstrRecord) (a : Int) (s : State) : State := { s with ir := some r, ia := a, ops := [] }

/-- FETCH and OPERANDS (R47): the instruction to execute, none where the latches make no instruction (R50). A fault, or
an illegal opcode, ends the step here. -/
def fetch (s : State) : Res (Option Instr) :=
  let a := sint (s.reg .pc)
  (memRead a s).bind fun w s =>
  let s := advancePc s
  match lookup s.params.opcodes w with
  | none => .stopped (substituteHalt a w s)
  | some r =>
    (fetchOperands r.operandCount (latch r a s)).bind fun _ s => .done (assemble r.mnemonic s.ops) s

/-- One step of a RUNNING machine that waits at no prompt, up to EXECUTE: what `step` does with each end of the fetch is
told by the three functions it is given. -/
def withFetched {α : Type} (ended : State → α) (execute : Instr → State → α) (noRule : State → α) (s : State) : α :=
  match fetch s with
  | .stopped t => ended t
  | .done (some i) t => execute i t
  | .done none t => noRule t

end Sys2Proof.Machine
end

