-- ==== Sys2Proof/Machine/Step.lean ====
section
/-! DEFINITION. One step of the machine (10_state.md R46 to R51), and the placing of one instruction where the next step
fetches it. -/

namespace Sys2Proof.Machine

open Sys2Proof

/-- `executeOne()` (R46): nothing on HALTED and FAULTED (R51); else FETCH, OPERANDS and EXECUTE. A step that waits at a
prompt goes on there (45_trap.md R182, log 4). -/
def step (s : State) : Host.Outcome State Fault Refusal :=
  match s.rs with
  | .halted => .next s
  | .faulted _ => .next s
  | .running =>
    match s.waiting with
    | some p => .next (resume p s)
    | none => withFetched .next exec (fun t => .next (unknownInstruction t)) s

/-- Write words at ascending addresses, with no event. -/
def placeWords : Nat → List Word → Memory → Memory
  | _, [], m => m
  | a, w :: ws, m => placeWords (a + 1) ws (memSet m a w)

/-- The state with one instruction stored where the next step fetches. The fetch needs a RUNNING machine, no waiting
prompt, three addressable words from PC on (PC is 0 where there are not), and a capacity that holds them. -/
def State.withFetchWord (s : State) (nbits w : Nat) : State :=
  let fits : Bool := decide (0 ≤ sint s.regs.pc) && decide (sint s.regs.pc + maxWords ≤ 2 ^ 31)
  let pc : Word := if fits then s.regs.pc else 0
  let a := pc.toNat
  { s with
    rs := .running
    waiting := none
    regs := { s.regs with pc := pc }
    cap := max s.cap (a + maxWords)
    mem := placeWords a (tableWords nbits w) (sparseBelow s.mem s.cap) }

end Sys2Proof.Machine
end

