-- ==== Sys2Proof/Machine/HostOps.lean ====
section
/-! DEFINITION. The host interface (10_state.md R49, 60_exceptions.md R211): what a host can do between steps, through
the engine's own entry points, and the answers it gives. `none` is a refused call, which changes nothing. -/

namespace Sys2Proof.Machine

open Sys2Proof

/-- No step is in progress: only a prompt can hold one open (10_state.md R52). -/
def State.betweenSteps (s : State) : Bool := s.waiting.isNone

/-- A host operation between steps; refused while a step is in progress (R211, R212; log 19). -/
def betweenStepsOnly {α : Type} (s : State) (r : Option α) : Option α := if s.betweenSteps then r else none

/-- `reset(image)` (70_reset_and_hazards.md R214, R216): refused for an image longer than MEM_INIT. No event, no
diagnostic; the host side stays. DESIGN CHOICE, log 24: refused too where the configuration must give STACK_BASE (R217) and
does not; the spec does not say what reset does then. -/
def hostReset (image : List Word) (s : State) : Option State :=
  betweenStepsOnly s
    (if image.length ≤ s.params.memInit then
      (s.params.stackBaseFor image.length).map fun b => State.afterReset s.params b image s.host s.events s.views
    else none)

/-- `getReg(r)`: no event. DESIGN CHOICE, log 23: the host names a register by a `Reg`, so there is no call with a number
that names no register; the spec does not say what that call does. -/
def hostGetReg (r : Reg) (s : State) : Option Word := betweenStepsOnly s (some (s.reg r))

/-- `setReg(r, v)`: with a RegEvent. DESIGN CHOICE, log 23: of a number that names no register there is no call, as with
`hostGetReg`. -/
def hostSetReg (r : Reg) (v : Word) (s : State) : Option State := betweenStepsOnly s (some (setReg r v s))

/-- A refused address is a refused call and does not change RS (R211). -/
def refusedCall {α : Type} : Res α → Option (α × State)
  | .done a s => some (a, s)
  | .stopped _ => none

/-- `getMem(a)`: as `MemRead`, so it can grow memory. -/
def hostGetMem (a : Int) (s : State) : Option (Word × State) := betweenStepsOnly s (refusedCall (memRead a s))

/-- `setMem(a, v)`: as `MemWrite`, with a MemEvent. -/
def hostSetMem (a : Int) (v : Word) (s : State) : Option State :=
  betweenStepsOnly s ((refusedCall (memWrite a v s)).map Prod.snd)

/-- `getAnn(a)`: the annotation of a cell, or none. -/
def hostGetAnn (a : Nat) (s : State) : Option (Option Annotation) := betweenStepsOnly s (some (sparseGet s.ann a))

/-- `setAnnotation(a, annotation | none)` (20_memory.md R63): no event, no growth. DESIGN CHOICE, log 22: where there is no
cell, at the capacity and above, the call is refused; the spec does not say what it does there. Nor does it say who calls
it, or when: the model has it as a host write, so it is refused while a step is in progress (60_exceptions.md R212,
10_state.md R53; log 19, log 22). -/
def setAnnotation (a : Nat) (t : Option Annotation) (s : State) : Option State :=
  betweenStepsOnly s
    (if a < s.cap then
      some { s with ann := match t with
        | some t => sparseSet s.ann a t
        | none => sparseErase s.ann a }
    else none)

/-- What `getState()` shows. DESIGN CHOICE, log 21: 10_state.md R49 names the read and not its fields; these are the
parts of the machine state of 00_scope.md R5 (the latches R35, the halted flag R39, the open handles R41, the addressing
direction) and the whole run state (R38), with the cause and info of a fault. -/
structure MachineStateView where
  currentInstruction : Option InstrRecord
  inlineOperands : List Word
  instructionAddress : Int
  halted : Bool
  runState : RunState
  direction : Dir
  openHandles : List (Nat × Stream)
  deriving DecidableEq, Repr

/-- `getState()` (log 21): no side effect, and not refused while a prompt waits (R40, log 19). -/
def hostGetState (s : State) : MachineStateView where
  currentInstruction := s.ir
  inlineOperands := s.ops
  instructionAddress := s.ia
  halted := decide (s.rs = .halted)
  runState := s.rs
  direction := s.params.dir
  openHandles := s.handles

/-- `subscribe(listener)`: the listener receives every later event. -/
def hostSubscribe (s : State) : Option State :=
  betweenStepsOnly s
    (some { s with host := { s.host with subscribers := s.host.subscribers ++ [s.events.length] } })

/-- The events the `i`th listener has received (10_state.md R33). -/
def received (i : Nat) (s : State) : List ChangeEvent :=
  match s.host.subscribers[i]? with
  | some n => s.events.drop n
  | none => []

/-- The views that the `i`th listener had of the events it received, in the same order (70_reset_and_hazards.md R224): all
listeners of an event see the same state, since none of them writes it (60_exceptions.md R212). -/
def seen (i : Nat) (s : State) : List View :=
  match s.host.subscribers, s.host.subscribers[i]? with
  | first :: _, some n => s.views.drop (n - first)
  | _, _ => []

/-- The host answers the next `promptInt` (45_trap.md R179, R182): at any time, also while a step waits. -/
def answerInt (v : Word) (s : State) : State :=
  { s with host := { s.host with intAnswers := s.host.intAnswers ++ [v] } }

/-- The host answers the next `promptChar` (R180). -/
def answerChar (v : Word) (s : State) : State :=
  { s with host := { s.host with charAnswers := s.host.charAnswers ++ [v] } }

/-- The host answers the next `promptCharArray` (R181); codes of 0 break its duty and are refused (R211;
log 16). -/
def answerCharArray (cs : List Word) (s : State) : Option State :=
  if cs.all fun c => c != 0 then
    some { s with host := { s.host with textAnswers := s.host.textAnswers ++ [cs] } }
  else none

/-- The host's file store will report `failed` on the next call that has no verdict yet (R189). -/
def decideFileCall (failed : Bool) (s : State) : State :=
  { s with host := { s.host with fileVerdicts := s.host.fileVerdicts ++ [failed] } }

end Sys2Proof.Machine
end

