-- ==== Sys2Proof/WellFormed.lean ====
section
/-! DEFINITION. What a well-formed instruction record, decoded instruction and instruction are. Decoding checks no
operand value (30_encoding.md R89), so `Instr.wellFormed` speaks of the checks the engine makes when it executes. -/

namespace Sys2Proof

/-- 10_state.md R36, 30_encoding.md R74: at most two operands, bits 31:8 of the opcode are 0, a mask for BRCC only. -/
def InstrRecord.wellFormed (r : InstrRecord) : Bool :=
  decide (r.operandCount ≤ 2) && decide (r.opcode.toNat < 256) && (r.conditionMask.isSome == decide (r.category = .brcc))

/-- The latches agree (10_state.md R37): as many operands as the record declares. -/
def latchesAgree (ir : Option InstrRecord) (ops : List Word) : Bool :=
  match ir with
  | none => ops.isEmpty
  | some r => ops.length == r.operandCount

/-- A register operand names a register (10_state.md R27). -/
def regOperandOk (r : Word) : Bool := decide (uint r < nreg)

/-- The count of a multi-word copy is not negative (42_load_store.md R140). -/
def countOk (n : Word) : Bool := decide (0 ≤ sint n)

/-- The size of a heap block is at least 1 (44_heap.md R170). -/
def sizeOk (n : Word) : Bool := decide (1 ≤ sint n)

/-- A TRAP sub-opcode that the TRAP map names (45_trap.md R174). -/
def trapOperandOk (m : TrapMap) (t : Word) : Bool := (trapOf m t).isSome

/-- The checks the engine makes on an instruction's operands when it executes: register numbers, counts, TRAP numbers.
An instruction that fails one still decodes, and faults or is diagnosed when it runs (R89). -/
def Instr.wellFormed (m : TrapMap) : Instr → Bool
  | .ldr r => regOperandOk r
  | .str r => regOperandOk r
  | .swpr r => regOperandOk r
  | .ldrr r1 r2 => regOperandOk r1 && regOperandOk r2
  | .swprr r1 r2 => regOperandOk r1 && regOperandOk r2
  | .ldms _ n => countOk n
  | .ldml _ n => countOk n
  | .ldma _ n => countOk n
  | .ldmh _ n => countOk n
  | .stms _ n => countOk n
  | .stml _ n => countOk n
  | .stma _ n => countOk n
  | .stmh n => sizeOk n
  | .trap t => trapOperandOk m t
  | .add | .and | .div | .mod | .mul | .or | .sub | .xor | .eq | .ne
  | .lt | .gt | .le | .ge | .lsl | .lsr | .rol | .ror | .cmp | .neg
  | .not | .beq _ | .bne _ | .blt _ | .bgt _ | .ble _ | .bge _ | .adjs _ | .bra _ | .brf _
  | .brt _ | .bsr _ | .halt | .jsr | .lda _ | .ldaa _ | .ldc _ | .ldl _ | .ldla _ | .lds _
  | .ldsa _ | .link _ | .nop | .ret | .sta _ | .stl _ | .sts _ | .swp | .unlink | .ldh _
  | .sth => true

end Sys2Proof
end

