-- ==== Sys2Proof/Safety.lean ====
section
/-! DEFINITION. How a run ends (00_scope.md R22), the invariant of the machine, and the terms in which statements speak
of a state: the word and the annotation of a cell, the accesses an instruction makes, and what it leaves unchanged. -/

namespace Sys2Proof.Machine

open Sys2Proof

/-! ### Runs -/

/-- The states that steps lead to from `s`. -/
inductive Reaches (s : State) : State → Prop where
  | start : Reaches s s
  | more {t u : State} (h : Reaches s t) (hs : step t = .next u) : Reaches s u

/-- The normal end of a run (R22). -/
def State.endedNormally (s : State) : Prop := s.rs = .halted

/-- The abnormal end of a run: FAULTED is never a normal final state (R22). -/
def State.endedAbnormally (s : State) : Prop := ∃ info, s.rs = .faulted info

/-- A safe run never faults. -/
def State.faultFree (s : State) : Prop := ∀ t, Reaches s t → ¬ t.endedAbnormally

/-! ### What a state holds -/

/-- The word of the cell at an address (20_memory.md R54), 0 where there is no cell: what growth would put there
(R57). -/
def State.cell (s : State) (a : Int) : Word := if 0 ≤ a ∧ a < s.cap then memGet s.mem a.toNat else 0

/-- The annotation of the cell at an address, if it has one (R63). -/
def State.annotationAt (s : State) (a : Int) : Option Annotation :=
  if 0 ≤ a ∧ a < s.cap then sparseGet s.ann a.toNat else none

/-! ### Accesses -/

/-- The capacity after an access that is not refused (R56, R57). -/
def capAfterAccess (inc cap : Nat) (a : Int) : Nat := if a < (cap : Int) then cap else cap + inc

/-- None of the accesses, made in this order, is refused (R58). -/
def admitsFrom (inc : Nat) : Nat → List Int → Bool
  | _, [] => true
  | cap, a :: as => decide (0 ≤ a) && decide (a < (cap : Int) + inc) && admitsFrom inc (capAfterAccess inc cap a) as

/-- None of the accesses, made in this order from state `s`, is refused. -/
def State.admits (s : State) (as : List Int) : Bool := admitsFrom s.params.growInc s.cap as

/-- The capacity after the accesses, made in this order from state `s`. -/
def State.capAfter (s : State) (as : List Int) : Nat := as.foldl (capAfterAccess s.params.growInc) s.cap

/-- The addresses of a block of `n` words from the address expression `b`, `stride` apart (42_load_store.md R139). -/
def blockAddrs (b stride : Int) (n : Nat) : List Int := (List.range n).map fun (i : Nat) => addr (b + (i : Int) * stride)

/-! ### Frames -/

/-- From `s` to `t` nothing changes but the registers `regs`, the words of the cells `cells`, the annotations of the
cells `anns`, the capacity, the event feed and what the listeners saw, which a statement gives apart. -/
structure Unchanged (regs : List Reg) (cells anns : List Int) (s t : State) : Prop where
  params : t.params = s.params
  regs : ∀ r, r ∉ regs → t.reg r = s.reg r
  cells : ∀ a, a ∉ cells → t.cell a = s.cell a
  anns : ∀ a, a ∉ anns → t.annotationAt a = s.annotationAt a
  ir : t.ir = s.ir
  ops : t.ops = s.ops
  ia : t.ia = s.ia
  rs : t.rs = s.rs
  waiting : t.waiting = s.waiting
  handles : t.handles = s.handles
  host : t.host = s.host

/-- The RegEvent of a write of `v` to `r` in state `s` (10_state.md R33). -/
def regEvent (s : State) (r : Reg) (v : Word) : ChangeEvent := .reg r (s.reg r) v

/-- The MemEvent of a write to the cell at `a` in state `s` (20_memory.md R65). -/
def memEvent (s : State) (a : Int) : ChangeEvent := .mem a.toNat (s.cell a)

/-! ### The invariant -/

/-- A stream is live: the file it is open on is in the store (10_state.md R41). -/
def liveStream (s : State) (st : Stream) : Prop := (fileGet s.host.files st.name).isSome

/-- How many events there were since the first listener subscribed. -/
def State.viewsDue (s : State) : Nat :=
  match s.host.subscribers with
  | [] => 0
  | first :: _ => s.events.length - first

/-- What holds of the machine in every state a run reaches: memory and annotations keep their canonical form and lie
below the capacity (R54), the open-handle table keeps its form and names live streams (10_state.md R41), a file name
occurs once, a RUNNING machine's latches agree (R37), only a RUNNING machine waits, the listeners subscribed one after the
other and none after the last event, and there is one view for each event since the first one did
(70_reset_and_hazards.md R224). -/
structure State.Inv (s : State) : Prop where
  memory : s.mem.wf
  memoryBelow : ∀ c ∈ s.mem, c.1 < s.cap
  annotations : Rising s.ann
  annotationsBelow : ∀ c ∈ s.ann, c.1 < s.cap
  handles : Rising s.handles
  streams : ∀ c ∈ s.handles, liveStream s c.2
  files : (s.host.files.map Prod.fst).Nodup
  latches : s.rs = .running → latchesAgree s.ir s.ops = true
  waiting : s.waiting ≠ none → s.rs = .running
  subscribers : s.host.subscribers.Pairwise (· ≤ ·) ∧ ∀ n ∈ s.host.subscribers, n ≤ s.events.length
  views : s.views.length = s.viewsDue

end Sys2Proof.Machine
end

