-- ==== Sys2Proof/Certificates/Slice0/Obligations.lean ====
section
/-! DEFINITION. The statements for the provers. First the shapes that several instructions share, as predicates on an
instruction; then one obligation per rule or group of rules. Annotation texts and the order of memory events inside a
multi-word instruction are stated nowhere (20_memory.md R64, 42_load_store.md D20; log 8, log 17). -/

open Sys2Proof Sys2Proof.Machine

namespace Sys2Proof.Claims

/-! ### Shapes -/

/-- The address of the top stack word (00_scope.md R13). -/
def topAddr (s : State) : Int := sint (s.reg .sp)

/-- The address of the `j`th word from the top, in the direction of growth (R13, R14). -/
def fromTop (s : State) (j : Int) : Int := sint (disp s .sp j)

/-- The operand word that names a register (10_state.md R25). -/
def regWord (x : Reg) : Word := BitVec.ofNat 32 (numberOfReg x)

/-- The instruction pushes one word that it reads off the state before it. A listener sees SP moved and the memory as
before, then the word written (70_reset_and_hazards.md R224; log 11). -/
def PushesWord (i : Instr) (v : State → Word) : Prop :=
  ∀ s : State, s.admits [fromTop s 1] →
    ∃ t, exec i s = .next t ∧ t.reg .sp = disp s .sp 1 ∧ t.cell (fromTop s 1) = v s ∧
      Unchanged [.sp] [fromTop s 1] [] s t ∧ t.cap = s.capAfter [fromTop s 1] ∧
      t.events = s.events ++ [regEvent s .sp (disp s .sp 1), memEvent s (fromTop s 1)] ∧
      t.views = s.views ++ s.heard [{ s.view with regs := regsSet s.regs .sp (disp s .sp 1) }, t.view]

/-- The instruction pushes the word of the cell at `src`. -/
def PushesCell (i : Instr) (src : State → Int) : Prop :=
  ∀ s : State, s.admits [src s, fromTop s 1] →
    ∃ t, exec i s = .next t ∧ t.reg .sp = disp s .sp 1 ∧ t.cell (fromTop s 1) = s.cell (src s) ∧
      Unchanged [.sp] [fromTop s 1] [] s t ∧ t.cap = s.capAfter [src s, fromTop s 1] ∧
      t.events = s.events ++ [regEvent s .sp (disp s .sp 1), memEvent s (fromTop s 1)]

/-- The instruction pops `right`, pops `left`, and pushes a word in relation `rel s left right` to them, for every `right`
with `ok right` (40_alu.md R94). Its annotation is on the result cell; what it says is left open. -/
def Binop (i : Instr) (ok : Word → Prop) (rel : State → Word → Word → Word → Prop) : Prop :=
  ∀ s : State, s.admits [topAddr s, fromTop s (-1), fromTop s (-1)] → ok (s.cell (topAddr s)) →
    ∃ t, exec i s = .next t ∧ t.reg .sp = disp s .sp (-1) ∧
      rel s (s.cell (fromTop s (-1))) (s.cell (topAddr s)) (t.cell (fromTop s (-1))) ∧
      Unchanged [.sp] [fromTop s (-1)] [fromTop s (-1)] s t ∧
      t.cap = s.capAfter [topAddr s, fromTop s (-1), fromTop s (-1)] ∧
      t.events = s.events ++
        [regEvent s .sp (disp s .sp (-1)), .reg .sp (disp s .sp (-1)) (disp s .sp (-2)),
          .reg .sp (disp s .sp (-2)) (disp s .sp (-1)), memEvent s (fromTop s (-1))]

/-- `Binop` for a function defined on all words. -/
def BinopIs (i : Instr) (f : Word → Word → Word) : Prop := Binop i (fun _ => True) fun _ l r v => v = f l r

/-- The instruction replaces the top stack word `v` by `g s v`, through one pop and one push. -/
def RewritesTop (i : Instr) (g : State → Word → Word) : Prop :=
  ∀ s : State, s.admits [topAddr s, topAddr s] →
    ∃ t, exec i s = .next t ∧ t.cell (topAddr s) = g s (s.cell (topAddr s)) ∧
      Unchanged [] [topAddr s] [] s t ∧ t.cap = s.capAfter [topAddr s, topAddr s] ∧
      t.events = s.events ++
        [regEvent s .sp (disp s .sp (-1)), .reg .sp (disp s .sp (-1)) (s.reg .sp), memEvent s (topAddr s)]

/-- The instruction pops an address and pushes the word of the cell that `src` computes from it. -/
def LoadsThroughTop (i : Instr) (src : State → Word → Int) : Prop :=
  ∀ s : State, s.admits [topAddr s, src s (s.cell (topAddr s)), topAddr s] →
    ∃ t, exec i s = .next t ∧ t.cell (topAddr s) = s.cell (src s (s.cell (topAddr s))) ∧
      Unchanged [] [topAddr s] [] s t ∧ t.cap = s.capAfter [topAddr s, src s (s.cell (topAddr s)), topAddr s] ∧
      t.events = s.events ++
        [regEvent s .sp (disp s .sp (-1)), .reg .sp (disp s .sp (-1)) (s.reg .sp), memEvent s (topAddr s)]

/-- The instruction pops a word into the cell at `dst`, computed on the state before the pop. -/
def PopsInto (i : Instr) (dst : State → Int) : Prop :=
  ∀ s : State, s.admits [topAddr s, dst s] →
    ∃ t, exec i s = .next t ∧ t.reg .sp = disp s .sp (-1) ∧ t.cell (dst s) = s.cell (topAddr s) ∧
      Unchanged [.sp] [dst s] [] s t ∧ t.cap = s.capAfter [topAddr s, dst s] ∧
      t.events = s.events ++ [regEvent s .sp (disp s .sp (-1)), memEvent s (dst s)]

/-- The instruction pops a word and branches to `next + k` iff `taken s` holds of it, else falls through to `next`. -/
def BranchesOn (i : Instr) (k : Word) (taken : State → Word → Bool) : Prop :=
  ∀ s : State, s.admits [topAddr s] →
    ∃ t, exec i s = .next t ∧ t.reg .sp = disp s .sp (-1) ∧
      t.reg .pc = (if taken s (s.cell (topAddr s)) then word (sint (s.reg .pc) + sint k) else s.reg .pc) ∧
      Unchanged [.sp, .pc] [] [] s t ∧ t.cap = s.capAfter [topAddr s] ∧
      t.events = s.events ++ [regEvent s .sp (disp s .sp (-1))] ++
        (if taken s (s.cell (topAddr s)) then [regEvent s .pc (word (sint (s.reg .pc) + sint k))] else [])

/-- The accesses of the pop that some block instructions start with. -/
def popAccess (popped : Bool) (s : State) : List Int := if popped then [topAddr s] else []

/-- SP after that pop. -/
def spAfterPop (popped : Bool) (s : State) : Word := if popped then disp s .sp (-1) else s.reg .sp

/-- Its events. -/
def popEvents (popped : Bool) (s : State) : List ChangeEvent :=
  if popped then [regEvent s .sp (disp s .sp (-1))] else []

/-- The instruction (after a pop, if `popped`) copies `n` words, `stride` apart from `base` on, onto the stack, the
first one deepest (42_load_store.md R139). -/
def LoadsBlock (i : Instr) (popped : Bool) (base stride : State → Int) (n : Word) : Prop :=
  ∀ s : State, 0 ≤ sint n →
    let q := spAfterPop popped s
    let src := blockAddrs (base s) (stride s) (sint n).toNat
    let dst := blockAddrs (sint q + s.dir) s.dir (sint n).toNat
    s.admits (popAccess popped s ++ src ++ dst) →
    ∃ t, exec i s = .next t ∧ t.reg .sp = word (sint q + sint n * s.dir) ∧
      (∀ j, (h : j < (sint n).toNat) →
        t.cell (addr (sint q + s.dir + j * s.dir)) = s.cell (addr (base s + j * stride s))) ∧
      Unchanged [.sp] dst dst s t ∧ t.cap = s.capAfter (popAccess popped s ++ src ++ dst) ∧
      ∃ evs, t.events = s.events ++ evs ∧
        evs.Perm (popEvents popped s ++ .reg .sp q (word (sint q + sint n * s.dir)) :: dst.map (memEvent s))

/-- The instruction (after a pop, if `popped`) moves the top `n` stack words to the cells from `base` on, one step of
DIR apart, the deepest first (R139). -/
def StoresBlock (i : Instr) (popped : Bool) (base : State → Int) (n : Word) : Prop :=
  ∀ s : State, 0 ≤ sint n →
    let q := spAfterPop popped s
    let src := blockAddrs (sint q - (sint n - 1) * s.dir) s.dir (sint n).toNat
    let dst := blockAddrs (base s) s.dir (sint n).toNat
    s.admits (popAccess popped s ++ src ++ dst) →
    ∃ t, exec i s = .next t ∧ t.reg .sp = word (sint q - sint n * s.dir) ∧
      (∀ j, (h : j < (sint n).toNat) →
        t.cell (addr (base s + j * s.dir)) = s.cell (addr (sint q - (sint n - 1 - j) * s.dir))) ∧
      Unchanged [.sp] dst dst s t ∧ t.cap = s.capAfter (popAccess popped s ++ src ++ dst) ∧
      ∃ evs, t.events = s.events ++ evs ∧
        evs.Perm (popEvents popped s ++ .reg .sp q (word (sint q - sint n * s.dir)) :: dst.map (memEvent s))

/-- From `s` to `t` a fault was taken: FAULTED with `info`, one diagnostic, and before it no effect but on the registers
`regs`, the cells `cells` and their annotations, the capacity and the event feed (60_exceptions.md R195, R196). -/
def FaultTaken (info : FaultInfo) (regs : List Reg) (cells : List Int) (s t : State) : Prop :=
  t.rs = .faulted info ∧ t.host = { s.host with diags := s.host.diags ++ [.fault info] } ∧
    Unchanged regs cells cells s { t with rs := s.rs, host := s.host }

/-- The instruction takes a fault before it changes anything else (R202). -/
def FaultsAtOnce (i : Instr) (s : State) (info : FaultInfo) : Prop :=
  ∃ t, exec i s = .next t ∧ FaultTaken info [] [] s t ∧ t.cap = s.cap ∧ t.events = s.events

/-- The instruction makes the accesses `done`; if the next one, to `a`, is refused, the effects so far stand (R196): SP
is `sp`, the events are `evs`, the capacity is what the accesses left, and nothing else has changed. -/
def StopsAfter (i : Instr) (s : State) (done : List Int) (a : Int) (sp : Word) (evs : List ChangeEvent) : Prop :=
  s.admits done → s.admits (done ++ [a]) = false →
    ∃ t, exec i s = .next t ∧ FaultTaken (.addressFault a s.ia) [.sp] [] s t ∧ t.reg .sp = sp ∧
      t.cap = s.capAfter done ∧ t.events = s.events ++ evs

/-- The same of any word of the block that the instruction (after a pop, if `popped`) reads from `base` on, `stride`
apart: no word is written, and SP is as after the pop (R196). -/
def BlockReadStops (i : Instr) (popped : Bool) (base stride : State → Int) (n : Word) : Prop :=
  ∀ (s : State) (j : Nat), j < (sint n).toNat →
    StopsAfter i s (popAccess popped s ++ blockAddrs (base s) (stride s) j) (addr (base s + j * stride s))
      (spAfterPop popped s) (popEvents popped s)

/-- The instruction (after a pop, if `popped`) has read the block of `n` words from `src` on and moved SP to `sp`; if its
write of word `j` to the block from `dst` on is refused, SP stays moved and the words before it stay written (R196). -/
def BlockWriteStops (i : Instr) (popped : Bool) (src stride dst step : State → Int) (sp : State → Word) (n : Word) : Prop :=
  ∀ (s : State) (j : Nat), j < (sint n).toNat →
    let done := popAccess popped s ++ blockAddrs (src s) (stride s) (sint n).toNat ++ blockAddrs (dst s) (step s) j
    let a := addr (dst s + j * step s)
    s.admits done → s.admits (done ++ [a]) = false →
    ∃ t, exec i s = .next t ∧ FaultTaken (.addressFault a s.ia) [.sp] (blockAddrs (dst s) (step s) j) s t ∧
      t.reg .sp = sp s ∧ (∀ m < j, t.cell (addr (dst s + m * step s)) = s.cell (addr (src s + m * stride s))) ∧
      t.cap = s.capAfter done ∧
      ∃ evs, t.events = s.events ++ evs ∧
        evs.Perm (popEvents popped s ++ .reg .sp (spAfterPop popped s) (sp s) ::
          (blockAddrs (dst s) (step s) j).map (memEvent s))

/-- From `s` to `t` one diagnostic was sent, and nothing else changed but the registers `regs`, the capacity and the
event feed (R197). -/
def Diagnosed (d : Diag) (regs : List Reg) (s t : State) : Prop :=
  t.host = { s.host with diags := s.host.diags ++ [d] } ∧ Unchanged regs [] [] s { t with host := s.host }

/-- The words where the next fetch reads: the opcode word and `n` words after it (30_encoding.md R73). -/
def codeAddrs (s : State) (n : Nat) : List Int := blockAddrs (sint (s.reg .pc)) 1 (n + 1)

/-- The state in which an instruction of `n` operands at PC executes: PC at `next`, the latches written, one RegEvent a
word (10_state.md R47). -/
def afterFetch (r : InstrRecord) (s : State) : State :=
  let n := r.operandCount
  { (codeAddrs s n).foldl (fun u a => touch a u) s with
    regs := { s.regs with pc := word (sint s.regs.pc + 1 + n) }
    ir := some r
    ops := (codeAddrs s n).tail.map s.cell
    ia := sint (s.reg .pc)
    events := s.events ++ (List.range (n + 1)).map fun (j : Nat) =>
      .reg .pc (word (sint (s.reg .pc) + j)) (word (sint (s.reg .pc) + j + 1)) }

/-- The machine is about to begin a step. -/
def Ready (s : State) : Prop := s.rs = .running ∧ s.waiting = none

/-- The name `cs` stands on the stack as 45_trap.md R183 passes it: its codes from the top on, then a 0. -/
def NameOnStack (s : State) (cs : List Word) : Prop :=
  (∀ c ∈ cs, c ≠ 0) ∧ (∀ j, (h : j < cs.length) → s.cell (fromTop s (-(j : Int))) = cs[j]) ∧
    s.cell (fromTop s (-(cs.length : Int))) = 0

/-- The addresses popped to read a name of `m` codes and its 0. -/
def nameAddrs (s : State) (m : Nat) : List Int := (List.range (m + 1)).map fun (j : Nat) => fromTop s (-(j : Int))

/-- The events of `m` pops in a row. -/
def popsEvents (s : State) (m : Nat) : List ChangeEvent :=
  (List.range m).map fun (j : Nat) => .reg .sp (disp s .sp (-(j : Int))) (disp s .sp (-(j + 1 : Int)))

/-- The events of a push after `m` pops: SP moves one word on, and the word is written where SP then points. -/
def pushEvents (s : State) (m : Int) : List ChangeEvent :=
  [.reg .sp (disp s .sp (-m)) (disp s .sp (1 - m)), memEvent s (fromTop s (1 - m))]

/-- The host side after a file service call that it did not refuse to answer (45_trap.md R189). -/
def calledHost (s : State) : HostState :=
  { s.host with fileVerdicts := s.host.fileVerdicts.tail, fileCalls := s.host.fileCalls + 1 }

/-- What a listener sees at an event agrees with it: the register holds the new word, the cell written is there (10_state.md
R33, 20_memory.md R65). -/
def Shows : ChangeEvent → View → Prop
  | .reg r _ new, v => regsGet v.regs r = new
  | .mem a _, v => a < v.cap

end Sys2Proof.Claims

open Sys2Proof.Claims

/-! ### Encoding (30_encoding.md) -/

/-- Under every opcode map with a number of its own for each mnemonic (R81), the decoder reads an instruction exactly from
its own encoding, whatever words follow (the sentence of R88 that the spec infers from R75, R77 and R87). -/
def Obligations.DecodeInvertsEncode : Prop :=
  ∀ m : OpcodeMap, m.wellFormed → ∀ ws i rest, decode m ws = .ok (i, rest) ↔ ws = encode m i ++ rest

/-- Under every such map the lookup gives a row of the table exactly for that row's opcode number, all 32 bits compared
(R75, R87), and a word with a bit of 31:8 set is no opcode (R90). The map of this spec gives the numbers of R86; under it 0
and every value from 0xD9 up is no opcode (R82). -/
def Obligations.LookupComparesTheWholeWord : Prop :=
  (∀ m : OpcodeMap, m.wellFormed →
    (∀ w r, lookup m w = some r ↔ r ∈ opcodeTable m ∧ r.opcode = w) ∧
    ∀ w : Word, (w >>> 8 : Word) ≠ 0 → ∀ rest, decode m (w :: rest) = .error (.illegalOpcode w)) ∧
  OpcodeMap.standard.wellFormed ∧ (∀ x, lookup .standard (rowOf x).opcode = some (rowOf x)) ∧
    ∀ w : Word, w = 0 ∨ 0xD9 ≤ uint w → lookup .standard w = none

/-- A few words written out from R86, and the TRAP numbers of 45_trap.md R175. -/
def Obligations.SampleWordsDecode : Prop :=
  (decodeTableWord 32 0x00000001 = some .add ∧ decodeTableWord 32 0x00000021 = some .not ∧
    decodeTableWord 64 0xFFFFFFFA0000005A = some (.blt 0xFFFFFFFA) ∧
    decodeTableWord 64 0x0000000300000084 = some (.ldc 3) ∧
    decodeTableWord 96 0x00000002FFFFFFFF0000009A = some (.ldms 0xFFFFFFFF 2) ∧
    decodeTableWord 96 0x000000020000000400000094 = some (.ldrr 4 2) ∧
    decodeTableWord 64 0x00000003000000D8 = some (.stmh 3) ∧
    decodeTableWord 64 0x00000015000000C8 = some (.trap 21) ∧ decodeTableWord 32 0x00000000 = none) ∧
  ∀ p ∈ [((0 : Word), TrapOp.prInt), (1, .prChar), (10, .inInt), (11, .inChar), (12, .inCharArray), (20, .fileOpenRead),
      (21, .fileOpenWrite), (22, .fileRead), (23, .fileWrite), (24, .fileClose)], trapOf .standard p.1 = some p.2

/-! ### The sequencer (10_state.md) -/

/-- FETCH, OPERANDS and EXECUTE (R47, R48): where the words at PC are an instruction and no access to them is refused,
the step is the instruction's meaning on the state the fetch leaves. A listener, if there is one, saw PC one further at
each word. -/
def Obligations.StepRunsTheDecodedInstruction : Prop :=
  ∀ (s : State) (i : Instr), s.params.opcodes.wellFormed → Ready s →
    s.admits (codeAddrs s i.operands.length) →
    (codeAddrs s i.operands.length).map s.cell = encode s.params.opcodes i →
    ∃ vs : List View,
      step s = exec i { afterFetch (recordOf s.params.opcodes i.mnemonic) s with views := s.views ++ s.heard vs } ∧
      vs.map View.regs = (List.range (i.operands.length + 1)).map fun (j : Nat) =>
        { s.regs with pc := word (sint (s.reg .pc) + j + 1) }

/-- IllegalOpcode (60_exceptions.md R198): PC one on, exactly one diagnostic, HALT in the latches, HALTED. -/
def Obligations.IllegalOpcodeHaltsWithOneDiagnostic : Prop :=
  ∀ s : State, Ready s → s.admits [sint (s.reg .pc)] → lookup s.params.opcodes (s.cell (sint (s.reg .pc))) = none →
    ∃ t, step s = .next t ∧ t.rs = .halted ∧ t.reg .pc = word (sint (s.reg .pc) + 1) ∧
      t.host = { s.host with
        diags := s.host.diags ++ [.illegalOpcode (sint (s.reg .pc)) (s.cell (sint (s.reg .pc)))] } ∧
      t.ir = some (recordOf s.params.opcodes .halt) ∧ t.ops = [] ∧ t.ia = sint (s.reg .pc) ∧
      t.cap = s.capAfter [sint (s.reg .pc)] ∧
      t.events = s.events ++ [regEvent s .pc (word (sint (s.reg .pc) + 1))] ∧
      Unchanged [.pc] [] [] s { t with rs := s.rs, host := s.host, ir := s.ir, ops := s.ops, ia := s.ia }

/-- A step on HALTED or FAULTED changes nothing (10_state.md R51). -/
def Obligations.StoppedMachineStaysAsItIs : Prop :=
  ∀ s : State, s.rs ≠ .running → step s = .next s

/-- A refused fetch (60_exceptions.md R194, R195). Of the opcode word: AddressFault with the fetch address and the
previous IA; PC and the latches keep their values. Of an operand word: the first one that is refused is reported, IA
is the opcode word's address, and PC stays at the refused word. -/
def Obligations.RefusedFetchFaults : Prop :=
  (∀ s : State, Ready s → s.admits [sint (s.reg .pc)] = false →
     ∃ t, step s = .next t ∧ FaultTaken (.addressFault (sint (s.reg .pc)) s.ia) [] [] s t ∧
       t.cap = s.cap ∧ t.events = s.events) ∧
  (∀ (s : State) (r : InstrRecord) (j : Nat), Ready s → j < r.operandCount →
     s.admits (codeAddrs s j) → lookup s.params.opcodes (s.cell (sint (s.reg .pc))) = some r →
     s.admits (codeAddrs s (j + 1)) = false →
     ∃ t, step s = .next t ∧ t.reg .pc = word (sint (s.reg .pc) + 1 + j) ∧ t.ir = some r ∧ t.ia = sint (s.reg .pc) ∧
       t.ops = (codeAddrs s j).tail.map s.cell ∧ t.cap = s.capAfter (codeAddrs s j) ∧
       t.events = s.events ++ ((List.range (j + 1)).map fun (m : Nat) =>
         .reg .pc (word (sint (s.reg .pc) + m)) (word (sint (s.reg .pc) + m + 1))) ∧
       FaultTaken (.addressFault (addr (sint (s.reg .pc) + 1 + j)) (sint (s.reg .pc))) [.pc] [] s
         { t with ir := s.ir, ops := s.ops, ia := s.ia })

/-- A prompt without an answer (45_trap.md R182), in the form the model chose for it (log 4): the step waits, having
done nothing after the fetch, and goes on waiting; once the host answers, the same prompt goes on as TRAP itself
would. -/
def Obligations.PromptWaitsForTheHost : Prop :=
  ∀ (s : State) (t : Word), s.rs = .running →
    (trapOf s.params.traps t = some .inInt →
      (s.host.intAnswers = [] → exec (.trap t) s = .next { s with waiting := some .int } ∧
        (s.waiting = some .int → step s = .next s)) ∧
      (s.waiting = some .int → step s = exec (.trap t) s)) ∧
    (trapOf s.params.traps t = some .inChar →
      (s.host.charAnswers = [] → exec (.trap t) s = .next { s with waiting := some .char } ∧
        (s.waiting = some .char → step s = .next s)) ∧
      (s.waiting = some .char → step s = exec (.trap t) s)) ∧
    (trapOf s.params.traps t = some .inCharArray →
      (s.host.textAnswers = [] → exec (.trap t) s = .next { s with waiting := some .charArray } ∧
        (s.waiting = some .charArray → step s = .next s)) ∧
      (s.waiting = some .charArray → step s = exec (.trap t) s))

/-! ### Memory (20_memory.md) and faults (60_exceptions.md) -/

/-- A write and the reads after it (R56, R59, R65, R68): the word is there, every other cell is as before, one event, at
which a listener sees the state after the write (70_reset_and_hazards.md R224).
A read (R56, R57): it returns the cell's word and changes nothing but the capacity, which grows by GROW_INC where the
address lies in the window above it; the word there is 0, and a second read grows nothing, as R62 infers from R57. That the
listener's view is taken right after the write, and what it holds, is log 11. -/
def Obligations.ReadAndWriteOneCell : Prop :=
  (∀ (s : State) (a : Int) (v : Word), s.admits [a] →
     ∃ t, memWrite a v s = .done () t ∧ memRead a t = .done v t ∧ t.cell a = v ∧
       Unchanged [] [a] [] s t ∧ t.cap = s.capAfter [a] ∧ t.events = s.events ++ [memEvent s a] ∧
       t.views = s.views ++ s.heard [t.view]) ∧
  (∀ (s : State) (a : Int), s.admits [a] →
     ∃ t, memRead a s = .done (s.cell a) t ∧ memRead a t = .done (s.cell a) t ∧
       Unchanged [] [] [] s t ∧ t.events = s.events ∧ t.views = s.views ∧
       (a < s.cap → t = s) ∧ (s.cap ≤ a → t.cap = s.cap + s.params.growInc ∧ s.cell a = 0))

/-- AddressFault (R55, R58, 60_exceptions.md R195): an access below 0 or at `cap + GROW_INC` and above is refused. -/
def Obligations.RefusedAccessFaults : Prop :=
  ∀ (s : State) (a : Int) (v : Word), a < 0 ∨ (s.cap : Int) + s.params.growInc ≤ a →
    ∃ t, memRead a s = .stopped t ∧ memWrite a v s = .stopped t ∧
      FaultTaken (.addressFault a s.ia) [] [] s t ∧ t.cap = s.cap ∧ t.events = s.events

/-- Every instruction that starts by reading the top stack word faults at once where that access is refused, after its
own checks (60_exceptions.md R202). -/
def Obligations.RefusedTopFaultsAtOnce : Prop :=
  ∀ (s : State) (k n : Word) (x : Reg), s.admits [topAddr s] = false → 0 ≤ sint n →
    (∀ i ∈ ([.add, .sub, .mul, .div, .mod, .and, .or, .xor, .lsl, .lsr, .rol, .ror, .eq, .ne, .lt, .gt, .le, .ge, .cmp,
        .neg, .not, .brf k, .brt k, .beq k, .bne k, .blt k, .bgt k, .ble k, .bge k, .jsr, .ret, .sts k, .stl k, .lda k,
        .ldma k n, .sta k, .stma k n, .ldaa k, .str (regWord x), .swp, .swpr (regWord x), .sth,
        .ldh k, .ldmh k n] : List Instr),
      FaultsAtOnce i s (.addressFault (topAddr s) s.ia)) ∧
    ∀ t : Word, trapOf s.params.traps t ∈ [some TrapOp.prInt, some .prChar, some .fileOpenRead, some .fileOpenWrite,
        some .fileRead, some .fileWrite, some .fileClose] →
      FaultsAtOnce (.trap t) s (.addressFault (topAddr s) s.ia)

/-- A later access that is refused leaves the effects before it (60_exceptions.md R196): a push has moved SP; the second pop
of a BINOP, of STA or of FILE_WRITE, the second read of SWP, the read or write behind the pops of LDA, LDH, STS, STL, STA
and STH, the source read and the push of LDS and LDL, and the pop of UNLINK. -/
def Obligations.RefusedAccessLeavesPartialEffects : Prop :=
  ∀ (s : State) (k : Word) (x : Reg),
    let pop1 := regEvent s .sp (disp s .sp (-1))
    let pop2 : ChangeEvent := .reg .sp (disp s .sp (-1)) (disp s .sp (-2))
    let src := addr (sint (s.cell (topAddr s)) + sint k * s.dir)
    (∀ i ∈ ([.ldc k, .ldsa k, .ldla k, .ldr (regWord x), .bsr k, .link k] : List Instr),
      StopsAfter i s [] (fromTop s 1) (disp s .sp 1) [regEvent s .sp (disp s .sp 1)]) ∧
    (∀ i ∈ ([.add, .sub, .mul, .div, .mod, .and, .or, .xor, .lsl, .lsr, .rol, .ror, .eq, .ne, .lt, .gt, .le, .ge, .cmp,
        .sta k] : List Instr),
      StopsAfter i s [topAddr s] (fromTop s (-1)) (disp s .sp (-1)) [pop1]) ∧
    StopsAfter .swp s [topAddr s] (fromTop s (-1)) (s.reg .sp) [] ∧
    StopsAfter (.lda k) s [topAddr s] src (disp s .sp (-1)) [pop1] ∧
    StopsAfter (.ldh k) s [topAddr s] (addr (sint (s.cell (topAddr s)) + sint k)) (disp s .sp (-1)) [pop1] ∧
    StopsAfter (.sts k) s [topAddr s] (sint (disp s .sp (sint k))) (disp s .sp (-1)) [pop1] ∧
    StopsAfter (.stl k) s [topAddr s] (sint (disp s .mp (sint k))) (disp s .sp (-1)) [pop1] ∧
    StopsAfter (.sta k) s [topAddr s, fromTop s (-1)] src (disp s .sp (-2)) [pop1, pop2] ∧
    StopsAfter .sth s [topAddr s] (sint (s.reg .hp)) (disp s .sp (-1)) [pop1] ∧
    (∀ p ∈ [(Instr.lds k, sint (disp s .sp (sint k))), (.ldl k, sint (disp s .mp (sint k)))],
      StopsAfter p.1 s [] p.2 (s.reg .sp) [] ∧
      StopsAfter p.1 s [p.2] (fromTop s 1) (disp s .sp 1) [regEvent s .sp (disp s .sp 1)]) ∧
    StopsAfter .unlink s [] (sint (s.reg .mp)) (s.reg .mp) [regEvent s .sp (s.reg .mp)] ∧
    ∀ t : Word, trapOf s.params.traps t = some .fileWrite →
      StopsAfter (.trap t) s [topAddr s] (fromTop s (-1)) (disp s .sp (-1)) [pop1]

/-- InvalidRegister (10_state.md R27): the first operand that names no register is reported. InvalidCount
(42_load_store.md R140, 44_heap.md R170). Both before any access or register write (60_exceptions.md R202). -/
def Obligations.BadOperandsFaultAtOnce : Prop :=
  (∀ (s : State) (r q : Word), nreg ≤ uint r →
     FaultsAtOnce (.ldr r) s (.invalidRegister (uint r) s.ia) ∧
     FaultsAtOnce (.str r) s (.invalidRegister (uint r) s.ia) ∧
     FaultsAtOnce (.swpr r) s (.invalidRegister (uint r) s.ia) ∧
     FaultsAtOnce (.ldrr r q) s (.invalidRegister (uint r) s.ia) ∧
     FaultsAtOnce (.swprr r q) s (.invalidRegister (uint r) s.ia) ∧
     ∀ x : Reg, FaultsAtOnce (.ldrr (regWord x) r) s (.invalidRegister (uint r) s.ia) ∧
       FaultsAtOnce (.swprr (regWord x) r) s (.invalidRegister (uint r) s.ia)) ∧
  (∀ (s : State) (k n : Word),
     (sint n < 0 → ∀ i ∈ ([.ldms k n, .ldml k n, .ldma k n, .ldmh k n, .stms k n, .stml k n, .stma k n] : List Instr),
       FaultsAtOnce i s (.invalidCount (sint n) s.ia)) ∧
     (sint n < 1 → FaultsAtOnce (.stmh n) s (.invalidCount (sint n) s.ia)))

/-! ### The ALU (40_alu.md) -/

/-- ADD, SUB and MUL wrap modulo 2^32 (R95, R96, R97). -/
def Obligations.AddSubMulWrap : Prop :=
  BinopIs .add (fun l r => word (sint l + sint r)) ∧ BinopIs .sub (fun l r => word (sint l - sint r)) ∧
    BinopIs .mul (fun l r => word (sint l * sint r))

/-- DIV rounds toward zero and MOD takes the sign of the dividend, for a divisor that is not 0 (R98, R99). For a
divisor of 0 DivideByZero is raised after both pops, which stand (60_exceptions.md R196). -/
def Obligations.DivModDivideOrFault : Prop :=
  (Binop .div (fun r => sint r ≠ 0) (fun _ l r v => v = word ((sint l).tdiv (sint r))) ∧
     Binop .mod (fun r => sint r ≠ 0) (fun _ l r v => v = word ((sint l).tmod (sint r)))) ∧
  (∀ (s : State) (i : Instr), i = .div ∨ i = .mod → s.admits [topAddr s, fromTop s (-1)] → s.cell (topAddr s) = 0 →
     ∃ t, exec i s = .next t ∧ FaultTaken (.divideByZero s.ia) [.sp] [] s t ∧ t.reg .sp = disp s .sp (-2) ∧
       t.cap = s.capAfter [topAddr s, fromTop s (-1)] ∧
       t.events = s.events ++ [regEvent s .sp (disp s .sp (-1)), .reg .sp (disp s .sp (-1)) (disp s .sp (-2))])

/-- The law that R99 infers: `ADD(MUL(DIV(l, r), r), MOD(l, r)) = l` for every r other than 0. -/
def Obligations.DivModReconstructTheDividend : Prop :=
  ∀ l r : Word, sint r ≠ 0 → ∃ q m, aluDiv l r = some q ∧ aluMod l r = some m ∧ aluAdd (aluMul q r) m = l

/-- AND, OR and XOR work bit by bit over all 32 bits (R100, R101, R102). -/
def Obligations.LogicIsBitwise : Prop :=
  Binop .and (fun _ => True) (fun _ l r v => ∀ j, v.getLsbD j = (l.getLsbD j && r.getLsbD j)) ∧
    Binop .or (fun _ => True) (fun _ l r v => ∀ j, v.getLsbD j = (l.getLsbD j || r.getLsbD j)) ∧
    Binop .xor (fun _ => True) (fun _ l r v => ∀ j, v.getLsbD j = (l.getLsbD j ^^ r.getLsbD j))

/-- LSL and LSR shift by the amount modulo 32, zeros filling (R103, R104, R105). ROL and ROR rotate by it: bit i of the
result is bit (i - s) mod 32, or (i + s) mod 32, of l (R106, R107). -/
def Obligations.ShiftsAndRotatesModulo32 : Prop :=
  (BinopIs .lsl (fun l r => word (uint l * 2 ^ (uint r % 32))) ∧ BinopIs .lsr (fun l r => word (uint l / 2 ^ (uint r % 32)))) ∧
  (Binop .rol (fun _ => True)
       (fun _ l r v => ∀ j < 32, v.getLsbD j = l.getLsbD (((j : Int) - uint r % 32) % 32).toNat) ∧
     Binop .ror (fun _ => True)
       (fun _ l r v => ∀ j < 32, v.getLsbD j = l.getLsbD ((j + uint r % 32) % 32)))

/-- The six comparisons push CONST_TRUE where their relation holds and CONST_FALSE otherwise; the order relations are
signed (R108 to R114). The values of the two are those of the configuration (00_scope.md R9). -/
def Obligations.ComparisonsPushSentinels : Prop :=
  let pushes := fun (i : Instr) (holds : Word → Word → Bool) =>
    Binop i (fun _ => True) fun s l r v => v = if holds l r then s.params.constTrue else s.params.constFalse
  pushes .eq (fun l r => l = r) ∧ pushes .ne (fun l r => l ≠ r) ∧ pushes .lt (fun l r => sint l < sint r) ∧
    pushes .gt (fun l r => sint l > sint r) ∧ pushes .le (fun l r => sint l ≤ sint r) ∧
    pushes .ge (fun l r => sint l ≥ sint r)

/-- CMP pushes 1, 2 or 4: exactly one of the bits LT, EQ, GT (R115, R116). -/
def Obligations.CmpPushesOneConditionBit : Prop :=
  BinopIs .cmp (fun l r => if sint l < sint r then 1 else if l = r then 2 else 4)

/-- NEG and NOT replace the top word (R117, R118, R119). -/
def Obligations.NegNotReplaceTheTop : Prop :=
  RewritesTop .neg (fun _ v => word (-(sint v))) ∧ RewritesTop .not (fun _ v => ~~~v)

/-! ### Control transfer (41_control.md) -/

/-- BRA jumps to `next + k` and does nothing else (R121, R122); ADJS moves SP by `k` words in the direction of growth
and touches no memory cell (42_load_store.md R157). -/
def Obligations.BraAndAdjsWriteOneRegister : Prop :=
  (∀ (s : State) (k : Word), ∃ t, exec (.bra k) s = .next t ∧ t.reg .pc = word (sint (s.reg .pc) + sint k) ∧
     Unchanged [.pc] [] [] s t ∧ t.cap = s.cap ∧
     t.events = s.events ++ [regEvent s .pc (word (sint (s.reg .pc) + sint k))]) ∧
  (∀ (s : State) (k : Word), ∃ t, exec (.adjs k) s = .next t ∧ t.reg .sp = word (sint (s.reg .sp) + sint k * s.dir) ∧
     Unchanged [.sp] [] [] s t ∧ t.cap = s.cap ∧
     t.events = s.events ++ [regEvent s .sp (word (sint (s.reg .sp) + sint k * s.dir))])

/-- BRF branches on CONST_FALSE only, BRT on every other word (R123, R124). The BRCC family pops a condition word and
branches iff it shares a set bit with the mask (R128 to R134). -/
def Obligations.ConditionalBranchesPopAndBranch : Prop :=
  (∀ k : Word, BranchesOn (.brf k) k (fun s w => w == s.params.constFalse) ∧
     BranchesOn (.brt k) k (fun s w => w != s.params.constFalse)) ∧
  (∀ k : Word, BranchesOn (.beq k) k (fun _ w => w &&& 0b010 != 0) ∧ BranchesOn (.bne k) k (fun _ w => w &&& 0b101 != 0) ∧
     BranchesOn (.blt k) k (fun _ w => w &&& 0b001 != 0) ∧ BranchesOn (.bgt k) k (fun _ w => w &&& 0b100 != 0) ∧
     BranchesOn (.ble k) k (fun _ w => w &&& 0b011 != 0) ∧ BranchesOn (.bge k) k (fun _ w => w &&& 0b110 != 0))

/-- After CMP of `l`, `r`, each BRCC branches exactly on its relation, as R129 to R134 infer from R116. -/
def Obligations.CmpThenBrccBranchesOnTheRelation : Prop :=
  ∀ (s : State) (k : Word), s.admits [topAddr s, fromTop s (-1), fromTop s (-1)] →
    let l := s.cell (fromTop s (-1))
    let r := s.cell (topAddr s)
    ∃ t, exec .cmp s = .next t ∧
      ∀ p ∈ ([(.beq k, decide (l = r)), (.bne k, decide (l ≠ r)), (.blt k, decide (sint l < sint r)),
          (.bgt k, decide (sint l > sint r)), (.ble k, decide (sint l ≤ sint r)),
          (.bge k, decide (sint l ≥ sint r))] : List (Instr × Bool)),
        ∃ u, exec p.1 t = .next u ∧ u.reg .sp = disp s .sp (-2) ∧
          u.reg .pc = if p.2 then word (sint (s.reg .pc) + sint k) else s.reg .pc

/-- BSR pushes `next` and jumps to `next + k` (R125). -/
def Obligations.BsrPushesNextAndJumps : Prop :=
  ∀ (s : State) (k : Word), s.admits [fromTop s 1] →
    ∃ t, exec (.bsr k) s = .next t ∧ t.reg .pc = word (sint (s.reg .pc) + sint k) ∧ t.reg .sp = disp s .sp 1 ∧
      t.cell (fromTop s 1) = s.reg .pc ∧ Unchanged [.sp, .pc] [fromTop s 1] [] s t ∧ t.cap = s.capAfter [fromTop s 1] ∧
      t.events = s.events ++ [regEvent s .sp (disp s .sp 1), memEvent s (fromTop s 1),
        regEvent s .pc (word (sint (s.reg .pc) + sint k))]

/-- JSR jumps to the popped address and leaves `next` in its cell (R126); RET jumps to the popped address (R127). -/
def Obligations.JsrAndRetJumpToThePoppedAddress : Prop :=
  (∀ s : State, s.admits [topAddr s, topAddr s] →
    ∃ t, exec .jsr s = .next t ∧ t.reg .pc = s.cell (topAddr s) ∧ t.cell (topAddr s) = s.reg .pc ∧
      Unchanged [.pc] [topAddr s] [] s t ∧ t.cap = s.capAfter [topAddr s, topAddr s] ∧
      t.events = s.events ++ [regEvent s .sp (disp s .sp (-1)), .reg .sp (disp s .sp (-1)) (s.reg .sp),
        memEvent s (topAddr s), regEvent s .pc (s.cell (topAddr s))]) ∧
  ∀ s : State, s.admits [topAddr s] →
    ∃ t, exec .ret s = .next t ∧ t.reg .pc = s.cell (topAddr s) ∧ t.reg .sp = disp s .sp (-1) ∧
      Unchanged [.sp, .pc] [] [] s t ∧ t.cap = s.capAfter [topAddr s] ∧
      t.events = s.events ++ [regEvent s .sp (disp s .sp (-1)), regEvent s .pc (s.cell (topAddr s))]

/-- The law that R125 infers: after BSR, a RET from any state that has SP back where BSR left it and the return
address still in its cell goes on at the instruction after the BSR, with SP as before the BSR. -/
def Obligations.RetReturnsBehindTheBsr : Prop :=
  ∀ (s t u : State) (k : Word), s.admits [fromTop s 1] → exec (.bsr k) s = .next t →
    u.params = t.params → u.reg .sp = t.reg .sp → u.cell (topAddr t) = t.cell (topAddr t) → u.admits [topAddr u] →
    ∃ w, exec .ret u = .next w ∧ w.reg .pc = s.reg .pc ∧ w.reg .sp = s.reg .sp

/-- NOP changes nothing (R135); HALT sets HALTED and sends the one diagnostic "machine halted" (R136). -/
def Obligations.NopAndHalt : Prop :=
  (∀ s : State, exec .nop s = .next s) ∧ Diag.halted.text = some "machine halted" ∧
    ∀ s : State, ∃ t, exec .halt s = .next t ∧ t.rs = .halted ∧ Diagnosed .halted [] s { t with rs := s.rs } ∧
      t.cap = s.cap ∧ t.events = s.events

/-! ### Loads, stores, address forms (42_load_store.md) -/

/-- LDC pushes its operand (R141); LDSA and LDLA push the displaced address of SP and MP, SP read before the push (R155,
R156); LDS and LDL push the word at those addresses (R142, R146). -/
def Obligations.ConstantAndCellLoadsPush : Prop :=
  (∀ k : Word, PushesWord (.ldc k) (fun _ => k) ∧
     PushesWord (.ldsa k) (fun s => word (sint (s.reg .sp) + sint k * s.dir)) ∧
     PushesWord (.ldla k) (fun s => word (sint (s.reg .mp) + sint k * s.dir))) ∧
  (∀ k : Word, PushesCell (.lds k) (fun s => addr (sint (s.reg .sp) + sint k * s.dir)) ∧
     PushesCell (.ldl k) (fun s => addr (sint (s.reg .mp) + sint k * s.dir)))

/-- STS and STL pop into the displaced address of SP, before the pop, and of MP (R144, R148). STA pops the address,
then the value, and stores it at the displaced address (R152). -/
def Obligations.SingleWordStoresPopIntoTheCell : Prop :=
  (∀ k : Word, PopsInto (.sts k) (fun s => addr (sint (s.reg .sp) + sint k * s.dir)) ∧
     PopsInto (.stl k) (fun s => addr (sint (s.reg .mp) + sint k * s.dir))) ∧
  (∀ (s : State) (k : Word),
     let dst := addr (sint (s.cell (topAddr s)) + sint k * s.dir)
     s.admits [topAddr s, fromTop s (-1), dst] →
     ∃ t, exec (.sta k) s = .next t ∧ t.reg .sp = disp s .sp (-2) ∧ t.cell dst = s.cell (fromTop s (-1)) ∧
       Unchanged [.sp] [dst] [] s t ∧ t.cap = s.capAfter [topAddr s, fromTop s (-1), dst] ∧
       t.events = s.events ++ [regEvent s .sp (disp s .sp (-1)), .reg .sp (disp s .sp (-1)) (disp s .sp (-2)),
         memEvent s dst])

/-- LDA loads through the popped address, displaced in units of DIR (R150), LDH in plain words (44_heap.md R171). LDAA
replaces the popped address by its displaced address and reads no memory there (R154). -/
def Obligations.LoadsThroughTheTopReplaceIt : Prop :=
  (∀ k : Word, LoadsThroughTop (.lda k) (fun s a => addr (sint a + sint k * s.dir)) ∧
     LoadsThroughTop (.ldh k) (fun _ a => addr (sint a + sint k))) ∧
  (∀ k : Word, RewritesTop (.ldaa k) (fun s a => word (sint a + sint k * s.dir)))

/-- LDMS and LDML copy a block onto the stack (R139, R143, R147), LDMA copies one from a popped address (R151), and LDMH
copies ascending heap words (44_heap.md R172). Where an access is refused, the effects before it stand (60_exceptions.md
R196): a read leaves no word written and SP as before, a write leaves SP moved and the words before it written. -/
def Obligations.BlockLoadsCopyOntoTheStack : Prop :=
  (∀ k n : Word, LoadsBlock (.ldms k n) false (fun s => sint (disp s .sp (sint k))) State.dir n ∧
     LoadsBlock (.ldml k n) false (fun s => sint (disp s .mp (sint k))) State.dir n) ∧
  (∀ k n : Word,
     LoadsBlock (.ldma k n) true (fun s => sint (s.cell (topAddr s)) + sint k * s.dir) State.dir n ∧
     LoadsBlock (.ldmh k n) true (fun s => sint (s.cell (topAddr s)) + sint k) (fun _ => 1) n) ∧
  ∀ k n : Word, ∀ p ∈ ([(.ldms k n, false, fun s => sint (disp s .sp (sint k)), State.dir),
      (.ldml k n, false, fun s => sint (disp s .mp (sint k)), State.dir),
      (.ldma k n, true, fun s => sint (s.cell (topAddr s)) + sint k * s.dir, State.dir),
      (.ldmh k n, true, fun s => sint (s.cell (topAddr s)) + sint k, fun _ => 1)] :
      List (Instr × Bool × (State → Int) × (State → Int))),
    BlockReadStops p.1 p.2.1 p.2.2.1 p.2.2.2 n ∧
    BlockWriteStops p.1 p.2.1 p.2.2.1 p.2.2.2 (fun s => sint (spAfterPop p.2.1 s) + s.dir) State.dir
      (fun s => word (sint (spAfterPop p.2.1 s) + sint n * s.dir)) n

/-- STMS, STML and STMA move the top words to a block (R139, R145, R149, R153). Where an access is refused, the effects
before it stand (60_exceptions.md R196): a read leaves no word written and SP as before, a write leaves SP moved and the
words before it written. -/
def Obligations.StmsStmlStmaMoveABlock : Prop :=
  ∀ k n : Word, StoresBlock (.stms k n) false (fun s => sint (disp s .sp (sint k))) n ∧
    StoresBlock (.stml k n) false (fun s => sint (disp s .mp (sint k))) n ∧
    StoresBlock (.stma k n) true (fun s => sint (s.cell (topAddr s)) + sint k * s.dir) n ∧
    ∀ p ∈ ([(.stms k n, false, fun s => sint (disp s .sp (sint k))),
        (.stml k n, false, fun s => sint (disp s .mp (sint k))),
        (.stma k n, true, fun s => sint (s.cell (topAddr s)) + sint k * s.dir)] : List (Instr × Bool × (State → Int))),
      BlockReadStops p.1 p.2.1 (fun s => sint (spAfterPop p.2.1 s) - (sint n - 1) * s.dir) State.dir n ∧
      BlockWriteStops p.1 p.2.1 (fun s => sint (spAfterPop p.2.1 s) - (sint n - 1) * s.dir) State.dir p.2.2 State.dir
        (fun s => word (sint (spAfterPop p.2.1 s) - sint n * s.dir)) n

/-! ### Registers and frames (43_register_frame.md) -/

/-- LDR pushes the register as it was before the push (R159), LDRR copies (R160), SWPRR exchanges (R164); for every pair
of registers, PC and SP among them. -/
def Obligations.LdrLdrrSwprrMoveRegisters : Prop :=
  (∀ x : Reg, PushesWord (.ldr (regWord x)) (fun s => s.reg x)) ∧
  ∀ (s : State) (x y : Reg),
    (∃ t, exec (.ldrr (regWord x) (regWord y)) s = .next t ∧ t.reg x = s.reg y ∧
      Unchanged [x] [] [] s t ∧ t.cap = s.cap ∧ t.events = s.events ++ [regEvent s x (s.reg y)]) ∧
    ∃ t, exec (.swprr (regWord x) (regWord y)) s = .next t ∧ t.reg x = s.reg y ∧
      t.reg y = s.reg x ∧ Unchanged [x, y] [] [] s t ∧ t.cap = s.cap ∧
      t.events = s.events ++ [regEvent s x (s.reg y), regEvent s y (s.reg x)]

/-- STR pops into a register, SP among them (R161); SWPR exchanges the top word and a register (R163). -/
def Obligations.StrSwprMoveTheTopWord : Prop :=
  ∀ (s : State) (x : Reg),
    (s.admits [topAddr s] →
      ∃ t, exec (.str (regWord x)) s = .next t ∧ t.reg x = s.cell (topAddr s) ∧
        (x ≠ .sp → t.reg .sp = disp s .sp (-1)) ∧ Unchanged [.sp, x] [] [] s t ∧ t.cap = s.capAfter [topAddr s] ∧
        t.events = s.events ++ [regEvent s .sp (disp s .sp (-1)),
          .reg x (if x = .sp then disp s .sp (-1) else s.reg x) (s.cell (topAddr s))]) ∧
    (s.admits [topAddr s, topAddr s] →
      ∃ t, exec (.swpr (regWord x)) s = .next t ∧ t.reg x = s.cell (topAddr s) ∧
        t.cell (topAddr s) = s.reg x ∧ Unchanged [x] [topAddr s] [] s t ∧
        t.cap = s.capAfter [topAddr s, topAddr s] ∧
        t.events = s.events ++ [memEvent s (topAddr s), regEvent s x (s.cell (topAddr s))])

/-- SWP exchanges the two top words in place (R162), and twice restores them. -/
def Obligations.SwpExchangesTheTopWords : Prop :=
  ∀ s : State, s.admits [topAddr s, fromTop s (-1), topAddr s, fromTop s (-1)] →
    ∃ t, exec .swp s = .next t ∧ t.cell (topAddr s) = s.cell (fromTop s (-1)) ∧
      t.cell (fromTop s (-1)) = s.cell (topAddr s) ∧ Unchanged [] [topAddr s, fromTop s (-1)] [] s t ∧
      t.cap = s.capAfter [topAddr s, fromTop s (-1), topAddr s, fromTop s (-1)] ∧
      t.events = s.events ++ [memEvent s (topAddr s), memEvent s (fromTop s (-1))] ∧
      ∃ u, exec .swp t = .next u ∧ ∀ a, u.cell a = s.cell a

/-- LINK saves MP, points MP at it and reserves `n` words, for every `n` (R165). UNLINK drops the frame that MP points
at (R166). -/
def Obligations.LinkBuildsAndUnlinkDropsAFrame : Prop :=
  (∀ (s : State) (n : Word), s.admits [fromTop s 1] →
     ∃ t, exec (.link n) s = .next t ∧ t.cell (fromTop s 1) = s.reg .mp ∧ t.reg .mp = disp s .sp 1 ∧
       t.reg .sp = word (sint (disp s .sp 1) + sint n * s.dir) ∧ Unchanged [.sp, .mp] [fromTop s 1] [] s t ∧
       t.cap = s.capAfter [fromTop s 1] ∧
       t.events = s.events ++ [regEvent s .sp (disp s .sp 1), memEvent s (fromTop s 1), regEvent s .mp (disp s .sp 1),
         .reg .sp (disp s .sp 1) (word (sint (disp s .sp 1) + sint n * s.dir))]) ∧
  (∀ s : State, s.admits [sint (s.reg .mp)] →
     ∃ t, exec .unlink s = .next t ∧ t.reg .mp = s.cell (sint (s.reg .mp)) ∧ t.reg .sp = disp s .mp (-1) ∧
       Unchanged [.sp, .mp] [] [] s t ∧ t.cap = s.capAfter [sint (s.reg .mp)] ∧
       t.events = s.events ++ [regEvent s .sp (s.reg .mp), .reg .sp (s.reg .mp) (disp s .mp (-1)),
         regEvent s .mp (s.cell (sint (s.reg .mp)))])

/-- The law of R167: LINK n then UNLINK leaves SP and MP as they were, for every n, and LINK's one word stays written.
-/
def Obligations.LinkThenUnlinkRestores : Prop :=
  ∀ (s : State) (n : Word), s.admits [fromTop s 1] →
    ∃ t u, exec (.link n) s = .next t ∧ exec .unlink t = .next u ∧ u.cell (fromTop s 1) = s.reg .mp ∧
      Unchanged [] [fromTop s 1] [] s u

/-! ### The heap (44_heap.md) -/

/-- STH moves the top word to the cell at HP, advances HP by one, and leaves the cell's address on the stack (R169). -/
def Obligations.SthAllocatesOneWord : Prop :=
  ∀ s : State,
    let h := sint (s.reg .hp)
    s.admits [topAddr s, h, topAddr s] →
    ∃ t, exec .sth s = .next t ∧ t.reg .hp = word (h + 1) ∧ t.cell (topAddr s) = s.reg .hp ∧
      (h ≠ topAddr s → t.cell h = s.cell (topAddr s)) ∧ Unchanged [.hp] [h, topAddr s] [h] s t ∧
      t.cap = s.capAfter [topAddr s, h, topAddr s] ∧
      t.events = s.events ++ [regEvent s .sp (disp s .sp (-1)), memEvent s h, regEvent s .hp (word (h + 1)),
        .reg .sp (disp s .sp (-1)) (s.reg .sp), .mem (topAddr s).toNat (s.cell (topAddr s))]

/-- STMH moves the top `n` words to the cells from HP up, advances HP by `n`, and pushes the block's last address in the
place of the deepest word (R170). Where an access is refused, the effects before it stand (60_exceptions.md R196): a read
leaves no word written and SP as before, a write leaves SP moved, the words before it written, and HP as before. -/
def Obligations.StmhAllocatesABlock : Prop :=
  (∀ (s : State) (n : Word), 1 ≤ sint n →
    let h := sint (s.reg .hp)
    let s0 := topAddr s
    let src := blockAddrs (s0 - (sint n - 1) * s.dir) s.dir (sint n).toNat
    let dst := blockAddrs h 1 (sint n).toNat
    let p := addr (s0 - (sint n - 1) * s.dir)
    s.admits (src ++ dst ++ [p]) →
    ∃ t, exec (.stmh n) s = .next t ∧ t.reg .hp = word (h + sint n) ∧ sint (t.reg .sp) = p ∧
      t.cell p = word (h + sint n - 1) ∧
      (∀ j, (hj : j < (sint n).toNat) → addr (h + j) ≠ p →
        t.cell (addr (h + j)) = s.cell (addr (s0 - (sint n - 1 - j) * s.dir))) ∧
      Unchanged [.sp, .hp] (p :: dst) dst s t ∧ t.cap = s.capAfter (src ++ dst ++ [p]) ∧
      ∃ evs, t.events = s.events ++ evs ∧ evs.length = (sint n).toNat + 4) ∧
  ∀ n : Word, BlockReadStops (.stmh n) false (fun s => topAddr s - (sint n - 1) * s.dir) State.dir n ∧
    BlockWriteStops (.stmh n) false (fun s => topAddr s - (sint n - 1) * s.dir) State.dir
      (fun s => sint (s.reg .hp)) (fun _ => 1) (fun s => word (topAddr s - sint n * s.dir)) n

/-- STMH then LDMH on the address it pushed gives the `n` stack words back, as R172 infers, where block and stack lie
apart. -/
def Obligations.LdmhRebuildsWhatStmhStored : Prop :=
  ∀ (s : State) (n : Word), 1 ≤ sint n →
    let h := sint (s.reg .hp)
    let src := blockAddrs (topAddr s - (sint n - 1) * s.dir) s.dir (sint n).toNat
    let dst := blockAddrs h 1 (sint n).toNat
    (∀ a ∈ src, 0 ≤ a ∧ a < s.cap) → (∀ a ∈ dst, 0 ≤ a ∧ a < s.cap ∧ a ∉ src) →
    ∃ t u, exec (.stmh n) s = .next t ∧ exec (.ldmh (word (1 - sint n)) n) t = .next u ∧ u.reg .sp = s.reg .sp ∧
      (∀ a ∈ src, u.cell a = s.cell a) ∧ u.reg .hp = word (h + sint n)

/-! ### TRAP (45_trap.md) -/

/-- PR_INT and PR_CHAR pop a word and send one console event (R176, R177, R178). -/
def Obligations.PrintTrapsSendOneEvent : Prop :=
  ∀ (s : State) (t : Word), s.admits [topAddr s] →
    ∀ p ∈ [(TrapOp.prInt, ConsoleEvent.outInt (s.cell (topAddr s))), (.prChar, .outChar (s.cell (topAddr s)))],
      trapOf s.params.traps t = some p.1 →
      ∃ u, exec (.trap t) s = .next u ∧ u.reg .sp = disp s .sp (-1) ∧
        u.host = { s.host with console := s.host.console ++ [p.2] } ∧
        Unchanged [.sp] [] [] s { u with host := s.host } ∧ u.cap = s.capAfter [topAddr s] ∧
        u.events = s.events ++ popsEvents s 1

/-- IN_INT and IN_CHAR push the host's answer (R179, R180), which the model takes from a queue (log 3). Where the push is
refused, the answer is taken and SP has moved (60_exceptions.md R196). -/
def Obligations.PromptTrapsPushTheAnswer : Prop :=
  ∀ (s : State) (t v : Word) (rest : List Word),
    ∀ p ∈ [(TrapOp.inInt, s.host.intAnswers, { s.host with intAnswers := rest }),
        (.inChar, s.host.charAnswers, { s.host with charAnswers := rest })],
      trapOf s.params.traps t = some p.1 → p.2.1 = v :: rest →
      (s.admits [fromTop s 1] →
        ∃ u, exec (.trap t) s = .next u ∧ u.reg .sp = disp s .sp 1 ∧ u.cell (fromTop s 1) = v ∧
          u.host = p.2.2 ∧ u.waiting = none ∧
          Unchanged [.sp] [fromTop s 1] [] s { u with host := s.host, waiting := s.waiting } ∧
          u.cap = s.capAfter [fromTop s 1] ∧ u.events = s.events ++ pushEvents s 0) ∧
      (s.admits [fromTop s 1] = false →
        ∃ u, exec (.trap t) s = .next u ∧ u.reg .sp = disp s .sp 1 ∧
          FaultTaken (.addressFault (fromTop s 1) s.ia) [.sp] [] { s with host := p.2.2, waiting := none } u ∧
          u.cap = s.cap ∧ u.events = s.events ++ [regEvent s .sp (disp s .sp 1)])

/-- IN_CHAR_ARRAY pushes 0, then the codes in reverse, so that the first ends on top (R181), with the two events of each
push; the answer comes from a queue (log 3). -/
def Obligations.CharArrayPromptPushesTheString : Prop :=
  ∀ (s : State) (t : Word) (cs : List Word) (rest : List (List Word)), trapOf s.params.traps t = some .inCharArray →
    s.host.textAnswers = cs :: rest → cs.length < 2 ^ 31 →
    let dst := blockAddrs (sint (s.reg .sp) + s.dir) s.dir (cs.length + 1)
    s.admits dst →
    ∃ u, exec (.trap t) s = .next u ∧ u.reg .sp = disp s .sp (cs.length + 1) ∧ u.cell (fromTop s 1) = 0 ∧
      (∀ j, (h : j < cs.length) → u.cell (fromTop u (-(j : Int))) = cs[j]) ∧
      u.host = { s.host with textAnswers := rest } ∧ u.waiting = none ∧
      Unchanged [.sp] dst [] s { u with host := s.host, waiting := s.waiting } ∧ u.cap = s.capAfter dst ∧
      u.events = s.events ++ (List.range (cs.length + 1)).flatMap fun (j : Nat) => pushEvents s (-(j : Int))

/-- FILE_OPEN_READ and FILE_OPEN_WRITE pop the name; where the host opens the file, the smallest free handle is entered
and pushed, and an open for writing empties or creates the file (R183, R184, R185, 10_state.md R42). The events are those of
the pops and of the push. Whether the host opens it is its verdict (log 5); the streams' detail is the model's (log 7). -/
def Obligations.FileOpenPushesTheSmallestFreeHandle : Prop :=
  ∀ (s : State) (t : Word) (cs : List Word), NameOnStack s cs →
    s.admits (nameAddrs s cs.length ++ [fromTop s (-(cs.length : Int))]) → s.fileServiceFails = false →
    ∃ h : Nat, sparseGet s.handles h = none ∧ (∀ j < h, (sparseGet s.handles j).isSome) ∧
      ∀ p ∈ [(TrapOp.fileOpenRead, Stream.reader cs 0), (.fileOpenWrite, .writer cs)],
        trapOf s.params.traps t = some p.1 → (p.1 = .fileOpenRead → (fileGet s.host.files cs).isSome) →
        ∃ u, exec (.trap t) s = .next u ∧ u.reg .sp = disp s .sp (-(cs.length : Int)) ∧
          u.cell (topAddr u) = word h ∧ sparseGet u.handles h = some p.2 ∧
          (∀ j, j ≠ h → sparseGet u.handles j = sparseGet s.handles j) ∧
          fileGet u.host.files cs = (if p.1 = .fileOpenWrite then some [] else fileGet s.host.files cs) ∧
          (∀ n, n ≠ cs → fileGet u.host.files n = fileGet s.host.files n) ∧
          { u.host with files := s.host.files } = calledHost s ∧
          Unchanged [.sp] [fromTop s (-(cs.length : Int))] [] s { u with host := s.host, handles := s.handles } ∧
          u.cap = s.capAfter (nameAddrs s cs.length ++ [fromTop s (-(cs.length : Int))]) ∧
          u.events = s.events ++ popsEvents s (cs.length + 1) ++ pushEvents s (cs.length + 1)

/-- FILE_READ (R186): the next byte, or -1 at the end, in place of the handle; the position advances by a byte read; the
events are those of one pop and one push. For a call without a host error (log 5, log 7). -/
def Obligations.FileReadPushesTheNextByte : Prop :=
  ∀ (s : State) (t : Word) (name : FileName) (pos : Nat), trapOf s.params.traps t = some .fileRead →
    s.admits [topAddr s, topAddr s] →
    s.stream (s.cell (topAddr s)) = some (.reader name pos) → s.fileServiceFails = false →
    let bs := (fileGet s.host.files name).getD []
    let h := (sint (s.cell (topAddr s))).toNat
    ∃ u, exec (.trap t) s = .next u ∧
      (∀ b, bs[pos]? = some b → u.cell (topAddr s) = b.zeroExtend 32 ∧
        sparseGet u.handles h = some (.reader name (pos + 1))) ∧
      (bs[pos]? = none → u.cell (topAddr s) = 0xFFFFFFFF ∧ sparseGet u.handles h = some (.reader name pos)) ∧
      (∀ j, j ≠ h → sparseGet u.handles j = sparseGet s.handles j) ∧ u.host = calledHost s ∧
      Unchanged [] [topAddr s] [] s { u with host := s.host, handles := s.handles } ∧
      u.cap = s.capAfter [topAddr s, topAddr s] ∧ u.events = s.events ++ popsEvents s 1 ++ pushEvents s 1

/-- FILE_WRITE (R187): the low 8 bits of the value are appended to the file, and the status 0 is pushed; the events are
those of two pops and one push. For a call without a host error (log 5). -/
def Obligations.FileWriteAppendsOneByte : Prop :=
  ∀ (s : State) (t : Word) (name : FileName), trapOf s.params.traps t = some .fileWrite →
    s.admits [topAddr s, fromTop s (-1), fromTop s (-1)] →
    s.stream (s.cell (topAddr s)) = some (.writer name) → s.fileServiceFails = false →
    ∃ u, exec (.trap t) s = .next u ∧ u.reg .sp = disp s .sp (-1) ∧ u.cell (fromTop s (-1)) = 0 ∧
      fileGet u.host.files name =
        some ((fileGet s.host.files name).getD [] ++ [BitVec.ofNat 8 (uint (s.cell (fromTop s (-1))) % 256)]) ∧
      (∀ n, n ≠ name → fileGet u.host.files n = fileGet s.host.files n) ∧
      { u.host with files := s.host.files } = calledHost s ∧
      Unchanged [.sp] [fromTop s (-1)] [] s { u with host := s.host } ∧
      u.cap = s.capAfter [topAddr s, fromTop s (-1), fromTop s (-1)] ∧
      u.events = s.events ++ popsEvents s 2 ++ pushEvents s 2

/-- FILE_CLOSE (R188): the handle is removed, with an IOError diagnostic where the host reports an error (log 5); the one
event is the pop's. -/
def Obligations.FileCloseRemovesTheHandle : Prop :=
  ∀ (s : State) (t : Word) (st : Stream), trapOf s.params.traps t = some .fileClose → s.admits [topAddr s] →
    s.stream (s.cell (topAddr s)) = some st →
    ∃ u, exec (.trap t) s = .next u ∧ u.reg .sp = disp s .sp (-1) ∧ u.stream (s.cell (topAddr s)) = none ∧
      (∀ j, j ≠ (sint (s.cell (topAddr s))).toNat → sparseGet u.handles j = sparseGet s.handles j) ∧
      u.host = { calledHost s with
        diags := s.host.diags ++ (if s.fileServiceFails then [.ioError (s.cell (topAddr s))] else []) } ∧
      Unchanged [.sp] [] [] s { u with host := s.host, handles := s.handles } ∧ u.cap = s.capAfter [topAddr s] ∧
      u.events = s.events ++ popsEvents s 1

/-- A file error is a diagnostic; what was popped stays popped, nothing is pushed, and RS is as before (R191, R199). Wrong
handles (R186, R187, R188): InvalidHandle for a number that is no key, IOError for the wrong mode or a host error of
FILE_READ and FILE_WRITE; that of FILE_CLOSE, which removes its handle, is in `FileCloseRemovesTheHandle`. A file that the
host does not open (R184, R185): FileNotFound. A failed call leaves the store and the position as they were, which is the
model's choice (log 6). -/
def Obligations.FileErrorsAreDiagnosed : Prop :=
  (∀ (s : State) (t : Word),
     let h := s.cell (topAddr s)
     let fails := fun (pops : Nat) (d : Diag) (host : HostState) => ∃ u, exec (.trap t) s = .next u ∧
       u.reg .sp = disp s .sp (-(pops : Int)) ∧ u.host = { host with diags := s.host.diags ++ [d] } ∧
       Unchanged [.sp] [] [] s { u with host := s.host } ∧ u.cap = s.capAfter ([topAddr s, fromTop s (-1)].take pops) ∧
       u.events = s.events ++ popsEvents s pops
     (s.admits [topAddr s] →
       (trapOf s.params.traps t = some .fileRead ∨ trapOf s.params.traps t = some .fileClose → s.stream h = none →
         fails 1 (.invalidHandle h) s.host) ∧
       (∀ n, trapOf s.params.traps t = some .fileRead → s.stream h = some (.writer n) → fails 1 (.ioError h) s.host) ∧
       ∀ n p, trapOf s.params.traps t = some .fileRead → s.stream h = some (.reader n p) → s.fileServiceFails = true →
         fails 1 (.ioError h) (calledHost s)) ∧
     (s.admits [topAddr s, fromTop s (-1)] → trapOf s.params.traps t = some .fileWrite →
       (s.stream h = none → fails 2 (.invalidHandle h) s.host) ∧
       (∀ n p, s.stream h = some (.reader n p) → fails 2 (.ioError h) s.host) ∧
       ∀ n, s.stream h = some (.writer n) → s.fileServiceFails = true → fails 2 (.ioError h) (calledHost s))) ∧
  (∀ (s : State) (t : Word) (cs : List Word), NameOnStack s cs → s.admits (nameAddrs s cs.length) →
     (trapOf s.params.traps t = some .fileOpenRead ∧
         (s.fileServiceFails = true ∨ fileGet s.host.files cs = none)) ∨
       (trapOf s.params.traps t = some .fileOpenWrite ∧ s.fileServiceFails = true) →
       ∃ u, exec (.trap t) s = .next u ∧ u.reg .sp = disp s .sp (-(cs.length + 1 : Int)) ∧
         u.host = { calledHost s with diags := s.host.diags ++ [.fileNotFound cs] } ∧
         Unchanged [.sp] [] [] s { u with host := s.host } ∧ u.cap = s.capAfter (nameAddrs s cs.length) ∧
         u.events = s.events ++ popsEvents s (cs.length + 1))

/-- A number that is not in the TRAP map is one diagnostic and changes nothing else (R190); in the map of this spec it is
every number but those of R175. -/
def Obligations.UnknownTrapIsDiagnosed : Prop :=
  (∀ (s : State) (t : Word), trapOf s.params.traps t = none →
    ∃ u, exec (.trap t) s = .next u ∧ Diagnosed (.unknownTrap (sint t) s.ia) [] s u ∧ u.cap = s.cap ∧
      u.events = s.events) ∧
  ∀ t : Word, trapOf .standard t = none ↔ sint t ∉ [(0 : Int), 1, 10, 11, 12, 20, 21, 22, 23, 24]

/-- The search for the 0 that ends a file name always ends (R183): within 2^31 + 1 pops there is a 0 or a fault, so a
larger bound changes nothing. The bound is the model's (log 15). -/
def Obligations.PopStringAlwaysEnds : Prop :=
  ∀ (s : State) (extra : Nat), popStringUpTo (2 ^ 31 + 1 + extra) s = popString s

/-! ### Reset and the whole machine -/

/-- The machine right after its first reset: the values of 10_state.md R45 at the default configuration of 00_scope.md R9,
for an image of no words, which is the model's choice of a reset state (log 2). -/
def Obligations.ResetValues : Prop :=
  State.reset.reg .pc = 0 ∧ State.reset.reg .sp = 0xFFFFFFFF ∧ State.reset.reg .mp = 0xFFFFFFFF ∧
    State.reset.reg .hp = 1024 ∧ (∀ x ∈ [Reg.r4, .r5, .r6, .r7], State.reset.reg x = 0) ∧ State.reset.cap = 2048 ∧
    State.reset.mem = [] ∧ State.reset.ann = [] ∧ State.reset.ir = none ∧ State.reset.ops = [] ∧ State.reset.ia = 0 ∧
    State.reset.rs = .running ∧ State.reset.handles = [] ∧
    State.reset.params = {
      dir := .up, memInit := 2048, growInc := 1024, initFrame := 0, stackBase := none, heapBase := 1024,
      constTrue := 0xFFFFFFFF, constFalse := 0, opcodes := .standard, traps := .standard }

/-- `reset(image)` between steps (70_reset_and_hazards.md R214): every piece of state has its reset value, no event is
emitted, the host side stays (R216; log 12) and so do the views (log 11); an image longer than MEM_INIT is refused.
STACK_BASE is the configured one; where there is none, it is the image's length less one for DIR = +1 (R217, 00_scope.md
R9), and for DIR = -1 the call is refused, which is the model's choice (log 24). -/
def Obligations.HostResetLoadsTheImage : Prop :=
  ∀ (s : State) (image : List Word), s.waiting = none →
    (s.params.memInit < image.length → hostReset image s = none) ∧
    (s.params.stackBase = none → s.params.dir = .down → hostReset image s = none) ∧
    ∀ b : Int, image.length ≤ s.params.memInit →
      s.params.stackBase = some b ∨ (s.params.stackBase = none ∧ s.params.dir = .up ∧ b = (image.length : Int) - 1) →
      ∃ t, hostReset image s = some t ∧ t.reg .pc = 0 ∧ t.reg .sp = word (b + s.params.initFrame * s.dir) ∧
        t.reg .mp = word b ∧ t.reg .hp = word s.params.heapBase ∧ (∀ x ∈ [Reg.r4, .r5, .r6, .r7], t.reg x = 0) ∧
        t.cap = s.params.memInit ∧
        (∀ a : Nat, a < t.cap → t.cell a = image.getD a 0 ∧ t.annotationAt a = none) ∧
        t.ir = none ∧ t.ops = [] ∧ t.ia = 0 ∧ t.rs = .running ∧ t.waiting = none ∧ t.handles = [] ∧
        t.params = s.params ∧ t.host = s.host ∧ t.events = s.events ∧ t.views = s.views

/-- What the host does between steps (60_exceptions.md R211): registers and memory through the engine's own operations,
with their events; a refused address is a refused call, which changes nothing. A listener receives every event after its
subscription, and sees the state at that event (70_reset_and_hazards.md R224; log 11). While a step waits at a prompt every
call that reads or writes the machine or subscribes is refused (R212, 10_state.md R53; setAnnotation is log 22), which is
the model's reading of 'between steps' (log 19). -/
def Obligations.HostAccessesActBetweenSteps : Prop :=
  ∀ (s : State) (a : Int) (v : Word) (x : Reg),
    (s.waiting ≠ none → hostGetReg x s = none ∧ hostSetReg x v s = none ∧ hostGetMem a s = none ∧
      hostSetMem a v s = none ∧ hostSubscribe s = none ∧ (∀ image, hostReset image s = none) ∧
      ∀ (n : Nat) (t : Option Annotation), hostGetAnn n s = none ∧ setAnnotation n t s = none) ∧
    (s.waiting = none →
      hostGetReg x s = some (s.reg x) ∧
      (∃ t, hostSetReg x v s = some t ∧ t.reg x = v ∧ Unchanged [x] [] [] s t ∧ t.cap = s.cap ∧
        t.events = s.events ++ [regEvent s x v] ∧ t.views = s.views ++ s.heard [t.view]) ∧
      (s.admits [a] = false → hostGetMem a s = none ∧ hostSetMem a v s = none) ∧
      (s.admits [a] →
        (∃ t, hostGetMem a s = some (s.cell a, t) ∧ Unchanged [] [] [] s t ∧ t.cap = s.capAfter [a] ∧
          t.events = s.events) ∧
        ∃ t, hostSetMem a v s = some t ∧ t.cell a = v ∧ Unchanged [] [a] [] s t ∧ t.cap = s.capAfter [a] ∧
          t.events = s.events ++ [memEvent s a] ∧ t.views = s.views ++ s.heard [t.view]) ∧
      (s.Inv → ∃ t u, hostSubscribe s = some t ∧ hostSetReg x v t = some u ∧
        received s.host.subscribers.length u = [regEvent s x v] ∧ seen s.host.subscribers.length u = [u.view]))

/-- The model's invariant holds right after reset. For the host side and the event feed that is the model's choice: the
spec gives them no value at reset, and in `State.reset` they are empty (log 12). -/
def Obligations.ResetMeetsTheInvariant : Prop := State.reset.Inv

/-- Every step keeps the model's invariant (`State.Inv`): canonical memory below the capacity, live handles, latches
that agree, one view for each event since someone listens (20_memory.md R54, 10_state.md R37, R41,
70_reset_and_hazards.md R224). -/
def Obligations.StepKeepsTheInvariant : Prop :=
  ∀ s t : State, s.Inv → step s = .next t → t.Inv

/-- What no step does (10_state.md R43, R33, 20_memory.md R58, R197): change the configuration or the listeners, shrink
the memory, or take back an event, a console event or a diagnostic. Each new event, where someone listens, comes with one
view that shows it (70_reset_and_hazards.md R224). -/
def Obligations.StepOnlyAppendsAndGrows : Prop :=
  ∀ s t : State, step s = .next t →
    t.params = s.params ∧ (∃ g, t.cap = s.cap + g * s.params.growInc) ∧
      (∃ evs vs, t.events = s.events ++ evs ∧ t.views = s.views ++ s.heard vs ∧ List.Forall₂ Shows evs vs) ∧
      s.host.console <+: t.host.console ∧ s.host.diags <+: t.host.diags ∧
      t.host.subscribers = s.host.subscribers ∧ ∀ n, (fileGet s.host.files n).isSome → (fileGet t.host.files n).isSome

/-- The run state changes only as 10_state.md R38 says: a RUNNING machine becomes HALTED only by a fetched HALT or an
illegal opcode, and FAULTED only with one diagnostic of that fault as the last line. -/
def Obligations.RunStateChangesOnlyAsListed : Prop :=
  ∀ s t : State, step s = .next t → s.rs = .running →
    t.rs = .running ∨
    (t.rs = .halted ∧ s.waiting = none ∧
      (lookup s.params.opcodes (s.cell (sint (s.reg .pc))) = some (recordOf s.params.opcodes .halt) ∨
        lookup s.params.opcodes (s.cell (sint (s.reg .pc))) = none)) ∨
    ∃ info, t.rs = .faulted info ∧ t.host.diags = s.host.diags ++ [.fault info]

/-- What each instruction may write (10_state.md R26, R41, R53): MP, HP and the general registers only by the
instructions listed; the latches and the configuration by none; the handles, the file store and the console by TRAP. -/
def Obligations.OnlyTheListedInstructionsWrite : Prop :=
  ∀ (i : Instr) (s t : State), exec i s = .next t →
    (i.mnemonic ∉ [.str, .ldrr, .swpr, .swprr] →
      (∀ x ∈ [Reg.r4, .r5, .r6, .r7], t.reg x = s.reg x) ∧
      (i.mnemonic ∉ [.link, .unlink] → t.reg .mp = s.reg .mp) ∧
      (i.mnemonic ∉ [.sth, .stmh] → t.reg .hp = s.reg .hp)) ∧
    t.ir = s.ir ∧ t.ops = s.ops ∧ t.ia = s.ia ∧ t.params = s.params ∧
    (i.mnemonic ≠ .trap → t.handles = s.handles ∧ t.waiting = s.waiting ∧
      { t.host with diags := s.host.diags } = s.host)

/-- Annotations are debug data (20_memory.md R64): whatever they are, the step does the same to everything else, and what a
listener sees but for the annotations is the same. -/
def Obligations.AnnotationsNeverMatter : Prop :=
  ∀ (s : State) (ann : List (Nat × Annotation)),
    ∃ t ann' vs, step s = .next t ∧ step { s with ann := ann } = .next { t with ann := ann', views := vs } ∧
      vs.map (fun v => { v with ann := [] }) = t.views.map fun v => { v with ann := [] }
end

