-- ==== Sys2Proof/Laws/Memory.lean ====
section
/-! SUPPORT. The sparse maps and the memory: what reads what after a write, and that every operation keeps the
canonical form. -/

namespace Sys2Proof.Machine

open Sys2Proof

variable {α : Type}

/-! ### Reading back -/

theorem sparseGet_sparseSet (m : List (Nat × α)) (a b : Nat) (v : α) :
    sparseGet (sparseSet m a v) b = if b = a then some v else sparseGet m b := by
  induction m with
  | nil => simp [sparseSet, sparseGet]
  | cons c m ih =>
    obtain ⟨k, w⟩ := c
    simp only [sparseSet]
    split
    · simp [sparseGet]
    · split <;> simp only [sparseGet, ih] <;> split_ifs <;> simp_all

theorem sparseGet_filter (p : Nat → Bool) (m : List (Nat × α)) (b : Nat) :
    sparseGet (m.filter fun c => p c.1) b = if p b then sparseGet m b else none := by
  induction m with
  | nil => simp [sparseGet]
  | cons c m ih =>
    obtain ⟨k, w⟩ := c
    simp only [List.filter_cons]
    split <;> simp only [sparseGet, ih] <;> split_ifs <;> simp_all

theorem sparseGet_sparseErase (m : List (Nat × α)) (a b : Nat) :
    sparseGet (sparseErase m a) b = if b = a then none else sparseGet m b := by
  rw [sparseErase, sparseGet_filter (fun n => n != a)]
  by_cases h : b = a <;> simp [h]

theorem sparseGet_sparseBelow (m : List (Nat × α)) (n b : Nat) :
    sparseGet (sparseBelow m n) b = if b < n then sparseGet m b else none := by
  rw [sparseBelow, sparseGet_filter (fun k => decide (k < n))]
  by_cases h : b < n <;> simp [h]

theorem sparseGet_eq_some_mem {m : List (Nat × α)} {a : Nat} {v : α} (h : sparseGet m a = some v) : (a, v) ∈ m := by
  induction m with
  | nil => simp [sparseGet] at h
  | cons c m ih =>
    obtain ⟨k, w⟩ := c
    simp only [sparseGet] at h
    split at h
    · simp_all
    · exact List.mem_cons_of_mem _ (ih h)

theorem mem_sparseSet {m : List (Nat × α)} {a : Nat} {v : α} {c : Nat × α} (h : c ∈ sparseSet m a v) :
    c = (a, v) ∨ c ∈ m := by
  induction m with
  | nil => simpa [sparseSet] using h
  | cons d m ih =>
    obtain ⟨k, w⟩ := d
    simp only [sparseSet] at h
    split at h
    · simpa using h
    · split at h
      · rcases List.mem_cons.1 h with h | h <;> simp [h]
      · rcases List.mem_cons.1 h with h | h
        · simp [h]
        · rcases ih h with h | h <;> simp [h]

/-! ### The keys keep rising -/

theorem rising_filter {m : List (Nat × α)} (p : Nat × α → Bool) (h : Rising m) : Rising (m.filter p) :=
  h.sublist (List.Sublist.map _ List.filter_sublist)

theorem rising_sparseErase {m : List (Nat × α)} (a : Nat) (h : Rising m) : Rising (sparseErase m a) :=
  rising_filter _ h

theorem rising_sparseBelow {m : List (Nat × α)} (n : Nat) (h : Rising m) : Rising (sparseBelow m n) :=
  rising_filter _ h

theorem rising_sparseSet {m : List (Nat × α)} (a : Nat) (v : α) (h : Rising m) : Rising (sparseSet m a v) := by
  induction m with
  | nil => simp [sparseSet, Rising]
  | cons c m ih =>
    obtain ⟨k, w⟩ := c
    obtain ⟨hk, hm⟩ := List.pairwise_cons.1 h
    simp only [sparseSet]
    split
    · rename_i hlt
      refine List.pairwise_cons.2 ⟨fun b hb => ?_, h⟩
      rcases List.mem_cons.1 hb with rfl | hb
      · exact hlt
      · exact lt_trans hlt (hk b hb)
    · split
      · rename_i _ heq
        subst heq
        exact List.pairwise_cons.2 ⟨hk, hm⟩
      · refine List.pairwise_cons.2 ⟨fun b hb => ?_, ih hm⟩
        obtain ⟨c, hc, rfl⟩ := List.mem_map.1 hb
        rcases mem_sparseSet hc with rfl | hc
        · simp only; omega
        · exact hk _ (List.mem_map_of_mem hc)

/-- A listed entry is what reading its key gives, where the keys rise. -/
theorem sparseGet_of_mem {m : List (Nat × α)} (h : Rising m) {a : Nat} {v : α} (hm : (a, v) ∈ m) :
    sparseGet m a = some v := by
  induction m with
  | nil => simp at hm
  | cons c m ih =>
    obtain ⟨k, w⟩ := c
    obtain ⟨hk, hr⟩ := List.pairwise_cons.1 h
    simp only [sparseGet]
    rcases List.mem_cons.1 hm with hc | hc
    · simp_all
    · have := hk a (List.mem_map_of_mem hc)
      simp only at this
      rw [if_neg (by omega), ih hr hc]

/-! ### The memory -/

theorem memGet_memSet (m : Memory) (a b : Nat) (v : Word) :
    memGet (memSet m a v) b = if b = a then v else memGet m b := by
  unfold memGet memSet
  by_cases hv : v = unlistedWord
  · rw [if_pos hv, sparseGet_sparseErase]; split <;> simp [hv]
  · rw [if_neg hv, sparseGet_sparseSet]; split <;> simp

theorem memGet_sparseBelow (m : Memory) (n b : Nat) :
    memGet (sparseBelow m n) b = if b < n then memGet m b else unlistedWord := by
  unfold memGet; rw [sparseGet_sparseBelow]; split <;> simp

/-- A write keeps the canonical form. -/
theorem memSet_wf {m : Memory} (a : Nat) (v : Word) (h : m.wf) : (memSet m a v).wf := by
  unfold memSet
  split
  · exact ⟨rising_sparseErase a h.1, fun c hc => h.2 c (List.mem_filter.1 hc).1⟩
  · rename_i hv
    refine ⟨rising_sparseSet a v h.1, fun c hc => ?_⟩
    rcases mem_sparseSet hc with rfl | hc
    · exact hv
    · exact h.2 c hc

/-- Growth keeps the canonical form. -/
theorem sparseBelow_wf {m : Memory} (n : Nat) (h : m.wf) : Memory.wf (sparseBelow m n) :=
  ⟨rising_sparseBelow n h.1, fun c hc => h.2 c (List.mem_filter.1 hc).1⟩

theorem mem_imageCells {a : Nat} {ws : List Word} {c : Nat × Word} (h : c ∈ imageCells a ws) :
    a ≤ c.1 ∧ c.1 < a + ws.length ∧ c.2 ≠ unlistedWord := by
  induction ws generalizing a with
  | nil => simp [imageCells] at h
  | cons w ws ih =>
    simp only [imageCells] at h
    simp only [List.length_cons]
    split at h
    · obtain ⟨h1, h2, h3⟩ := ih h; exact ⟨by omega, by omega, h3⟩
    · rcases List.mem_cons.1 h with rfl | h
      · simp_all
      · obtain ⟨h1, h2, h3⟩ := ih h; exact ⟨by omega, by omega, h3⟩

/-- Loading an image gives the canonical form. -/
theorem imageCells_wf (a : Nat) (ws : List Word) : (imageCells a ws).wf := by
  refine ⟨?_, fun c hc => (mem_imageCells hc).2.2⟩
  induction ws generalizing a with
  | nil => simp [imageCells, Rising]
  | cons w ws ih =>
    simp only [imageCells]
    split
    · exact ih (a + 1)
    · refine List.pairwise_cons.2 ⟨fun b hb => ?_, ih (a + 1)⟩
      obtain ⟨c, hc, rfl⟩ := List.mem_map.1 hb
      have := (mem_imageCells hc).1
      simp only
      omega

/-- The image words are where the loader puts them, and 0 is everywhere else. -/
theorem memGet_imageCells (a : Nat) (ws : List Word) (b : Nat) :
    memGet (imageCells a ws) b = if a ≤ b then ws.getD (b - a) unlistedWord else unlistedWord := by
  induction ws generalizing a with
  | nil => simp [imageCells, memGet, sparseGet]
  | cons w ws ih =>
    have ih' := ih (a + 1)
    simp only [imageCells]
    by_cases hb : b = a
    · subst hb
      split
      · rw [ih']; simp_all
      · simp [memGet, sparseGet]
    · have hget : memGet ((a, w) :: imageCells (a + 1) ws) b = memGet (imageCells (a + 1) ws) b := by
        simp [memGet, sparseGet, hb]
      have hidx : (if a + 1 ≤ b then ws.getD (b - (a + 1)) unlistedWord else unlistedWord)
          = if a ≤ b then (w :: ws).getD (b - a) unlistedWord else unlistedWord := by
        by_cases h : a + 1 ≤ b
        · have : b - a = b - (a + 1) + 1 := by omega
          rw [if_pos h, if_pos (by omega), this, List.getD_cons_succ]
        · rw [if_neg h, if_neg (by omega)]
      split
      · rw [ih', hidx]
      · rw [hget, ih', hidx]

/-- The memory right after reset is in canonical form. -/
theorem reset_memory_wf : State.reset.mem.wf := imageCells_wf 0 []

end Sys2Proof.Machine
end

