-- ==== Sys2Proof/Laws/State.lean ====
section
/-! SUPPORT. One lemma per field per update of the state, so that no proof unfolds a record update. -/

namespace Sys2Proof.Machine

open Sys2Proof

@[simp] theorem setReg_params (r : Reg) (v : Word) (s : State) : (setReg r v s).params = s.params := rfl
@[simp] theorem setReg_regs (r : Reg) (v : Word) (s : State) : (setReg r v s).regs = regsSet s.regs r v := rfl
@[simp] theorem setReg_mem (r : Reg) (v : Word) (s : State) : (setReg r v s).mem = s.mem := rfl
@[simp] theorem setReg_cap (r : Reg) (v : Word) (s : State) : (setReg r v s).cap = s.cap := rfl
@[simp] theorem setReg_ann (r : Reg) (v : Word) (s : State) : (setReg r v s).ann = s.ann := rfl
@[simp] theorem setReg_ir (r : Reg) (v : Word) (s : State) : (setReg r v s).ir = s.ir := rfl
@[simp] theorem setReg_ops (r : Reg) (v : Word) (s : State) : (setReg r v s).ops = s.ops := rfl
@[simp] theorem setReg_ia (r : Reg) (v : Word) (s : State) : (setReg r v s).ia = s.ia := rfl
@[simp] theorem setReg_rs (r : Reg) (v : Word) (s : State) : (setReg r v s).rs = s.rs := rfl
@[simp] theorem setReg_waiting (r : Reg) (v : Word) (s : State) : (setReg r v s).waiting = s.waiting := rfl
@[simp] theorem setReg_handles (r : Reg) (v : Word) (s : State) : (setReg r v s).handles = s.handles := rfl
@[simp] theorem setReg_events (r : Reg) (v : Word) (s : State) : (setReg r v s).events = s.events ++ [.reg r (s.reg r) v] := rfl
@[simp] theorem setReg_views (r : Reg) (v : Word) (s : State) : (setReg r v s).views = s.views ++ s.heard [(setReg r v s).view] := rfl
@[simp] theorem setReg_host (r : Reg) (v : Word) (s : State) : (setReg r v s).host = s.host := rfl
@[simp] theorem setReg_dir (r : Reg) (v : Word) (s : State) : (setReg r v s).dir = s.dir := rfl

@[simp] theorem adjust_params (r : Reg) (k : Int) (s : State) : (adjust r k s).params = s.params := rfl
@[simp] theorem adjust_regs (r : Reg) (k : Int) (s : State) : (adjust r k s).regs = regsSet s.regs r (disp s r k) := rfl
@[simp] theorem adjust_mem (r : Reg) (k : Int) (s : State) : (adjust r k s).mem = s.mem := rfl
@[simp] theorem adjust_cap (r : Reg) (k : Int) (s : State) : (adjust r k s).cap = s.cap := rfl
@[simp] theorem adjust_ann (r : Reg) (k : Int) (s : State) : (adjust r k s).ann = s.ann := rfl
@[simp] theorem adjust_ir (r : Reg) (k : Int) (s : State) : (adjust r k s).ir = s.ir := rfl
@[simp] theorem adjust_ops (r : Reg) (k : Int) (s : State) : (adjust r k s).ops = s.ops := rfl
@[simp] theorem adjust_ia (r : Reg) (k : Int) (s : State) : (adjust r k s).ia = s.ia := rfl
@[simp] theorem adjust_rs (r : Reg) (k : Int) (s : State) : (adjust r k s).rs = s.rs := rfl
@[simp] theorem adjust_waiting (r : Reg) (k : Int) (s : State) : (adjust r k s).waiting = s.waiting := rfl
@[simp] theorem adjust_handles (r : Reg) (k : Int) (s : State) : (adjust r k s).handles = s.handles := rfl
@[simp] theorem adjust_events (r : Reg) (k : Int) (s : State) : (adjust r k s).events = s.events ++ [.reg r (s.reg r) (disp s r k)] := rfl
@[simp] theorem adjust_views (r : Reg) (k : Int) (s : State) : (adjust r k s).views = s.views ++ s.heard [(adjust r k s).view] := rfl
@[simp] theorem adjust_host (r : Reg) (k : Int) (s : State) : (adjust r k s).host = s.host := rfl
@[simp] theorem adjust_dir (r : Reg) (k : Int) (s : State) : (adjust r k s).dir = s.dir := rfl

@[simp] theorem diag_params (d : Diag) (s : State) : (diag d s).params = s.params := rfl
@[simp] theorem diag_regs (d : Diag) (s : State) : (diag d s).regs = s.regs := rfl
@[simp] theorem diag_mem (d : Diag) (s : State) : (diag d s).mem = s.mem := rfl
@[simp] theorem diag_cap (d : Diag) (s : State) : (diag d s).cap = s.cap := rfl
@[simp] theorem diag_ann (d : Diag) (s : State) : (diag d s).ann = s.ann := rfl
@[simp] theorem diag_ir (d : Diag) (s : State) : (diag d s).ir = s.ir := rfl
@[simp] theorem diag_ops (d : Diag) (s : State) : (diag d s).ops = s.ops := rfl
@[simp] theorem diag_ia (d : Diag) (s : State) : (diag d s).ia = s.ia := rfl
@[simp] theorem diag_rs (d : Diag) (s : State) : (diag d s).rs = s.rs := rfl
@[simp] theorem diag_waiting (d : Diag) (s : State) : (diag d s).waiting = s.waiting := rfl
@[simp] theorem diag_handles (d : Diag) (s : State) : (diag d s).handles = s.handles := rfl
@[simp] theorem diag_events (d : Diag) (s : State) : (diag d s).events = s.events := rfl
@[simp] theorem diag_views (d : Diag) (s : State) : (diag d s).views = s.views := rfl
@[simp] theorem diag_host (d : Diag) (s : State) : (diag d s).host = { s.host with diags := s.host.diags ++ [d] } := rfl
@[simp] theorem diag_reg (d : Diag) (s : State) (q : Reg) : (diag d s).reg q = s.reg q := rfl
@[simp] theorem diag_dir (d : Diag) (s : State) : (diag d s).dir = s.dir := rfl

@[simp] theorem enterFault_params (f : FaultInfo) (s : State) : (enterFault f s).params = s.params := rfl
@[simp] theorem enterFault_regs (f : FaultInfo) (s : State) : (enterFault f s).regs = s.regs := rfl
@[simp] theorem enterFault_mem (f : FaultInfo) (s : State) : (enterFault f s).mem = s.mem := rfl
@[simp] theorem enterFault_cap (f : FaultInfo) (s : State) : (enterFault f s).cap = s.cap := rfl
@[simp] theorem enterFault_ann (f : FaultInfo) (s : State) : (enterFault f s).ann = s.ann := rfl
@[simp] theorem enterFault_ir (f : FaultInfo) (s : State) : (enterFault f s).ir = s.ir := rfl
@[simp] theorem enterFault_ops (f : FaultInfo) (s : State) : (enterFault f s).ops = s.ops := rfl
@[simp] theorem enterFault_ia (f : FaultInfo) (s : State) : (enterFault f s).ia = s.ia := rfl
@[simp] theorem enterFault_rs (f : FaultInfo) (s : State) : (enterFault f s).rs = .faulted f := rfl
@[simp] theorem enterFault_waiting (f : FaultInfo) (s : State) : (enterFault f s).waiting = s.waiting := rfl
@[simp] theorem enterFault_handles (f : FaultInfo) (s : State) : (enterFault f s).handles = s.handles := rfl
@[simp] theorem enterFault_events (f : FaultInfo) (s : State) : (enterFault f s).events = s.events := rfl
@[simp] theorem enterFault_views (f : FaultInfo) (s : State) : (enterFault f s).views = s.views := rfl
@[simp] theorem enterFault_host (f : FaultInfo) (s : State) : (enterFault f s).host = { s.host with diags := s.host.diags ++ [.fault f] } := rfl
@[simp] theorem enterFault_reg (f : FaultInfo) (s : State) (q : Reg) : (enterFault f s).reg q = s.reg q := rfl
@[simp] theorem enterFault_dir (f : FaultInfo) (s : State) : (enterFault f s).dir = s.dir := rfl

@[simp] theorem halt_params (s : State) : (halt s).params = s.params := rfl
@[simp] theorem halt_regs (s : State) : (halt s).regs = s.regs := rfl
@[simp] theorem halt_mem (s : State) : (halt s).mem = s.mem := rfl
@[simp] theorem halt_cap (s : State) : (halt s).cap = s.cap := rfl
@[simp] theorem halt_ann (s : State) : (halt s).ann = s.ann := rfl
@[simp] theorem halt_ir (s : State) : (halt s).ir = s.ir := rfl
@[simp] theorem halt_ops (s : State) : (halt s).ops = s.ops := rfl
@[simp] theorem halt_ia (s : State) : (halt s).ia = s.ia := rfl
@[simp] theorem halt_rs (s : State) : (halt s).rs = .halted := rfl
@[simp] theorem halt_waiting (s : State) : (halt s).waiting = s.waiting := rfl
@[simp] theorem halt_handles (s : State) : (halt s).handles = s.handles := rfl
@[simp] theorem halt_events (s : State) : (halt s).events = s.events := rfl
@[simp] theorem halt_views (s : State) : (halt s).views = s.views := rfl
@[simp] theorem halt_host (s : State) : (halt s).host = s.host := rfl
@[simp] theorem halt_reg (s : State) (q : Reg) : (halt s).reg q = s.reg q := rfl
@[simp] theorem halt_dir (s : State) : (halt s).dir = s.dir := rfl

@[simp] theorem grow_params (s : State) : (grow s).params = s.params := rfl
@[simp] theorem grow_regs (s : State) : (grow s).regs = s.regs := rfl
@[simp] theorem grow_mem (s : State) : (grow s).mem = sparseBelow s.mem s.cap := rfl
@[simp] theorem grow_cap (s : State) : (grow s).cap = s.cap + s.params.growInc := rfl
@[simp] theorem grow_ann (s : State) : (grow s).ann = sparseBelow s.ann s.cap := rfl
@[simp] theorem grow_ir (s : State) : (grow s).ir = s.ir := rfl
@[simp] theorem grow_ops (s : State) : (grow s).ops = s.ops := rfl
@[simp] theorem grow_ia (s : State) : (grow s).ia = s.ia := rfl
@[simp] theorem grow_rs (s : State) : (grow s).rs = s.rs := rfl
@[simp] theorem grow_waiting (s : State) : (grow s).waiting = s.waiting := rfl
@[simp] theorem grow_handles (s : State) : (grow s).handles = s.handles := rfl
@[simp] theorem grow_events (s : State) : (grow s).events = s.events := rfl
@[simp] theorem grow_views (s : State) : (grow s).views = s.views := rfl
@[simp] theorem grow_host (s : State) : (grow s).host = s.host := rfl
@[simp] theorem grow_reg (s : State) (q : Reg) : (grow s).reg q = s.reg q := rfl
@[simp] theorem grow_dir (s : State) : (grow s).dir = s.dir := rfl

@[simp] theorem storeCell_params (a : Nat) (v : Word) (s : State) : (storeCell a v s).params = s.params := rfl
@[simp] theorem storeCell_regs (a : Nat) (v : Word) (s : State) : (storeCell a v s).regs = s.regs := rfl
@[simp] theorem storeCell_mem (a : Nat) (v : Word) (s : State) : (storeCell a v s).mem = memSet s.mem a v := rfl
@[simp] theorem storeCell_cap (a : Nat) (v : Word) (s : State) : (storeCell a v s).cap = s.cap := rfl
@[simp] theorem storeCell_ann (a : Nat) (v : Word) (s : State) : (storeCell a v s).ann = s.ann := rfl
@[simp] theorem storeCell_ir (a : Nat) (v : Word) (s : State) : (storeCell a v s).ir = s.ir := rfl
@[simp] theorem storeCell_ops (a : Nat) (v : Word) (s : State) : (storeCell a v s).ops = s.ops := rfl
@[simp] theorem storeCell_ia (a : Nat) (v : Word) (s : State) : (storeCell a v s).ia = s.ia := rfl
@[simp] theorem storeCell_rs (a : Nat) (v : Word) (s : State) : (storeCell a v s).rs = s.rs := rfl
@[simp] theorem storeCell_waiting (a : Nat) (v : Word) (s : State) : (storeCell a v s).waiting = s.waiting := rfl
@[simp] theorem storeCell_handles (a : Nat) (v : Word) (s : State) : (storeCell a v s).handles = s.handles := rfl
@[simp] theorem storeCell_events (a : Nat) (v : Word) (s : State) : (storeCell a v s).events = s.events ++ [.mem a (memGet s.mem a)] := rfl
@[simp] theorem storeCell_views (a : Nat) (v : Word) (s : State) : (storeCell a v s).views = s.views ++ s.heard [(storeCell a v s).view] := rfl
@[simp] theorem storeCell_host (a : Nat) (v : Word) (s : State) : (storeCell a v s).host = s.host := rfl
@[simp] theorem storeCell_reg (a : Nat) (v : Word) (s : State) (q : Reg) : (storeCell a v s).reg q = s.reg q := rfl
@[simp] theorem storeCell_dir (a : Nat) (v : Word) (s : State) : (storeCell a v s).dir = s.dir := rfl

@[simp] theorem annotate_params (a : Int) (x : AnnText) (s : State) : (annotate a x s).params = s.params := rfl
@[simp] theorem annotate_regs (a : Int) (x : AnnText) (s : State) : (annotate a x s).regs = s.regs := rfl
@[simp] theorem annotate_mem (a : Int) (x : AnnText) (s : State) : (annotate a x s).mem = s.mem := rfl
@[simp] theorem annotate_cap (a : Int) (x : AnnText) (s : State) : (annotate a x s).cap = s.cap := rfl
@[simp] theorem annotate_ann (a : Int) (x : AnnText) (s : State) : (annotate a x s).ann = sparseSet s.ann a.toNat { text := x, tag := Config.annotationTag x } := rfl
@[simp] theorem annotate_ir (a : Int) (x : AnnText) (s : State) : (annotate a x s).ir = s.ir := rfl
@[simp] theorem annotate_ops (a : Int) (x : AnnText) (s : State) : (annotate a x s).ops = s.ops := rfl
@[simp] theorem annotate_ia (a : Int) (x : AnnText) (s : State) : (annotate a x s).ia = s.ia := rfl
@[simp] theorem annotate_rs (a : Int) (x : AnnText) (s : State) : (annotate a x s).rs = s.rs := rfl
@[simp] theorem annotate_waiting (a : Int) (x : AnnText) (s : State) : (annotate a x s).waiting = s.waiting := rfl
@[simp] theorem annotate_handles (a : Int) (x : AnnText) (s : State) : (annotate a x s).handles = s.handles := rfl
@[simp] theorem annotate_events (a : Int) (x : AnnText) (s : State) : (annotate a x s).events = s.events := rfl
@[simp] theorem annotate_views (a : Int) (x : AnnText) (s : State) : (annotate a x s).views = s.views := rfl
@[simp] theorem annotate_host (a : Int) (x : AnnText) (s : State) : (annotate a x s).host = s.host := rfl
@[simp] theorem annotate_reg (a : Int) (x : AnnText) (s : State) (q : Reg) : (annotate a x s).reg q = s.reg q := rfl
@[simp] theorem annotate_dir (a : Int) (x : AnnText) (s : State) : (annotate a x s).dir = s.dir := rfl

@[simp] theorem print_params (e : ConsoleEvent) (s : State) : (print e s).params = s.params := rfl
@[simp] theorem print_regs (e : ConsoleEvent) (s : State) : (print e s).regs = s.regs := rfl
@[simp] theorem print_mem (e : ConsoleEvent) (s : State) : (print e s).mem = s.mem := rfl
@[simp] theorem print_cap (e : ConsoleEvent) (s : State) : (print e s).cap = s.cap := rfl
@[simp] theorem print_ann (e : ConsoleEvent) (s : State) : (print e s).ann = s.ann := rfl
@[simp] theorem print_ir (e : ConsoleEvent) (s : State) : (print e s).ir = s.ir := rfl
@[simp] theorem print_ops (e : ConsoleEvent) (s : State) : (print e s).ops = s.ops := rfl
@[simp] theorem print_ia (e : ConsoleEvent) (s : State) : (print e s).ia = s.ia := rfl
@[simp] theorem print_rs (e : ConsoleEvent) (s : State) : (print e s).rs = s.rs := rfl
@[simp] theorem print_waiting (e : ConsoleEvent) (s : State) : (print e s).waiting = s.waiting := rfl
@[simp] theorem print_handles (e : ConsoleEvent) (s : State) : (print e s).handles = s.handles := rfl
@[simp] theorem print_events (e : ConsoleEvent) (s : State) : (print e s).events = s.events := rfl
@[simp] theorem print_views (e : ConsoleEvent) (s : State) : (print e s).views = s.views := rfl
@[simp] theorem print_host (e : ConsoleEvent) (s : State) : (print e s).host = { s.host with console := s.host.console ++ [e] } := rfl
@[simp] theorem print_reg (e : ConsoleEvent) (s : State) (q : Reg) : (print e s).reg q = s.reg q := rfl
@[simp] theorem print_dir (e : ConsoleEvent) (s : State) : (print e s).dir = s.dir := rfl

@[simp] theorem afterFileCall_params (s : State) : (afterFileCall s).params = s.params := rfl
@[simp] theorem afterFileCall_regs (s : State) : (afterFileCall s).regs = s.regs := rfl
@[simp] theorem afterFileCall_mem (s : State) : (afterFileCall s).mem = s.mem := rfl
@[simp] theorem afterFileCall_cap (s : State) : (afterFileCall s).cap = s.cap := rfl
@[simp] theorem afterFileCall_ann (s : State) : (afterFileCall s).ann = s.ann := rfl
@[simp] theorem afterFileCall_ir (s : State) : (afterFileCall s).ir = s.ir := rfl
@[simp] theorem afterFileCall_ops (s : State) : (afterFileCall s).ops = s.ops := rfl
@[simp] theorem afterFileCall_ia (s : State) : (afterFileCall s).ia = s.ia := rfl
@[simp] theorem afterFileCall_rs (s : State) : (afterFileCall s).rs = s.rs := rfl
@[simp] theorem afterFileCall_waiting (s : State) : (afterFileCall s).waiting = s.waiting := rfl
@[simp] theorem afterFileCall_handles (s : State) : (afterFileCall s).handles = s.handles := rfl
@[simp] theorem afterFileCall_events (s : State) : (afterFileCall s).events = s.events := rfl
@[simp] theorem afterFileCall_views (s : State) : (afterFileCall s).views = s.views := rfl
@[simp] theorem afterFileCall_host (s : State) : (afterFileCall s).host = { s.host with fileVerdicts := s.host.fileVerdicts.tail, fileCalls := s.host.fileCalls + 1 } := rfl
@[simp] theorem afterFileCall_reg (s : State) (q : Reg) : (afterFileCall s).reg q = s.reg q := rfl
@[simp] theorem afterFileCall_dir (s : State) : (afterFileCall s).dir = s.dir := rfl

@[simp] theorem setFile_params (n : FileName) (bs : List Byte) (s : State) : (setFile n bs s).params = s.params := rfl
@[simp] theorem setFile_regs (n : FileName) (bs : List Byte) (s : State) : (setFile n bs s).regs = s.regs := rfl
@[simp] theorem setFile_mem (n : FileName) (bs : List Byte) (s : State) : (setFile n bs s).mem = s.mem := rfl
@[simp] theorem setFile_cap (n : FileName) (bs : List Byte) (s : State) : (setFile n bs s).cap = s.cap := rfl
@[simp] theorem setFile_ann (n : FileName) (bs : List Byte) (s : State) : (setFile n bs s).ann = s.ann := rfl
@[simp] theorem setFile_ir (n : FileName) (bs : List Byte) (s : State) : (setFile n bs s).ir = s.ir := rfl
@[simp] theorem setFile_ops (n : FileName) (bs : List Byte) (s : State) : (setFile n bs s).ops = s.ops := rfl
@[simp] theorem setFile_ia (n : FileName) (bs : List Byte) (s : State) : (setFile n bs s).ia = s.ia := rfl
@[simp] theorem setFile_rs (n : FileName) (bs : List Byte) (s : State) : (setFile n bs s).rs = s.rs := rfl
@[simp] theorem setFile_waiting (n : FileName) (bs : List Byte) (s : State) : (setFile n bs s).waiting = s.waiting := rfl
@[simp] theorem setFile_handles (n : FileName) (bs : List Byte) (s : State) : (setFile n bs s).handles = s.handles := rfl
@[simp] theorem setFile_events (n : FileName) (bs : List Byte) (s : State) : (setFile n bs s).events = s.events := rfl
@[simp] theorem setFile_views (n : FileName) (bs : List Byte) (s : State) : (setFile n bs s).views = s.views := rfl
@[simp] theorem setFile_host (n : FileName) (bs : List Byte) (s : State) : (setFile n bs s).host = { s.host with files := filePut s.host.files n bs } := rfl
@[simp] theorem setFile_reg (n : FileName) (bs : List Byte) (s : State) (q : Reg) : (setFile n bs s).reg q = s.reg q := rfl
@[simp] theorem setFile_dir (n : FileName) (bs : List Byte) (s : State) : (setFile n bs s).dir = s.dir := rfl

@[simp] theorem setHandle_params (h : Nat) (st : Stream) (s : State) : (setHandle h st s).params = s.params := rfl
@[simp] theorem setHandle_regs (h : Nat) (st : Stream) (s : State) : (setHandle h st s).regs = s.regs := rfl
@[simp] theorem setHandle_mem (h : Nat) (st : Stream) (s : State) : (setHandle h st s).mem = s.mem := rfl
@[simp] theorem setHandle_cap (h : Nat) (st : Stream) (s : State) : (setHandle h st s).cap = s.cap := rfl
@[simp] theorem setHandle_ann (h : Nat) (st : Stream) (s : State) : (setHandle h st s).ann = s.ann := rfl
@[simp] theorem setHandle_ir (h : Nat) (st : Stream) (s : State) : (setHandle h st s).ir = s.ir := rfl
@[simp] theorem setHandle_ops (h : Nat) (st : Stream) (s : State) : (setHandle h st s).ops = s.ops := rfl
@[simp] theorem setHandle_ia (h : Nat) (st : Stream) (s : State) : (setHandle h st s).ia = s.ia := rfl
@[simp] theorem setHandle_rs (h : Nat) (st : Stream) (s : State) : (setHandle h st s).rs = s.rs := rfl
@[simp] theorem setHandle_waiting (h : Nat) (st : Stream) (s : State) : (setHandle h st s).waiting = s.waiting := rfl
@[simp] theorem setHandle_handles (h : Nat) (st : Stream) (s : State) : (setHandle h st s).handles = sparseSet s.handles h st := rfl
@[simp] theorem setHandle_events (h : Nat) (st : Stream) (s : State) : (setHandle h st s).events = s.events := rfl
@[simp] theorem setHandle_views (h : Nat) (st : Stream) (s : State) : (setHandle h st s).views = s.views := rfl
@[simp] theorem setHandle_host (h : Nat) (st : Stream) (s : State) : (setHandle h st s).host = s.host := rfl
@[simp] theorem setHandle_reg (h : Nat) (st : Stream) (s : State) (q : Reg) : (setHandle h st s).reg q = s.reg q := rfl
@[simp] theorem setHandle_dir (h : Nat) (st : Stream) (s : State) : (setHandle h st s).dir = s.dir := rfl

@[simp] theorem removeHandle_params (h : Nat) (s : State) : (removeHandle h s).params = s.params := rfl
@[simp] theorem removeHandle_regs (h : Nat) (s : State) : (removeHandle h s).regs = s.regs := rfl
@[simp] theorem removeHandle_mem (h : Nat) (s : State) : (removeHandle h s).mem = s.mem := rfl
@[simp] theorem removeHandle_cap (h : Nat) (s : State) : (removeHandle h s).cap = s.cap := rfl
@[simp] theorem removeHandle_ann (h : Nat) (s : State) : (removeHandle h s).ann = s.ann := rfl
@[simp] theorem removeHandle_ir (h : Nat) (s : State) : (removeHandle h s).ir = s.ir := rfl
@[simp] theorem removeHandle_ops (h : Nat) (s : State) : (removeHandle h s).ops = s.ops := rfl
@[simp] theorem removeHandle_ia (h : Nat) (s : State) : (removeHandle h s).ia = s.ia := rfl
@[simp] theorem removeHandle_rs (h : Nat) (s : State) : (removeHandle h s).rs = s.rs := rfl
@[simp] theorem removeHandle_waiting (h : Nat) (s : State) : (removeHandle h s).waiting = s.waiting := rfl
@[simp] theorem removeHandle_handles (h : Nat) (s : State) : (removeHandle h s).handles = sparseErase s.handles h := rfl
@[simp] theorem removeHandle_events (h : Nat) (s : State) : (removeHandle h s).events = s.events := rfl
@[simp] theorem removeHandle_views (h : Nat) (s : State) : (removeHandle h s).views = s.views := rfl
@[simp] theorem removeHandle_host (h : Nat) (s : State) : (removeHandle h s).host = s.host := rfl
@[simp] theorem removeHandle_reg (h : Nat) (s : State) (q : Reg) : (removeHandle h s).reg q = s.reg q := rfl
@[simp] theorem removeHandle_dir (h : Nat) (s : State) : (removeHandle h s).dir = s.dir := rfl

@[simp] theorem latch_params (r : InstrRecord) (a : Int) (s : State) : (latch r a s).params = s.params := rfl
@[simp] theorem latch_regs (r : InstrRecord) (a : Int) (s : State) : (latch r a s).regs = s.regs := rfl
@[simp] theorem latch_mem (r : InstrRecord) (a : Int) (s : State) : (latch r a s).mem = s.mem := rfl
@[simp] theorem latch_cap (r : InstrRecord) (a : Int) (s : State) : (latch r a s).cap = s.cap := rfl
@[simp] theorem latch_ann (r : InstrRecord) (a : Int) (s : State) : (latch r a s).ann = s.ann := rfl
@[simp] theorem latch_ir (r : InstrRecord) (a : Int) (s : State) : (latch r a s).ir = some r := rfl
@[simp] theorem latch_ops (r : InstrRecord) (a : Int) (s : State) : (latch r a s).ops = [] := rfl
@[simp] theorem latch_ia (r : InstrRecord) (a : Int) (s : State) : (latch r a s).ia = a := rfl
@[simp] theorem latch_rs (r : InstrRecord) (a : Int) (s : State) : (latch r a s).rs = s.rs := rfl
@[simp] theorem latch_waiting (r : InstrRecord) (a : Int) (s : State) : (latch r a s).waiting = s.waiting := rfl
@[simp] theorem latch_handles (r : InstrRecord) (a : Int) (s : State) : (latch r a s).handles = s.handles := rfl
@[simp] theorem latch_events (r : InstrRecord) (a : Int) (s : State) : (latch r a s).events = s.events := rfl
@[simp] theorem latch_views (r : InstrRecord) (a : Int) (s : State) : (latch r a s).views = s.views := rfl
@[simp] theorem latch_host (r : InstrRecord) (a : Int) (s : State) : (latch r a s).host = s.host := rfl
@[simp] theorem latch_reg (r : InstrRecord) (a : Int) (s : State) (q : Reg) : (latch r a s).reg q = s.reg q := rfl
@[simp] theorem latch_dir (r : InstrRecord) (a : Int) (s : State) : (latch r a s).dir = s.dir := rfl

@[simp] theorem answered_params (h : HostState) (s : State) : (answered h s).params = s.params := rfl
@[simp] theorem answered_regs (h : HostState) (s : State) : (answered h s).regs = s.regs := rfl
@[simp] theorem answered_mem (h : HostState) (s : State) : (answered h s).mem = s.mem := rfl
@[simp] theorem answered_cap (h : HostState) (s : State) : (answered h s).cap = s.cap := rfl
@[simp] theorem answered_ann (h : HostState) (s : State) : (answered h s).ann = s.ann := rfl
@[simp] theorem answered_ir (h : HostState) (s : State) : (answered h s).ir = s.ir := rfl
@[simp] theorem answered_ops (h : HostState) (s : State) : (answered h s).ops = s.ops := rfl
@[simp] theorem answered_ia (h : HostState) (s : State) : (answered h s).ia = s.ia := rfl
@[simp] theorem answered_rs (h : HostState) (s : State) : (answered h s).rs = s.rs := rfl
@[simp] theorem answered_handles (h : HostState) (s : State) : (answered h s).handles = s.handles := rfl
@[simp] theorem answered_events (h : HostState) (s : State) : (answered h s).events = s.events := rfl
@[simp] theorem answered_views (h : HostState) (s : State) : (answered h s).views = s.views := rfl
@[simp] theorem answered_waiting (h : HostState) (s : State) : (answered h s).waiting = none := rfl
@[simp] theorem answered_host (h : HostState) (s : State) : (answered h s).host = h := rfl
@[simp] theorem answered_reg (h : HostState) (s : State) (q : Reg) : (answered h s).reg q = s.reg q := rfl
@[simp] theorem answered_dir (h : HostState) (s : State) : (answered h s).dir = s.dir := rfl

@[simp] theorem touch_params (a : Int) (s : State) : (touch a s).params = s.params := by unfold touch; split <;> rfl
@[simp] theorem touch_regs (a : Int) (s : State) : (touch a s).regs = s.regs := by unfold touch; split <;> rfl
@[simp] theorem touch_ir (a : Int) (s : State) : (touch a s).ir = s.ir := by unfold touch; split <;> rfl
@[simp] theorem touch_ops (a : Int) (s : State) : (touch a s).ops = s.ops := by unfold touch; split <;> rfl
@[simp] theorem touch_ia (a : Int) (s : State) : (touch a s).ia = s.ia := by unfold touch; split <;> rfl
@[simp] theorem touch_rs (a : Int) (s : State) : (touch a s).rs = s.rs := by unfold touch; split <;> rfl
@[simp] theorem touch_waiting (a : Int) (s : State) : (touch a s).waiting = s.waiting := by unfold touch; split <;> rfl
@[simp] theorem touch_handles (a : Int) (s : State) : (touch a s).handles = s.handles := by unfold touch; split <;> rfl
@[simp] theorem touch_events (a : Int) (s : State) : (touch a s).events = s.events := by unfold touch; split <;> rfl
@[simp] theorem touch_views (a : Int) (s : State) : (touch a s).views = s.views := by unfold touch; split <;> rfl
@[simp] theorem touch_host (a : Int) (s : State) : (touch a s).host = s.host := by unfold touch; split <;> rfl
@[simp] theorem touch_reg (a : Int) (s : State) (q : Reg) : (touch a s).reg q = s.reg q := by unfold touch; split <;> rfl
@[simp] theorem touch_dir (a : Int) (s : State) : (touch a s).dir = s.dir := by unfold touch; split <;> rfl
@[simp] theorem touch_cap (a : Int) (s : State) : (touch a s).cap = capAfterAccess s.params.growInc s.cap a := by
  unfold touch capAfterAccess; split <;> rfl

/-! ### What the listeners hear -/

@[simp] theorem heard_nil (s : State) : s.heard [] = [] := by simp [State.heard]

theorem heard_append (s : State) (vs ws : List View) : s.heard vs ++ s.heard ws = s.heard (vs ++ ws) := by
  unfold State.heard; split <;> rfl

/-- Who listens is said by the host side alone. -/
theorem heard_congr {s t : State} (h : t.host.subscribers = s.host.subscribers) (vs : List View) :
    t.heard vs = s.heard vs := by
  simp [State.heard, h]

@[simp] theorem setReg_heard (r : Reg) (v : Word) (s : State) (vs : List View) : (setReg r v s).heard vs = s.heard vs := rfl
@[simp] theorem adjust_heard (r : Reg) (k : Int) (s : State) (vs : List View) : (adjust r k s).heard vs = s.heard vs := rfl
@[simp] theorem touch_heard (a : Int) (s : State) (vs : List View) : (touch a s).heard vs = s.heard vs :=
  heard_congr (by rw [touch_host]) vs

theorem heard_length (s : State) (vs : List View) :
    (s.heard vs).length = if s.host.subscribers = [] then 0 else vs.length := by
  unfold State.heard; split <;> rfl

/-! ### Registers -/

@[simp] theorem regsGet_regsSet (x : Regs) (r q : Reg) (v : Word) :
    regsGet (regsSet x r v) q = if q = r then v else regsGet x q := by
  cases r <;> cases q <;> rfl

@[simp] theorem setReg_reg (r : Reg) (v : Word) (s : State) (q : Reg) :
    (setReg r v s).reg q = if q = r then v else s.reg q := regsGet_regsSet s.regs r q v

@[simp] theorem adjust_reg (r : Reg) (k : Int) (s : State) (q : Reg) :
    (adjust r k s).reg q = if q = r then disp s r k else s.reg q := regsGet_regsSet s.regs r q _

/-- The register file is its eight registers. -/
theorem regs_ext {x y : Regs} (h : ∀ r, regsGet x r = regsGet y r) : x = y := by
  cases x; cases y
  have := h .pc; have := h .sp; have := h .mp; have := h .hp
  have := h .r4; have := h .r5; have := h .r6; have := h .r7
  simp_all [regsGet]

theorem regOfNumber_numberOfReg (r : Reg) : regOfNumber (numberOfReg r) = some r := by cases r <;> rfl

/-- A register number names a register iff it is below NREG. -/
theorem regOfNumber_isSome (n : Nat) : (regOfNumber n).isSome = decide (n < nreg) := by
  unfold regOfNumber nreg
  by_cases h : n < 8
  · interval_cases n <;> rfl
  · simp [h]

end Sys2Proof.Machine
end

