-- ==== Sys2Proof/Laws/Word.lean ====
section
/-! SUPPORT. Word arithmetic: `word` and `sint`, displaced addresses, and the addresses of a block. -/

namespace Sys2Proof.Machine

open Sys2Proof

@[simp] theorem word_sint (w : Word) : word (sint w) = w := BitVec.ofInt_toInt

theorem word_add (a b : Int) : word (a + b) = word a + word b := BitVec.ofInt_add a b

theorem word_neg (a : Int) : word (-a) = -word a := BitVec.ofInt_neg

theorem word_sub (a b : Int) : word (a - b) = word a - word b := by
  rw [Int.sub_eq_add_neg, word_add, word_neg, BitVec.sub_eq_add_neg]

@[simp] theorem word_sint_word_add (a b : Int) : word (sint (word a) + b) = word (a + b) := by
  rw [word_add, word_sint, ← word_add]

@[simp] theorem addr_sint_add (w : Word) : addr (sint w) = sint w := by rw [addr, word_sint]

theorem sint_word (a : Int) : sint (word a) = a.bmod (2 ^ 32) := BitVec.toInt_ofInt ..

/-- An integer in the range of a word is what its word reads as. -/
theorem sint_word_of_range {a : Int} (h : -2 ^ 31 ≤ a) (h' : a < 2 ^ 31) : sint (word a) = a := by
  rw [sint_word]; exact Int.bmod_eq_of_le (by omega) (by omega)

theorem sint_range (w : Word) : -2 ^ 31 ≤ sint w ∧ sint w < 2 ^ 31 := by
  have := BitVec.le_toInt w; have := BitVec.toInt_lt (x := w); simp only [sint]; omega

theorem word_inj_of_close {a b : Int} (h : word a = word b) (hd : |a - b| < 2 ^ 32) : a = b := by
  have h2 : sint (word a) = sint (word b) := by rw [h]
  rw [sint_word, sint_word] at h2
  have h3 := (Int.bmod_eq_bmod_iff_bmod_sub_eq_zero).1 h2
  rw [← Int.dvd_iff_bmod_eq_zero] at h3
  have := Int.eq_zero_of_abs_lt_dvd h3 (by simpa using hd)
  omega

/-- Two address expressions less than 2^32 apart name one cell only if they are equal. -/
theorem addr_inj_of_close {a b : Int} (h : addr a = addr b) (hd : |a - b| < 2 ^ 32) : a = b :=
  word_inj_of_close (BitVec.toInt_inj.1 h) hd

/-- The displaced address as a sum of words. -/
theorem disp_eq (s : State) (r : Reg) (k : Int) : disp s r k = s.reg r + word (k * s.dir) := by
  rw [disp, word_add, word_sint]

theorem dir_eq (d : Dir) : d.toInt = 1 ∨ d.toInt = -1 := by cases d <;> simp [Dir.toInt]

end Sys2Proof.Machine
end

