-- ==== Sys2Proof/Laws/Ops.lean ====
section
/-! SUPPORT. What each shared operation does: one lemma for when it is not refused and one for when it is. -/

namespace Sys2Proof.Machine

open Sys2Proof

/-! ### Sequencing -/

@[simp] theorem bind_done {α β : Type} (a : α) (s : State) (k : α → State → Res β) :
    (Res.done a s).bind k = k a s := rfl
@[simp] theorem bind_stopped {α β : Type} (s : State) (k : α → State → Res β) :
    (Res.stopped s).bind k = .stopped s := rfl
@[simp] theorem bind_raise {α β : Type} (f : FaultInfo) (s : State) (k : α → State → Res β) :
    (raise f s : Res α).bind k = raise f s := rfl
@[simp] theorem outcome_done (s : State) : (Res.done () s).outcome = .next s := rfl
@[simp] theorem outcome_stopped (s : State) : (Res.stopped s).outcome = .next s := rfl
@[simp] theorem outcome_raise (f : FaultInfo) (s : State) :
    (raise f s : Res Unit).outcome = .next (enterFault f s) := rfl
@[simp] theorem state_done {α : Type} (a : α) (s : State) : (Res.done a s).state = s := rfl
@[simp] theorem state_stopped {α : Type} (s : State) : (Res.stopped s : Res α).state = s := rfl
@[simp] theorem state_raise {α : Type} (f : FaultInfo) (s : State) : (raise f s : Res α).state = enterFault f s := rfl

/-- How a sequence can end: the first part stopped, or it was done and the second part ran. -/
theorem bind_cases {α β : Type} (r : Res α) (k : α → State → Res β) :
    (∃ s, r = .stopped s ∧ r.bind k = .stopped s) ∨ ∃ a s, r = .done a s ∧ r.bind k = k a s := by
  cases r with
  | done a s => exact .inr ⟨a, s, rfl, rfl⟩
  | stopped s => exact .inl ⟨s, rfl, rfl⟩

/-! ### What does not touch memory leaves the cells and the accesses as they are -/

@[simp] theorem setReg_cell (r : Reg) (v : Word) (s : State) (a : Int) : (setReg r v s).cell a = s.cell a := rfl
@[simp] theorem setReg_annotationAt (r : Reg) (v : Word) (s : State) (a : Int) : (setReg r v s).annotationAt a = s.annotationAt a := rfl
@[simp] theorem setReg_admitsAddr (r : Reg) (v : Word) (s : State) (a : Int) : (setReg r v s).admitsAddr a = s.admitsAddr a := rfl
@[simp] theorem setReg_admits (r : Reg) (v : Word) (s : State) (as : List Int) : (setReg r v s).admits as = s.admits as := rfl
@[simp] theorem setReg_capAfter (r : Reg) (v : Word) (s : State) (as : List Int) : (setReg r v s).capAfter as = s.capAfter as := rfl

@[simp] theorem adjust_cell (r : Reg) (k : Int) (s : State) (a : Int) : (adjust r k s).cell a = s.cell a := rfl
@[simp] theorem adjust_annotationAt (r : Reg) (k : Int) (s : State) (a : Int) : (adjust r k s).annotationAt a = s.annotationAt a := rfl
@[simp] theorem adjust_admitsAddr (r : Reg) (k : Int) (s : State) (a : Int) : (adjust r k s).admitsAddr a = s.admitsAddr a := rfl
@[simp] theorem adjust_admits (r : Reg) (k : Int) (s : State) (as : List Int) : (adjust r k s).admits as = s.admits as := rfl
@[simp] theorem adjust_capAfter (r : Reg) (k : Int) (s : State) (as : List Int) : (adjust r k s).capAfter as = s.capAfter as := rfl

@[simp] theorem diag_cell (d : Diag) (s : State) (a : Int) : (diag d s).cell a = s.cell a := rfl
@[simp] theorem diag_annotationAt (d : Diag) (s : State) (a : Int) : (diag d s).annotationAt a = s.annotationAt a := rfl
@[simp] theorem diag_admitsAddr (d : Diag) (s : State) (a : Int) : (diag d s).admitsAddr a = s.admitsAddr a := rfl
@[simp] theorem diag_admits (d : Diag) (s : State) (as : List Int) : (diag d s).admits as = s.admits as := rfl
@[simp] theorem diag_capAfter (d : Diag) (s : State) (as : List Int) : (diag d s).capAfter as = s.capAfter as := rfl

@[simp] theorem enterFault_cell (f : FaultInfo) (s : State) (a : Int) : (enterFault f s).cell a = s.cell a := rfl
@[simp] theorem enterFault_annotationAt (f : FaultInfo) (s : State) (a : Int) : (enterFault f s).annotationAt a = s.annotationAt a := rfl
@[simp] theorem enterFault_admitsAddr (f : FaultInfo) (s : State) (a : Int) : (enterFault f s).admitsAddr a = s.admitsAddr a := rfl
@[simp] theorem enterFault_admits (f : FaultInfo) (s : State) (as : List Int) : (enterFault f s).admits as = s.admits as := rfl
@[simp] theorem enterFault_capAfter (f : FaultInfo) (s : State) (as : List Int) : (enterFault f s).capAfter as = s.capAfter as := rfl

@[simp] theorem halt_cell (s : State) (a : Int) : (halt s).cell a = s.cell a := rfl
@[simp] theorem halt_annotationAt (s : State) (a : Int) : (halt s).annotationAt a = s.annotationAt a := rfl
@[simp] theorem halt_admitsAddr (s : State) (a : Int) : (halt s).admitsAddr a = s.admitsAddr a := rfl
@[simp] theorem halt_admits (s : State) (as : List Int) : (halt s).admits as = s.admits as := rfl
@[simp] theorem halt_capAfter (s : State) (as : List Int) : (halt s).capAfter as = s.capAfter as := rfl

@[simp] theorem annotate_cell (x : Int) (t : AnnText) (s : State) (a : Int) : (annotate x t s).cell a = s.cell a := rfl
@[simp] theorem annotate_admitsAddr (x : Int) (t : AnnText) (s : State) (a : Int) : (annotate x t s).admitsAddr a = s.admitsAddr a := rfl
@[simp] theorem annotate_admits (x : Int) (t : AnnText) (s : State) (as : List Int) : (annotate x t s).admits as = s.admits as := rfl
@[simp] theorem annotate_capAfter (x : Int) (t : AnnText) (s : State) (as : List Int) : (annotate x t s).capAfter as = s.capAfter as := rfl

@[simp] theorem print_cell (e : ConsoleEvent) (s : State) (a : Int) : (print e s).cell a = s.cell a := rfl
@[simp] theorem print_annotationAt (e : ConsoleEvent) (s : State) (a : Int) : (print e s).annotationAt a = s.annotationAt a := rfl
@[simp] theorem print_admitsAddr (e : ConsoleEvent) (s : State) (a : Int) : (print e s).admitsAddr a = s.admitsAddr a := rfl
@[simp] theorem print_admits (e : ConsoleEvent) (s : State) (as : List Int) : (print e s).admits as = s.admits as := rfl
@[simp] theorem print_capAfter (e : ConsoleEvent) (s : State) (as : List Int) : (print e s).capAfter as = s.capAfter as := rfl

@[simp] theorem afterFileCall_cell (s : State) (a : Int) : (afterFileCall s).cell a = s.cell a := rfl
@[simp] theorem afterFileCall_annotationAt (s : State) (a : Int) : (afterFileCall s).annotationAt a = s.annotationAt a := rfl
@[simp] theorem afterFileCall_admitsAddr (s : State) (a : Int) : (afterFileCall s).admitsAddr a = s.admitsAddr a := rfl
@[simp] theorem afterFileCall_admits (s : State) (as : List Int) : (afterFileCall s).admits as = s.admits as := rfl
@[simp] theorem afterFileCall_capAfter (s : State) (as : List Int) : (afterFileCall s).capAfter as = s.capAfter as := rfl

@[simp] theorem setFile_cell (n : FileName) (bs : List Byte) (s : State) (a : Int) : (setFile n bs s).cell a = s.cell a := rfl
@[simp] theorem setFile_annotationAt (n : FileName) (bs : List Byte) (s : State) (a : Int) : (setFile n bs s).annotationAt a = s.annotationAt a := rfl
@[simp] theorem setFile_admitsAddr (n : FileName) (bs : List Byte) (s : State) (a : Int) : (setFile n bs s).admitsAddr a = s.admitsAddr a := rfl
@[simp] theorem setFile_admits (n : FileName) (bs : List Byte) (s : State) (as : List Int) : (setFile n bs s).admits as = s.admits as := rfl
@[simp] theorem setFile_capAfter (n : FileName) (bs : List Byte) (s : State) (as : List Int) : (setFile n bs s).capAfter as = s.capAfter as := rfl

@[simp] theorem setHandle_cell (h : Nat) (st : Stream) (s : State) (a : Int) : (setHandle h st s).cell a = s.cell a := rfl
@[simp] theorem setHandle_annotationAt (h : Nat) (st : Stream) (s : State) (a : Int) : (setHandle h st s).annotationAt a = s.annotationAt a := rfl
@[simp] theorem setHandle_admitsAddr (h : Nat) (st : Stream) (s : State) (a : Int) : (setHandle h st s).admitsAddr a = s.admitsAddr a := rfl
@[simp] theorem setHandle_admits (h : Nat) (st : Stream) (s : State) (as : List Int) : (setHandle h st s).admits as = s.admits as := rfl
@[simp] theorem setHandle_capAfter (h : Nat) (st : Stream) (s : State) (as : List Int) : (setHandle h st s).capAfter as = s.capAfter as := rfl

@[simp] theorem removeHandle_cell (h : Nat) (s : State) (a : Int) : (removeHandle h s).cell a = s.cell a := rfl
@[simp] theorem removeHandle_annotationAt (h : Nat) (s : State) (a : Int) : (removeHandle h s).annotationAt a = s.annotationAt a := rfl
@[simp] theorem removeHandle_admitsAddr (h : Nat) (s : State) (a : Int) : (removeHandle h s).admitsAddr a = s.admitsAddr a := rfl
@[simp] theorem removeHandle_admits (h : Nat) (s : State) (as : List Int) : (removeHandle h s).admits as = s.admits as := rfl
@[simp] theorem removeHandle_capAfter (h : Nat) (s : State) (as : List Int) : (removeHandle h s).capAfter as = s.capAfter as := rfl

@[simp] theorem answered_cell (h : HostState) (s : State) (a : Int) : (answered h s).cell a = s.cell a := rfl
@[simp] theorem answered_annotationAt (h : HostState) (s : State) (a : Int) : (answered h s).annotationAt a = s.annotationAt a := rfl
@[simp] theorem answered_admitsAddr (h : HostState) (s : State) (a : Int) : (answered h s).admitsAddr a = s.admitsAddr a := rfl
@[simp] theorem answered_admits (h : HostState) (s : State) (as : List Int) : (answered h s).admits as = s.admits as := rfl
@[simp] theorem answered_capAfter (h : HostState) (s : State) (as : List Int) : (answered h s).capAfter as = s.capAfter as := rfl

@[simp] theorem latch_cell (r : InstrRecord) (i : Int) (s : State) (a : Int) : (latch r i s).cell a = s.cell a := rfl
@[simp] theorem latch_annotationAt (r : InstrRecord) (i : Int) (s : State) (a : Int) : (latch r i s).annotationAt a = s.annotationAt a := rfl
@[simp] theorem latch_admitsAddr (r : InstrRecord) (i : Int) (s : State) (a : Int) : (latch r i s).admitsAddr a = s.admitsAddr a := rfl
@[simp] theorem latch_admits (r : InstrRecord) (i : Int) (s : State) (as : List Int) : (latch r i s).admits as = s.admits as := rfl
@[simp] theorem latch_capAfter (r : InstrRecord) (i : Int) (s : State) (as : List Int) : (latch r i s).capAfter as = s.capAfter as := rfl

/-! ### Accesses -/

theorem admitsAddr_iff (s : State) (a : Int) :
    s.admitsAddr a = true ↔ 0 ≤ a ∧ a < (s.cap : Int) + s.params.growInc := by
  simp [State.admitsAddr]

theorem lt_cap_of_admits {s : State} {a : Int} (h : s.admitsAddr a = true) : a.toNat < (touch a s).cap := by
  have := (admitsAddr_iff s a).1 h
  simp only [touch_cap, capAfterAccess]
  split <;> omega

@[simp] theorem admits_nil (s : State) : s.admits [] = true := rfl

theorem admits_cons (s : State) (a : Int) (as : List Int) :
    s.admits (a :: as) = (s.admitsAddr a && (touch a s).admits as) := by
  simp [State.admits, State.admitsAddr, admitsFrom]

@[simp] theorem capAfter_nil (s : State) : s.capAfter [] = s.cap := rfl

theorem capAfter_cons (s : State) (a : Int) (as : List Int) : s.capAfter (a :: as) = (touch a s).capAfter as := by
  simp [State.capAfter]

/-- Growth shows zero words only. -/
@[simp] theorem touch_cell (a : Int) (s : State) (b : Int) : (touch a s).cell b = s.cell b := by
  unfold touch
  split
  · rfl
  · simp only [State.cell, grow_cap, grow_mem, memGet_sparseBelow, unlistedWord]
    split_ifs <;> first | rfl | omega

@[simp] theorem touch_annotationAt (a : Int) (s : State) (b : Int) : (touch a s).annotationAt b = s.annotationAt b := by
  unfold touch
  split
  · rfl
  · simp only [State.annotationAt, grow_cap, grow_ann, sparseGet_sparseBelow]
    split_ifs <;> first | rfl | omega

/-- A cell below the capacity is what the memory lists. -/
theorem memGet_of_admits {s : State} {a : Int} (h : s.admitsAddr a = true) :
    memGet (touch a s).mem a.toNat = s.cell a := by
  rw [← touch_cell a s a, State.cell, if_pos]
  have h1 := lt_cap_of_admits h
  have h2 := (admitsAddr_iff s a).1 h
  omega

/-- `MemRead` where the access is not refused: the cell's word, and nothing but the capacity can change. -/
theorem memRead_eq {s : State} {a : Int} (h : s.admitsAddr a = true) : memRead a s = .done (s.cell a) (touch a s) := by
  simp [memRead, access, h, memGet_of_admits h]

/-- `MemRead` where the access is refused. -/
theorem memRead_refused {s : State} {a : Int} (h : s.admitsAddr a = false) :
    memRead a s = raise (.addressFault a s.ia) s := by
  simp [memRead, access, h]

/-- The state after a write of `v` to the admitted address `a`. -/
def written (a : Int) (v : Word) (s : State) : State := storeCell a.toNat v (touch a s)

/-- `MemWrite` where the access is not refused. -/
theorem memWrite_eq {s : State} {a : Int} (v : Word) (h : s.admitsAddr a = true) :
    memWrite a v s = .done () (written a v s) := by
  simp [memWrite, access, h, written]

/-- `MemWrite` where the access is refused. -/
theorem memWrite_refused {s : State} {a : Int} (v : Word) (h : s.admitsAddr a = false) :
    memWrite a v s = raise (.addressFault a s.ia) s := by
  simp [memWrite, access, h]

@[simp] theorem written_params (a : Int) (v : Word) (s : State) : (written a v s).params = s.params := by simp [written]
@[simp] theorem written_regs (a : Int) (v : Word) (s : State) : (written a v s).regs = s.regs := by simp [written]
@[simp] theorem written_ir (a : Int) (v : Word) (s : State) : (written a v s).ir = s.ir := by simp [written]
@[simp] theorem written_ops (a : Int) (v : Word) (s : State) : (written a v s).ops = s.ops := by simp [written]
@[simp] theorem written_ia (a : Int) (v : Word) (s : State) : (written a v s).ia = s.ia := by simp [written]
@[simp] theorem written_rs (a : Int) (v : Word) (s : State) : (written a v s).rs = s.rs := by simp [written]
@[simp] theorem written_waiting (a : Int) (v : Word) (s : State) : (written a v s).waiting = s.waiting := by simp [written]
@[simp] theorem written_handles (a : Int) (v : Word) (s : State) : (written a v s).handles = s.handles := by simp [written]
@[simp] theorem written_host (a : Int) (v : Word) (s : State) : (written a v s).host = s.host := by simp [written]
@[simp] theorem written_reg (a : Int) (v : Word) (s : State) (q : Reg) : (written a v s).reg q = s.reg q := by
  simp [written]
@[simp] theorem written_dir (a : Int) (v : Word) (s : State) : (written a v s).dir = s.dir := by simp [written]
@[simp] theorem written_cap (a : Int) (v : Word) (s : State) : (written a v s).cap = (touch a s).cap := rfl
@[simp] theorem written_admitsAddr (a : Int) (v : Word) (s : State) (b : Int) :
    (written a v s).admitsAddr b = (touch a s).admitsAddr b := rfl
@[simp] theorem written_admits (a : Int) (v : Word) (s : State) (as : List Int) :
    (written a v s).admits as = (touch a s).admits as := rfl
@[simp] theorem written_capAfter (a : Int) (v : Word) (s : State) (as : List Int) :
    (written a v s).capAfter as = (touch a s).capAfter as := rfl
@[simp] theorem written_annotationAt (a : Int) (v : Word) (s : State) (b : Int) :
    (written a v s).annotationAt b = s.annotationAt b := by
  rw [← touch_annotationAt a s b]; rfl

theorem written_cell {s : State} {a : Int} (v : Word) (h : s.admitsAddr a = true) (b : Int) :
    (written a v s).cell b = if b = a then v else s.cell b := by
  have h1 := lt_cap_of_admits h
  have h2 := (admitsAddr_iff s a).1 h
  rw [← touch_cell a s b]
  unfold written
  simp only [State.cell, storeCell_cap, storeCell_mem, memGet_memSet]
  split_ifs <;> first | rfl | omega

theorem written_events {s : State} {a : Int} (v : Word) (h : s.admitsAddr a = true) :
    (written a v s).events = s.events ++ [.mem a.toNat (s.cell a)] := by
  rw [written, storeCell_events, memGet_of_admits h, touch_events]

/-- A listener sees the cell written. -/
theorem written_views (a : Int) (v : Word) (s : State) :
    (written a v s).views = s.views ++ s.heard [(written a v s).view] := by
  rw [written, storeCell_views, touch_views, touch_heard]

/-- An annotation shows on its own cell only. -/
theorem annotate_annotationAt {s : State} {a : Int} (x : AnnText) (h : 0 ≤ a) (h' : a < s.cap) (b : Int) :
    (annotate a x s).annotationAt b =
      if b = a then some { text := x, tag := Config.annotationTag x } else s.annotationAt b := by
  simp only [State.annotationAt, annotate_cap, annotate_ann, sparseGet_sparseSet]
  split_ifs <;> first | rfl | omega

/-- An annotation of any cell leaves every other cell's as it is. -/
theorem annotate_annotationAt_ne {s : State} {a b : Int} (x : AnnText) (h : 0 ≤ a) (hb : b ≠ a) :
    (annotate a x s).annotationAt b = s.annotationAt b := by
  simp only [State.annotationAt, annotate_cap, annotate_ann, sparseGet_sparseSet]
  split_ifs <;> first | rfl | omega

/-! ### Displaced addresses -/

theorem disp_congr {s t : State} {r : Reg} (hr : t.reg r = s.reg r) (hd : t.dir = s.dir) (k : Int) :
    disp t r k = disp s r k := by
  rw [disp, disp, hr, hd]

@[simp] theorem disp_zero (s : State) (r : Reg) : disp s r 0 = s.reg r := by simp [disp_eq]

/-- A displaced address displaced again. -/
theorem disp_disp {s t : State} {r q : Reg} {j : Int} (hr : t.reg q = disp s r j) (hd : t.dir = s.dir) (k : Int) :
    disp t q k = disp s r (j + k) := by
  rw [disp_eq, disp_eq, hr, disp_eq, hd, add_mul, word_add, BitVec.add_assoc]

@[simp] theorem disp_adjust (s : State) (r : Reg) (j k : Int) : disp (adjust r j s) r k = disp s r (j + k) :=
  disp_disp (by simp) (adjust_dir ..) k
@[simp] theorem disp_setReg_self (s : State) (r : Reg) (v : Word) (k : Int) :
    disp (setReg r v s) r k = v + word (k * s.dir) := by simp [disp_eq]
@[simp] theorem disp_touch (s : State) (a : Int) (r : Reg) (k : Int) : disp (touch a s) r k = disp s r k := by
  simp [disp_eq]
@[simp] theorem disp_written (s : State) (a : Int) (v : Word) (r : Reg) (k : Int) :
    disp (written a v s) r k = disp s r k := by simp [disp_eq]
@[simp] theorem disp_answered (h : HostState) (s : State) (r : Reg) (k : Int) :
    disp (answered h s) r k = disp s r k := disp_congr rfl rfl k
@[simp] theorem disp_annotate (s : State) (a : Int) (x : AnnText) (r : Reg) (k : Int) :
    disp (annotate a x s) r k = disp s r k := disp_congr rfl rfl k

/-! ### The stack -/

/-- `Pop()` where the access is not refused. -/
theorem pop_eq {s : State} (h : s.admitsAddr (sint (s.reg .sp)) = true) :
    pop s = .done (s.cell (sint (s.reg .sp))) (adjust .sp (-1) (touch (sint (s.reg .sp)) s)) := by
  simp [pop, memRead_eq h]

theorem pop_refused {s : State} (h : s.admitsAddr (sint (s.reg .sp)) = false) :
    pop s = raise (.addressFault (sint (s.reg .sp)) s.ia) s := by
  simp [pop, memRead_refused h]

/-- `Push(v)` where the access is not refused. -/
theorem push_eq {s : State} (v : Word) (h : s.admitsAddr (sint (disp s .sp 1)) = true) :
    push v s = .done () (written (sint (disp s .sp 1)) v (adjust .sp 1 s)) := by
  simp only [push, adjust_reg, if_true]
  exact memWrite_eq v (s := adjust .sp 1 s) h

/-- `Push(v)` where the access is refused: SP has moved (60_exceptions.md R196). -/
theorem push_refused {s : State} (v : Word) (h : s.admitsAddr (sint (disp s .sp 1)) = false) :
    push v s = raise (.addressFault (sint (disp s .sp 1)) s.ia) (adjust .sp 1 s) := by
  simp only [push, adjust_reg, if_true]
  exact memWrite_refused v (s := adjust .sp 1 s) h

/-- What the listeners see of a push: SP moved first, then the word written (70_reset_and_hazards.md R224). -/
theorem push_views (a : Int) (v : Word) (s : State) :
    (written a v (adjust .sp 1 s)).views =
      s.views ++ s.heard [(adjust .sp 1 s).view, (written a v (adjust .sp 1 s)).view] := by
  rw [written_views, adjust_views, adjust_heard, List.append_assoc, heard_append, List.singleton_append]

theorem popStringUpTo_succ (n : Nat) (s : State) :
    popStringUpTo (n + 1) s = (pop s).bind fun c s =>
      if c = 0 then .done [] s else (popStringUpTo n s).bind fun cs s => .done (c :: cs) s := rfl

/-- `PopString()` takes a step at a time: its bound is not zero. -/
theorem popString_eq (s : State) :
    popString s = (pop s).bind fun c s =>
      if c = 0 then .done [] s
      else (popStringUpTo (2 ^ 32 - 1) s).bind fun cs s => .done (c :: cs) s := by
  exact popStringUpTo_succ (2 ^ 32 - 1) s

/-- `PopString()` where its first access is refused. -/
theorem popString_refused {s : State} (h : s.admitsAddr (sint (s.reg .sp)) = false) :
    popString s = raise (.addressFault (sint (s.reg .sp)) s.ia) s := by
  rw [popString_eq, pop_refused h, bind_raise]

/-! ### Checks -/

/-- The number of a register names it. -/
theorem regOperand_numberOfReg (r : Reg) : regOperand (BitVec.ofNat 32 (numberOfReg r)) = some r := by
  cases r <;> rfl

@[simp] theorem checkReg_numberOfReg (r : Reg) (s : State) :
    checkReg (BitVec.ofNat 32 (numberOfReg r)) s = .done r s := by
  rw [checkReg, regOperand_numberOfReg]

theorem checkReg_some {r : Word} {x : Reg} (s : State) (h : regOperand r = some x) : checkReg r s = .done x s := by
  simp [checkReg, h]

theorem checkReg_none {r : Word} (s : State) (h : regOperand r = none) :
    checkReg r s = raise (.invalidRegister (uint r) s.ia) s := by
  simp [checkReg, h]

theorem checkCount_ok {least : Int} {n : Word} (s : State) (h : least ≤ sint n) : checkCount least n s = .done () s := by
  simp [checkCount, not_lt.2 h]

theorem checkCount_bad {least : Int} {n : Word} (s : State) (h : sint n < least) :
    checkCount least n s = raise (.invalidCount (sint n) s.ia) s := by
  simp [checkCount, h]

end Sys2Proof.Machine
end

