-- ==== Sys2Proof/Laws/Blocks.lean ====
section
/-! SUPPORT. The block primitives of 42_load_store.md R139: what reading and writing a block of cells does. -/

namespace Sys2Proof.Machine

open Sys2Proof

/-! ### The addresses of a block -/

@[simp] theorem blockAddrs_zero (b stride : Int) : blockAddrs b stride 0 = [] := rfl

@[simp] theorem blockAddrs_length (b stride : Int) (n : Nat) : (blockAddrs b stride n).length = n := by
  simp [blockAddrs]

theorem blockAddrs_succ (b stride : Int) (n : Nat) :
    blockAddrs b stride (n + 1) = addr b :: blockAddrs (b + stride) stride n := by
  simp only [blockAddrs, List.range_succ_eq_map, List.map_cons, List.map_map, Nat.cast_zero, zero_mul, add_zero]
  congr 1
  refine List.map_congr_left fun i _ => ?_
  simp only [Function.comp]
  congr 1
  push_cast
  ring

theorem mem_blockAddrs {b stride : Int} {n : Nat} {a : Int} :
    a ∈ blockAddrs b stride n ↔ ∃ i < n, addr (b + i * stride) = a := by
  simp [blockAddrs]

theorem getElem_blockAddrs {b stride : Int} {n i : Nat} (h : i < (blockAddrs b stride n).length) :
    (blockAddrs b stride n)[i] = addr (b + i * stride) := by
  simp [blockAddrs]

/-- Up to 2^32 words one apart are distinct cells. -/
theorem blockAddrs_nodup {b stride : Int} {n : Nat} (hs : stride = 1 ∨ stride = -1) (hn : n ≤ 2 ^ 32) :
    (blockAddrs b stride n).Nodup := by
  refine List.Nodup.map_on (fun i hi j hj h => ?_) List.nodup_range
  rw [List.mem_range] at hi hj
  have h2 := addr_inj_of_close h (by rcases hs with rfl | rfl <;> rw [abs_lt] <;> constructor <;> omega)
  rcases hs with rfl | rfl <;> omega

theorem blockAddrs_nodup_dir (b : Int) (s : State) (n : Word) : (blockAddrs b s.dir (sint n).toNat).Nodup := by
  have := sint_range n
  exact blockAddrs_nodup (dir_eq _) (by omega)

/-! ### Reading a block -/

/-- What the accesses do to the capacity, in order. -/
def touchAll (as : List Int) (s : State) : State := as.foldl (fun s a => touch a s) s

@[simp] theorem touchAll_nil (s : State) : touchAll [] s = s := rfl
@[simp] theorem touchAll_cons (a : Int) (as : List Int) (s : State) : touchAll (a :: as) s = touchAll as (touch a s) := rfl

theorem admits_append (as bs : List Int) (s : State) :
    s.admits (as ++ bs) = (s.admits as && (touchAll as s).admits bs) := by
  induction as generalizing s with
  | nil => simp
  | cons a as ih => simp [admits_cons, ih, Bool.and_assoc]

theorem capAfter_append (as bs : List Int) (s : State) : s.capAfter (as ++ bs) = (touchAll as s).capAfter bs := by
  induction as generalizing s with
  | nil => rfl
  | cons a as ih => simp [capAfter_cons, ih]

/-- Memory never shrinks, and what was accessed has a cell from then on. -/
theorem lt_capAfter {s : State} {as : List Int} (h : s.admits as = true) :
    s.cap ≤ s.capAfter as ∧ ∀ a ∈ as, 0 ≤ a ∧ a < s.capAfter as := by
  induction as generalizing s with
  | nil => simp
  | cons b as ih =>
    rw [admits_cons, Bool.and_eq_true] at h
    obtain ⟨h1, h2⟩ := ih h.2
    have hb := (admitsAddr_iff _ _).1 h.1
    have hc := lt_cap_of_admits h.1
    rw [capAfter_cons]
    refine ⟨le_trans ?_ h1, fun a ha => ?_⟩
    · rw [touch_cap, capAfterAccess]; split <;> omega
    · rcases List.mem_cons.1 ha with rfl | ha
      · omega
      · exact h2 a ha

/-- Accesses to cells that are there are not refused and grow nothing. -/
theorem touchAll_of_lt {s : State} {as : List Int} (h : ∀ a ∈ as, 0 ≤ a ∧ a < s.cap) :
    s.admits as = true ∧ touchAll as s = s := by
  induction as with
  | nil => simp
  | cons b as ih =>
    obtain ⟨h1, h2⟩ := h b (by simp)
    have hb : touch b s = s := by rw [touch, if_pos h2]
    rw [admits_cons, touchAll_cons, hb, Bool.and_eq_true, admitsAddr_iff]
    obtain ⟨i1, i2⟩ := ih fun a ha => h a (by simp [ha])
    exact ⟨⟨by omega, i1⟩, i2⟩

@[simp] theorem touchAll_params (as : List Int) (s : State) : (touchAll as s).params = s.params := by
  induction as generalizing s with
  | nil => rfl
  | cons a as ih => rw [touchAll_cons, ih, touch_params]
@[simp] theorem touchAll_regs (as : List Int) (s : State) : (touchAll as s).regs = s.regs := by
  induction as generalizing s with
  | nil => rfl
  | cons a as ih => rw [touchAll_cons, ih, touch_regs]
@[simp] theorem touchAll_ir (as : List Int) (s : State) : (touchAll as s).ir = s.ir := by
  induction as generalizing s with
  | nil => rfl
  | cons a as ih => rw [touchAll_cons, ih, touch_ir]
@[simp] theorem touchAll_ops (as : List Int) (s : State) : (touchAll as s).ops = s.ops := by
  induction as generalizing s with
  | nil => rfl
  | cons a as ih => rw [touchAll_cons, ih, touch_ops]
@[simp] theorem touchAll_ia (as : List Int) (s : State) : (touchAll as s).ia = s.ia := by
  induction as generalizing s with
  | nil => rfl
  | cons a as ih => rw [touchAll_cons, ih, touch_ia]
@[simp] theorem touchAll_rs (as : List Int) (s : State) : (touchAll as s).rs = s.rs := by
  induction as generalizing s with
  | nil => rfl
  | cons a as ih => rw [touchAll_cons, ih, touch_rs]
@[simp] theorem touchAll_waiting (as : List Int) (s : State) : (touchAll as s).waiting = s.waiting := by
  induction as generalizing s with
  | nil => rfl
  | cons a as ih => rw [touchAll_cons, ih, touch_waiting]
@[simp] theorem touchAll_handles (as : List Int) (s : State) : (touchAll as s).handles = s.handles := by
  induction as generalizing s with
  | nil => rfl
  | cons a as ih => rw [touchAll_cons, ih, touch_handles]
@[simp] theorem touchAll_host (as : List Int) (s : State) : (touchAll as s).host = s.host := by
  induction as generalizing s with
  | nil => rfl
  | cons a as ih => rw [touchAll_cons, ih, touch_host]
@[simp] theorem touchAll_events (as : List Int) (s : State) : (touchAll as s).events = s.events := by
  induction as generalizing s with
  | nil => rfl
  | cons a as ih => rw [touchAll_cons, ih, touch_events]
@[simp] theorem touchAll_cap (as : List Int) (s : State) : (touchAll as s).cap = s.capAfter as := by
  induction as generalizing s with
  | nil => rfl
  | cons a as ih => rw [touchAll_cons, ih, capAfter_cons]
@[simp] theorem touchAll_reg (as : List Int) (s : State) (q : Reg) : (touchAll as s).reg q = s.reg q := by
  simp [State.reg]
@[simp] theorem touchAll_dir (as : List Int) (s : State) : (touchAll as s).dir = s.dir := by simp [State.dir]
@[simp] theorem touchAll_cell (as : List Int) (s : State) (b : Int) : (touchAll as s).cell b = s.cell b := by
  induction as generalizing s with
  | nil => rfl
  | cons a as ih => rw [touchAll_cons, ih, touch_cell]
@[simp] theorem touchAll_annotationAt (as : List Int) (s : State) (b : Int) :
    (touchAll as s).annotationAt b = s.annotationAt b := by
  induction as generalizing s with
  | nil => rfl
  | cons a as ih => rw [touchAll_cons, ih, touch_annotationAt]

/-- Reading a block where no access is refused: the cells' words in order. -/
theorem readBlock_eq {b stride : Int} {n : Nat} {s : State} (h : s.admits (blockAddrs b stride n) = true) :
    readBlock b stride n s =
      .done ((blockAddrs b stride n).map s.cell) (touchAll (blockAddrs b stride n) s) := by
  induction n generalizing b s with
  | zero => simp [readBlock]
  | succ n ih =>
    rw [blockAddrs_succ, admits_cons, Bool.and_eq_true] at h
    rw [readBlock, memRead_eq h.1, bind_done, ih h.2, bind_done, blockAddrs_succ]
    simp

/-- Reading a block where the access to word `j` is refused: the reads before it, and the fault. -/
theorem readBlock_refused {b stride : Int} {n j : Nat} {s : State} (hj : j < n)
    (h : s.admits (blockAddrs b stride j) = true)
    (hr : (touchAll (blockAddrs b stride j) s).admitsAddr (addr (b + j * stride)) = false) :
    readBlock b stride n s =
      raise (.addressFault (addr (b + j * stride)) s.ia) (touchAll (blockAddrs b stride j) s) := by
  induction j generalizing b s n with
  | zero =>
    obtain ⟨n, rfl⟩ := Nat.exists_eq_succ_of_ne_zero (Nat.ne_of_gt hj)
    simp only [blockAddrs_zero, touchAll_nil, Nat.cast_zero, zero_mul, add_zero] at hr ⊢
    rw [readBlock, memRead_refused hr, bind_raise]
  | succ j ih =>
    obtain ⟨n, rfl⟩ := Nat.exists_eq_succ_of_ne_zero (Nat.ne_of_gt (Nat.zero_lt_of_lt hj))
    have e : b + ((j + 1 : Nat) : Int) * stride = b + stride + (j : Int) * stride := by push_cast; ring
    rw [blockAddrs_succ, admits_cons, Bool.and_eq_true] at h
    rw [blockAddrs_succ, touchAll_cons, e] at hr
    rw [readBlock, memRead_eq h.1, bind_done, ih (by omega) h.2 hr, bind_raise, blockAddrs_succ, touchAll_cons, e, touch_ia]

/-! ### Writing a block -/

/-- What writing the words `vs` at `as` did, from `s` to `t`. -/
structure Wrote (as : List Int) (vs : List Word) (s t : State) : Prop where
  params : t.params = s.params
  regs : t.regs = s.regs
  ir : t.ir = s.ir
  ops : t.ops = s.ops
  ia : t.ia = s.ia
  rs : t.rs = s.rs
  waiting : t.waiting = s.waiting
  handles : t.handles = s.handles
  host : t.host = s.host
  cap : t.cap = s.capAfter as
  others : ∀ a, a ∉ as → t.cell a = s.cell a
  stored : ∀ i (h : i < as.length) (h' : i < vs.length), t.cell as[i] = vs[i]
  anns : ∀ a, a ∉ as → t.annotationAt a = s.annotationAt a
  events : t.events = s.events ++ as.map fun a => .mem a.toNat (s.cell a)

theorem admits_congr {s t : State} (hp : t.params = s.params) (hc : t.cap = s.cap) (as : List Int) :
    t.admits as = s.admits as := by
  simp [State.admits, hp, hc]

theorem capAfter_congr {s t : State} (hp : t.params = s.params) (hc : t.cap = s.cap) (as : List Int) :
    t.capAfter as = s.capAfter as := by
  simp [State.capAfter, hp, hc]

/-- One write of a block, with its annotation. -/
def writtenWith (a : Int) (v : Word) (text : Option AnnText) (s : State) : State :=
  match text with
  | some x => annotate a x (written a v s)
  | none => written a v s

theorem writtenWith_events {s : State} {a : Int} (v : Word) (x : Option AnnText) (h : s.admitsAddr a = true) :
    (writtenWith a v x s).events = s.events ++ [.mem a.toNat (s.cell a)] := by
  cases x <;> simp [writtenWith, written_events v h]

theorem writtenWith_cell {s : State} {a : Int} (v : Word) (x : Option AnnText) (h : s.admitsAddr a = true) (b : Int) :
    (writtenWith a v x s).cell b = if b = a then v else s.cell b := by
  cases x <;> simp [writtenWith, written_cell v h]

theorem writtenWith_annotationAt_ne {s : State} {a b : Int} (v : Word) (x : Option AnnText)
    (h : s.admitsAddr a = true) (hb : b ≠ a) : (writtenWith a v x s).annotationAt b = s.annotationAt b := by
  have h0 := ((admitsAddr_iff s a).1 h).1
  cases x with
  | none => simp [writtenWith]
  | some x => rw [writtenWith, annotate_annotationAt_ne x h0 hb, written_annotationAt]

@[simp] theorem writtenWith_params (a : Int) (v : Word) (x : Option AnnText) (s : State) :
    (writtenWith a v x s).params = s.params := by cases x <;> simp [writtenWith]
@[simp] theorem writtenWith_regs (a : Int) (v : Word) (x : Option AnnText) (s : State) :
    (writtenWith a v x s).regs = s.regs := by cases x <;> simp [writtenWith]
@[simp] theorem writtenWith_ir (a : Int) (v : Word) (x : Option AnnText) (s : State) :
    (writtenWith a v x s).ir = s.ir := by cases x <;> simp [writtenWith]
@[simp] theorem writtenWith_ops (a : Int) (v : Word) (x : Option AnnText) (s : State) :
    (writtenWith a v x s).ops = s.ops := by cases x <;> simp [writtenWith]
@[simp] theorem writtenWith_ia (a : Int) (v : Word) (x : Option AnnText) (s : State) :
    (writtenWith a v x s).ia = s.ia := by cases x <;> simp [writtenWith]
@[simp] theorem writtenWith_rs (a : Int) (v : Word) (x : Option AnnText) (s : State) :
    (writtenWith a v x s).rs = s.rs := by cases x <;> simp [writtenWith]
@[simp] theorem writtenWith_waiting (a : Int) (v : Word) (x : Option AnnText) (s : State) :
    (writtenWith a v x s).waiting = s.waiting := by cases x <;> simp [writtenWith]
@[simp] theorem writtenWith_handles (a : Int) (v : Word) (x : Option AnnText) (s : State) :
    (writtenWith a v x s).handles = s.handles := by cases x <;> simp [writtenWith]
@[simp] theorem writtenWith_host (a : Int) (v : Word) (x : Option AnnText) (s : State) :
    (writtenWith a v x s).host = s.host := by cases x <;> simp [writtenWith]
@[simp] theorem writtenWith_cap (a : Int) (v : Word) (x : Option AnnText) (s : State) :
    (writtenWith a v x s).cap = (touch a s).cap := by cases x <;> simp [writtenWith]

/-- Writing a block where no access is refused and the cells are distinct. -/
theorem writeBlock_wrote {b stride : Int} {x : Option AnnText} {vs : List Word} {s : State}
    (h : s.admits (blockAddrs b stride vs.length) = true) (hd : (blockAddrs b stride vs.length).Nodup) :
    ∃ t, writeBlock b stride x vs s = .done () t ∧ Wrote (blockAddrs b stride vs.length) vs s t := by
  induction vs generalizing b s with
  | nil => exact ⟨s, rfl, by constructor <;> simp⟩
  | cons v vs ih =>
    rw [List.length_cons, blockAddrs_succ] at h hd ⊢
    rw [admits_cons, Bool.and_eq_true] at h
    obtain ⟨ha, hr⟩ := h
    obtain ⟨hn, hd⟩ := List.nodup_cons.1 hd
    have hw : writeBlock b stride x (v :: vs) s = writeBlock (b + stride) stride x vs (writtenWith (addr b) v x s) := by
      rw [writeBlock, memWrite_eq v ha, bind_done]; cases x <;> rfl
    have hp : (writtenWith (addr b) v x s).params = (touch (addr b) s).params := by simp
    have hc : (writtenWith (addr b) v x s).cap = (touch (addr b) s).cap := by simp
    obtain ⟨t, ht, w⟩ := ih (s := writtenWith (addr b) v x s) (by rw [admits_congr hp hc]; exact hr) hd
    refine ⟨t, hw.trans ht, ?_⟩
    have hcell := writtenWith_cell v x ha
    constructor
    case params => rw [w.params, writtenWith_params]
    case regs => rw [w.regs, writtenWith_regs]
    case ir => rw [w.ir, writtenWith_ir]
    case ops => rw [w.ops, writtenWith_ops]
    case ia => rw [w.ia, writtenWith_ia]
    case rs => rw [w.rs, writtenWith_rs]
    case waiting => rw [w.waiting, writtenWith_waiting]
    case handles => rw [w.handles, writtenWith_handles]
    case host => rw [w.host, writtenWith_host]
    case cap => rw [w.cap, capAfter_congr hp hc, capAfter_cons]
    case others =>
      intro a ha'
      rw [List.mem_cons, not_or] at ha'
      rw [w.others a ha'.2, hcell, if_neg ha'.1]
    case stored =>
      intro i hi hi'
      cases i with
      | zero =>
        simp only [List.getElem_cons_zero]
        rw [w.others _ hn, hcell, if_pos rfl]
      | succ i =>
        simp only [List.getElem_cons_succ]
        exact w.stored i (by simpa using hi) (by simpa using hi')
    case anns =>
      intro a ha'
      rw [List.mem_cons, not_or] at ha'
      rw [w.anns a ha'.2, writtenWith_annotationAt_ne v x ha ha'.1]
    case events =>
      rw [w.events, writtenWith_events v x ha, List.append_assoc, List.map_cons]
      congr 1
      rw [List.singleton_append]
      congr 1
      refine List.map_congr_left fun a ha' => ?_
      rw [hcell, if_neg (fun h : a = addr b => hn (h ▸ ha'))]

/-- Writing a block is writing its first words, then the rest. -/
theorem writeBlock_append (b stride : Int) (x : Option AnnText) (vs ws : List Word) (s : State) :
    writeBlock b stride x (vs ++ ws) s =
      (writeBlock b stride x vs s).bind fun _ s => writeBlock (b + vs.length * stride) stride x ws s := by
  induction vs generalizing b s with
  | nil => simp [writeBlock]
  | cons v vs ih =>
    have e : b + ((vs.length + 1 : Nat) : Int) * stride = b + stride + (vs.length : Int) * stride := by push_cast; ring
    rw [List.cons_append, writeBlock, writeBlock, List.length_cons, e]
    rcases bind_cases (memWrite (addr b) v s) fun _ t => writeBlock (b + stride) stride x vs
        (match x with | some t' => annotate (addr b) t' t | none => t) with ⟨t, h1, h2⟩ | ⟨_, t, h1, h2⟩
    · rw [h1]; rfl
    · rw [h1]; simp only [bind_done]; exact ih _ _

/-- Writing a block where the access to word `j` is refused: the words before it are written, then the fault. -/
theorem writeBlock_refused {b stride : Int} {x : Option AnnText} {vs : List Word} {s : State} {j : Nat}
    (hj : j < vs.length) (h : s.admits (blockAddrs b stride j) = true) (hd : (blockAddrs b stride j).Nodup)
    (hr : (touchAll (blockAddrs b stride j) s).admitsAddr (addr (b + j * stride)) = false) :
    ∃ t, writeBlock b stride x vs s = raise (.addressFault (addr (b + j * stride)) s.ia) t ∧
      Wrote (blockAddrs b stride j) (vs.take j) s t := by
  have hl : (vs.take j).length = j := by simp; omega
  obtain ⟨t, ht, w⟩ := writeBlock_wrote (x := x) (vs := vs.take j) (s := s) (b := b) (stride := stride)
    (by rw [hl]; exact h) (by rw [hl]; exact hd)
  rw [hl] at w
  refine ⟨t, ?_, w⟩
  have hr' : t.admitsAddr (addr (b + j * stride)) = false := by
    rw [← hr]; simp [State.admitsAddr, w.params, w.cap]
  conv_lhs => rw [← List.take_append_drop j vs]
  rw [writeBlock_append, ht, bind_done, hl, List.drop_eq_getElem_cons hj, writeBlock, memWrite_refused _ hr', bind_raise,
    w.ia]

/-! ### The two halves of a block copy -/

/-- `LoadMulti`'s second half where no access is refused: SP moves over the words, then they are written. -/
theorem putBlock_wrote {m : Mnemonic} {vs : List Word} {s : State} (hl : vs.length ≤ 2 ^ 32)
    (h : s.admits (blockAddrs (sint (s.reg .sp) + s.dir) s.dir vs.length) = true) :
    ∃ t, putBlock m vs s = .done () t ∧
      Wrote (blockAddrs (sint (s.reg .sp) + s.dir) s.dir vs.length) vs
        (setReg .sp (word (sint (s.reg .sp) + vs.length * s.dir)) s) t := by
  have := writeBlock_wrote (x := some (.copied m)) (vs := vs) (b := sint (s.reg .sp) + s.dir) (stride := s.dir)
    (s := setReg .sp (word (sint (s.reg .sp) + vs.length * s.dir)) s) (by simpa using h)
    (blockAddrs_nodup (dir_eq _) hl)
  simpa [putBlock] using this

/-- `LoadMulti` where no access is refused: what it wrote, and where SP is. -/
theorem loadMulti_wrote {b stride : Int} {n : Word} {m : Mnemonic} {s : State} (hn : 0 ≤ sint n)
    (h : s.admits (blockAddrs b stride (sint n).toNat ++
      blockAddrs (sint (s.reg .sp) + s.dir) s.dir (sint n).toNat) = true) :
    ∃ t, loadMulti b stride n m s = .done () t ∧
      Wrote (blockAddrs (sint (s.reg .sp) + s.dir) s.dir (sint n).toNat) ((blockAddrs b stride (sint n).toNat).map s.cell)
        (setReg .sp (word (sint (s.reg .sp) + sint n * s.dir)) (touchAll (blockAddrs b stride (sint n).toNat) s)) t := by
  rw [admits_append, Bool.and_eq_true] at h
  have hr := sint_range n
  have hl : ((blockAddrs b stride (sint n).toNat).map s.cell).length = (sint n).toNat := by simp
  have := putBlock_wrote (m := m) (vs := (blockAddrs b stride (sint n).toNat).map s.cell)
    (s := touchAll (blockAddrs b stride (sint n).toNat) s) (by rw [hl]; omega) (by rw [hl]; simpa using h.2)
  rw [hl] at this
  rw [loadMulti, readBlock_eq h.1, bind_done]
  simpa [Int.toNat_of_nonneg hn] using this

/-- `StoreMulti`'s first half where no access is refused: the top words, deepest first, and SP moved back over them. -/
theorem takeBlock_eq {n : Word} {s : State}
    (h : s.admits (blockAddrs (sint (s.reg .sp) - (sint n - 1) * s.dir) s.dir (sint n).toNat) = true) :
    takeBlock n s =
      .done ((blockAddrs (sint (s.reg .sp) - (sint n - 1) * s.dir) s.dir (sint n).toNat).map s.cell)
        (setReg .sp (word (sint (s.reg .sp) - sint n * s.dir))
          (touchAll (blockAddrs (sint (s.reg .sp) - (sint n - 1) * s.dir) s.dir (sint n).toNat) s)) := by
  simp [takeBlock, readBlock_eq h]

/-! ### Pushing words in turn -/

theorem addr_congr {b b' : Int} (h : word b = word b') (i : Int) : addr (b + i) = addr (b' + i) := by
  rw [addr, addr, word_add, h, ← word_add]

theorem blockAddrs_congr {b b' : Int} (h : word b = word b') (stride : Int) (n : Nat) :
    blockAddrs b stride n = blockAddrs b' stride n :=
  List.map_congr_left fun _ _ => addr_congr h _

theorem Unchanged.trans {r r' : List Reg} {c c' n n' : List Int} {s t u : State} (h : Unchanged r c n s t)
    (k : Unchanged r' c' n' t u) : Unchanged (r ++ r') (c ++ c') (n ++ n') s u where
  params := k.params.trans h.params
  regs q hq := by
    rw [List.mem_append, not_or] at hq
    exact (k.regs q hq.2).trans (h.regs q hq.1)
  cells a ha := by
    rw [List.mem_append, not_or] at ha
    exact (k.cells a ha.2).trans (h.cells a ha.1)
  anns a ha := by
    rw [List.mem_append, not_or] at ha
    exact (k.anns a ha.2).trans (h.anns a ha.1)
  ir := k.ir.trans h.ir
  ops := k.ops.trans h.ops
  ia := k.ia.trans h.ia
  rs := k.rs.trans h.rs
  waiting := k.waiting.trans h.waiting
  handles := k.handles.trans h.handles
  host := k.host.trans h.host

theorem Unchanged.mono {r r' : List Reg} {c c' n n' : List Int} {s t : State} (h : Unchanged r c n s t)
    (hr : r ⊆ r') (hc : c ⊆ c') (hn : n ⊆ n') : Unchanged r' c' n' s t where
  params := h.params
  regs q hq := h.regs q fun hm => hq (hr hm)
  cells a ha := h.cells a fun hm => ha (hc hm)
  anns a ha := h.anns a fun hm => ha (hn hm)
  ir := h.ir
  ops := h.ops
  ia := h.ia
  rs := h.rs
  waiting := h.waiting
  handles := h.handles
  host := h.host

/-- `Push(v)` where the access is not refused: the frame. -/
theorem push_unchanged {s : State} (v : Word) (h : s.admitsAddr (sint (disp s .sp 1)) = true) :
    Unchanged [.sp] [sint (disp s .sp 1)] [] s (written (sint (disp s .sp 1)) v (adjust .sp 1 s)) := by
  have h' : (adjust .sp 1 s).admitsAddr (sint (disp s .sp 1)) = true := h
  constructor <;> simp +contextual [written_cell v h']

/-- Pushing words where no access is refused: the first one deepest. -/
theorem pushAll_wrote {vs : List Word} {s : State} (hl : vs.length ≤ 2 ^ 32)
    (h : s.admits (blockAddrs (sint (s.reg .sp) + s.dir) s.dir vs.length) = true) :
    ∃ t, pushAll vs s = .done () t ∧ t.reg .sp = disp s .sp vs.length ∧
      (∀ j, (hj : j < vs.length) → t.cell (addr (sint (s.reg .sp) + s.dir + j * s.dir)) = vs[j]) ∧
      Unchanged [.sp] (blockAddrs (sint (s.reg .sp) + s.dir) s.dir vs.length) [] s t ∧
      t.cap = s.capAfter (blockAddrs (sint (s.reg .sp) + s.dir) s.dir vs.length) ∧
      t.events = s.events ++ (List.range vs.length).flatMap fun (j : Nat) =>
        [.reg .sp (disp s .sp j) (disp s .sp (j + 1)), memEvent s (sint (disp s .sp (j + 1)))] := by
  induction vs generalizing s with
  | nil => exact ⟨s, rfl, by simp, by simp, by constructor <;> simp, rfl, by simp⟩
  | cons v vs ih =>
    have hnd := blockAddrs_nodup (b := sint (s.reg .sp) + s.dir) (stride := s.dir) (dir_eq _) hl
    have e0 : addr (sint (s.reg .sp) + s.dir) = sint (disp s .sp 1) := by rw [disp, addr, one_mul]
    simp only [List.length_cons, blockAddrs_succ, e0] at h hnd ⊢
    rw [admits_cons, Bool.and_eq_true] at h
    have ha' : (adjust .sp 1 s).admitsAddr (sint (disp s .sp 1)) = true := h.1
    generalize hu : written (sint (disp s .sp 1)) v (adjust .sp 1 s) = u
    have hun : Unchanged [.sp] [sint (disp s .sp 1)] [] s u := hu ▸ push_unchanged v h.1
    have husp : u.reg .sp = disp s .sp 1 := by simp [← hu]
    have hud : u.dir = s.dir := by simp [State.dir, hun.params]
    have huc : u.cap = (touch (sint (disp s .sp 1)) s).cap := by simp [← hu]
    have eb : blockAddrs (sint (u.reg .sp) + u.dir) u.dir vs.length =
        blockAddrs (sint (s.reg .sp) + s.dir + s.dir) s.dir vs.length := by
      rw [husp, hud]; exact blockAddrs_congr (by rw [disp, word_sint_word_add, one_mul]) _ _
    rw [← eb] at h hnd ⊢
    have hup : u.params = (touch (sint (disp s .sp 1)) s).params := by simp [hun.params]
    obtain ⟨t, ht, hsp, hst, hf, hcap, hev⟩ := ih (s := u) (by simp at hl; omega)
      (by rw [admits_congr hup huc]; exact h.2)
    refine ⟨t, ?_, ?_, ?_, ?_, ?_, ?_⟩
    · rw [pushAll, push_eq v h.1, bind_done, hu, ht]
    · rw [hsp, disp_disp (s := s) (r := .sp) (j := 1) husp hud]; congr 1; push_cast; ring
    · intro j hj
      cases j with
      | zero =>
        simp only [Nat.cast_zero, zero_mul, add_zero, e0, List.getElem_cons_zero]
        rw [hf.cells _ (List.nodup_cons.1 hnd).1, ← hu, written_cell v ha', if_pos rfl]
      | succ j =>
        rw [List.getElem_cons_succ, ← hst j (by simpa using hj)]
        congr 1
        have : word (sint (u.reg .sp) + u.dir) = word (sint (s.reg .sp) + s.dir + s.dir) := by
          rw [husp, hud, disp, word_sint_word_add, one_mul]
        rw [addr_congr this, hud]; congr 1; push_cast; ring
    · exact (hun.trans hf).mono (by simp) (by simp) (by simp)
    · rw [hcap, capAfter_congr hup huc, capAfter_cons]
    · have hue : u.events = s.events ++ [.reg .sp (s.reg .sp) (disp s .sp 1), memEvent s (sint (disp s .sp 1))] := by
        rw [← hu, written_events v ha', memEvent]; simp
      have hds : ∀ k : Int, disp u .sp k = disp s .sp (k + 1) := fun k => by
        rw [disp_disp (s := s) (r := .sp) (j := 1) husp hud, add_comm]
      have hm : ∀ j ∈ List.range vs.length, memEvent u (sint (disp u .sp (j + 1))) =
          memEvent s (sint (disp s .sp (j + 1 + 1))) := by
        intro j hj
        have hmem : sint (disp u .sp (j + 1)) ∈ blockAddrs (sint (u.reg .sp) + u.dir) u.dir vs.length := by
          refine mem_blockAddrs.2 ⟨j, List.mem_range.1 hj, ?_⟩
          rw [disp, addr]; congr 2; ring
        rw [memEvent, memEvent, hun.cells _ (by
          rw [List.mem_singleton]; intro he; exact (List.nodup_cons.1 hnd).1 (he ▸ hmem)), hds]
      rw [hev, hue, List.append_assoc, List.range_succ_eq_map]
      congr 1
      simp only [List.flatMap_cons, List.flatMap_map, Nat.cast_zero, zero_add, disp_zero, List.cons_append, List.nil_append]
      congr 2
      refine List.flatMap_congr fun j hj => ?_
      rw [hm j hj, hds, hds]; simp

end Sys2Proof.Machine
end

