-- ==== Sys2Proof/Laws/Trap.lean ====
section
/-! SUPPORT. TRAP by its sub-opcodes, and what the file service does to a name on the stack. -/

namespace Sys2Proof.Machine

open Sys2Proof

/-! ### The sub-opcodes (45_trap.md R174) -/

theorem execTrap_some {t : Word} {o : TrapOp} {s : State} (h : trapOf s.params.traps t = some o) :
    execTrap t s = (trapOp o s).outcome := by
  rw [execTrap, h]

theorem execTrap_none {t : Word} {s : State} (h : trapOf s.params.traps t = none) :
    execTrap t s = .next (diag (.unknownTrap (sint t) s.ia) s) := by
  rw [execTrap, h]

/-! ### Popping a name (R183) -/

/-- What popping did, from `s` to `t`: SP and the capacity can differ. -/
structure Popped (sp : Word) (as : List Int) (s t : State) : Prop where
  params : t.params = s.params
  sp : t.reg .sp = sp
  regs : ∀ r, r ≠ .sp → t.reg r = s.reg r
  cells : ∀ a, t.cell a = s.cell a
  anns : ∀ a, t.annotationAt a = s.annotationAt a
  ir : t.ir = s.ir
  ops : t.ops = s.ops
  ia : t.ia = s.ia
  rs : t.rs = s.rs
  waiting : t.waiting = s.waiting
  handles : t.handles = s.handles
  host : t.host = s.host
  cap : t.cap = s.capAfter as
  events : t.events = s.events ++ (List.range as.length).map fun (j : Nat) =>
    .reg .sp (disp s .sp (-(j : Int))) (disp s .sp (-(j + 1 : Int)))

/-- `Pop()` where the access is not refused. -/
theorem pop_popped {s : State} (h : s.admitsAddr (sint (s.reg .sp)) = true) :
    ∃ t, pop s = .done (s.cell (sint (s.reg .sp))) t ∧ Popped (disp s .sp (-1)) [sint (s.reg .sp)] s t := by
  refine ⟨_, pop_eq h, ?_⟩
  constructor <;> simp +contextual [capAfter_cons]

/-- `PopString()` on a name that stands on the stack, where no access is refused: the codes from the top down to the
first 0, which is popped too. -/
theorem popStringUpTo_popped {cs : List Word} {s : State} {fuel : Nat} (hf : cs.length < fuel)
    (h0 : ∀ c ∈ cs, c ≠ 0) (hc : ∀ j (h : j < cs.length), s.cell (sint (disp s .sp (-(j : Int)))) = cs[j])
    (hz : s.cell (sint (disp s .sp (-(cs.length : Int)))) = 0)
    (ha : s.admits ((List.range (cs.length + 1)).map fun (j : Nat) => sint (disp s .sp (-(j : Int)))) = true) :
    ∃ t, popStringUpTo fuel s = .done cs t ∧ Popped (disp s .sp (-(cs.length + 1 : Int)))
      ((List.range (cs.length + 1)).map fun (j : Nat) => sint (disp s .sp (-(j : Int)))) s t := by
  induction cs generalizing s fuel with
  | nil =>
    obtain ⟨n, rfl⟩ : ∃ n, fuel = n + 1 := ⟨fuel - 1, by simp at hf; omega⟩
    simp [admits_cons] at ha
    obtain ⟨t, ht, p⟩ := pop_popped ha
    refine ⟨t, ?_, ?_⟩
    · rw [popStringUpTo_succ, ht, bind_done, if_pos]; simpa using hz
    · simpa using p
  | cons c cs ih =>
    obtain ⟨n, rfl⟩ : ∃ n, fuel = n + 1 := ⟨fuel - 1, by simp at hf; omega⟩
    rw [List.range_succ_eq_map, List.map_cons, admits_cons, Bool.and_eq_true] at ha
    simp only [Nat.cast_zero, neg_zero, disp_zero, List.length_cons] at ha
    obtain ⟨t, ht, p⟩ := pop_popped ha.1
    have hd : ∀ j : Int, disp t .sp (-j) = disp s .sp (-(j + 1)) := by
      intro j
      rw [disp_disp (s := s) (r := .sp) (j := -1) p.sp (by simp [State.dir, p.params])]; congr 1; ring
    have hl : ∀ m : Nat, ((List.range m).map fun (j : Nat) => sint (disp t .sp (-(j : Int)))) =
        ((List.range m).map Nat.succ).map fun (j : Nat) => sint (disp s .sp (-(j : Int))) := by
      intro m; rw [List.map_map]; refine List.map_congr_left fun i _ => ?_
      simp [hd]
    have hadm : t.admits ((List.range (cs.length + 1)).map fun (j : Nat) => sint (disp t .sp (-(j : Int)))) = true := by
      rw [hl, admits_congr (s := touch (sint (s.reg .sp)) s) (by simp [p.params]) (by simp [p.cap, capAfter_cons])]
      exact ha.2
    obtain ⟨u, hu, q⟩ := ih (s := t) (fuel := n) (by simp at hf; omega) (fun c hc => h0 c (by simp [hc]))
      (by
        intro j hj
        have := hc (j + 1) (by simpa using hj)
        rw [hd, p.cells]; simpa using this)
      (by rw [hd, p.cells]; simpa using hz) hadm
    refine ⟨u, ?_, ?_⟩
    · have hc0 : s.cell (sint (s.reg .sp)) = c := by
        simpa only [Nat.cast_zero, neg_zero, disp_zero, List.getElem_cons_zero] using hc 0 (Nat.succ_pos _)
      rw [popStringUpTo_succ, ht, bind_done, hc0, if_neg (h0 c (by simp)), hu, bind_done]
    · constructor
      case params => rw [q.params, p.params]
      case sp => rw [q.sp, hd]; simp
      case regs => intro r hr; rw [q.regs r hr, p.regs r hr]
      case cells => intro a; rw [q.cells, p.cells]
      case anns => intro a; rw [q.anns, p.anns]
      case ir => rw [q.ir, p.ir]
      case ops => rw [q.ops, p.ops]
      case ia => rw [q.ia, p.ia]
      case rs => rw [q.rs, p.rs]
      case waiting => rw [q.waiting, p.waiting]
      case handles => rw [q.handles, p.handles]
      case host => rw [q.host, p.host]
      case events =>
        have hr : ∀ m : Nat, ((List.range m).map fun (j : Nat) =>
            ChangeEvent.reg .sp (disp t .sp (-(j : Int))) (disp t .sp (-(j + 1 : Int)))) =
            ((List.range m).map Nat.succ).map fun (j : Nat) =>
              ChangeEvent.reg .sp (disp s .sp (-(j : Int))) (disp s .sp (-(j + 1 : Int))) := by
          intro m; rw [List.map_map]; refine List.map_congr_left fun i _ => ?_
          simp only [Function.comp, Nat.succ_eq_add_one, Nat.cast_add, Nat.cast_one, hd]
        rw [q.events, p.events]
        simp only [List.length_map, List.length_range, hr, List.length_cons, List.append_assoc]
        rw [List.range_succ_eq_map (n := cs.length + 1)]
        simp
      case cap =>
        rw [q.cap, hl, List.length_cons, List.range_succ_eq_map (n := cs.length + 1), List.map_cons, capAfter_cons]
        refine capAfter_congr (by simp [p.params]) (by simp [p.cap, capAfter_cons]) _

end Sys2Proof.Machine
end

