-- ==== Sys2Proof/Laws/Chain.lean ====
section
/-! SUPPORT. What a step can do, said once: it is a chain of primitive updates, and it ends in a fault only as its last
update. An invariant of the whole machine follows from one case per update. -/

namespace Sys2Proof.Machine

open Sys2Proof

/-- The primitive updates of EXECUTE, with what is known where each is made. -/
inductive Update : State → State → Prop where
  | reg (r : Reg) (v : Word) (s : State) : Update s (setReg r v s)
  | grow (s : State) : Update s (grow s)
  | store (a : Nat) (v : Word) (s : State) (h : a < s.cap) : Update s (storeCell a v s)
  | note (a : Int) (x : AnnText) (s : State) (h : 0 ≤ a) (h' : a < s.cap) : Update s (annotate a x s)
  | diag (d : Diag) (s : State) : Update s (diag d s)
  | print (e : ConsoleEvent) (s : State) : Update s (print e s)
  | wait (p : Prompt) (s : State) : Update s { s with waiting := some p }
  | answered (is cs : List Word) (ts : List (List Word)) (s : State) :
      Update s (answered { s.host with intAnswers := is, charAnswers := cs, textAnswers := ts } s)
  | fileCall (s : State) : Update s (afterFileCall s)
  | file (n : FileName) (bs : List Byte) (s : State) : Update s (setFile n bs s)
  | handle (k : Nat) (st : Stream) (s : State)
      (h : (fileGet s.host.files st.name).isSome ∨ ∃ st', sparseGet s.handles k = some st' ∧ st'.name = st.name) :
      Update s (setHandle k st s)
  | close (k : Nat) (s : State) : Update s (removeHandle k s)

/-- Chains of primitive updates. -/
abbrev Updates : State → State → Prop := Relation.ReflTransGen Update

/-- No instruction writes the configuration or the latches (10_state.md R43, R37). -/
theorem Update.latches {s t : State} (h : Update s t) :
    t.params = s.params ∧ t.ir = s.ir ∧ t.ops = s.ops ∧ t.ia = s.ia := by
  cases h <;> exact ⟨rfl, rfl, rfl, rfl⟩

theorem Updates.latches {s t : State} (h : Updates s t) :
    t.params = s.params ∧ t.ir = s.ir ∧ t.ops = s.ops ∧ t.ia = s.ia := by
  induction h with
  | refl => exact ⟨rfl, rfl, rfl, rfl⟩
  | tail _ h ih =>
    have := h.latches
    simp_all

/-- From `s` to `t` neither a diagnostic was sent nor the waiting prompt changed. -/
def Quiet (s t : State) : Prop := t.host.diags = s.host.diags ∧ t.waiting = s.waiting

theorem Quiet.trans {s t u : State} (h : Quiet s t) (k : Quiet t u) : Quiet s u :=
  ⟨k.1.trans h.1, k.2.trans h.2⟩

/-- How a stretch of pseudocode can run from `s`: it is done after some updates, RS as before, and quietly unless it is
`loud`; or it has ended in a fault after such updates, with no diagnostic before and no prompt that waits since. -/
structure Runs {α : Type} (loud : Bool) (s : State) (r : Res α) : Prop where
  done : ∀ a t, r = .done a t → Updates s t ∧ t.rs = s.rs ∧ (loud = false → Quiet s t)
  stopped : ∀ t, r = .stopped t →
    ∃ u f, Updates s u ∧ u.rs = s.rs ∧ u.host.diags = s.host.diags ∧ (u.waiting = s.waiting ∨ u.waiting = none) ∧
      t = enterFault f u

theorem Runs.bind {α β : Type} {loud : Bool} {s : State} {r : Res α} {k : α → State → Res β} (h : Runs false s r)
    (hk : ∀ a t, r = .done a t → Runs loud t (k a t)) : Runs loud s (r.bind k) := by
  rcases bind_cases r k with ⟨t, h1, h2⟩ | ⟨a, t, h1, h2⟩
  · rw [h2]
    exact ⟨fun _ _ he => (by cases he), fun u he => (by cases he; exact h.stopped _ h1)⟩
  · rw [h2]
    obtain ⟨i1, i2, i3⟩ := h.done a t h1
    have hk := hk a t h1
    refine ⟨fun b u he => ?_, fun u he => ?_⟩
    · obtain ⟨j1, j2, j3⟩ := hk.done b u he
      exact ⟨i1.trans j1, j2.trans i2, fun hl => (i3 rfl).trans (j3 hl)⟩
    · obtain ⟨v, f, j1, j2, j3, j4, j5⟩ := hk.stopped u he
      exact ⟨v, f, i1.trans j1, j2.trans i2, j3.trans (i3 rfl).1, by rwa [(i3 rfl).2] at j4, j5⟩

theorem Runs.of_done {α : Type} {loud : Bool} {s t : State} (a : α) (h : Updates s t) (hr : t.rs = s.rs)
    (hd : loud = false → Quiet s t) : Runs loud s (.done a t) :=
  ⟨fun _ _ he => (by cases he; exact ⟨h, hr, hd⟩), fun _ he => (by cases he)⟩

theorem Runs.of_raise {α : Type} {loud : Bool} (f : FaultInfo) (s : State) : Runs loud s (raise f s : Res α) :=
  ⟨fun _ _ he => (by cases he), fun _ he => (by cases he; exact ⟨s, f, .refl, rfl, rfl, .inl rfl, rfl⟩)⟩

/-- A quiet stretch may stand where a loud one may. -/
theorem Runs.toLoud {α : Type} {loud : Bool} {s : State} {r : Res α} (h : Runs false s r) : Runs loud s r :=
  ⟨fun a t he => ⟨(h.done a t he).1, (h.done a t he).2.1, fun _ => (h.done a t he).2.2 rfl⟩, h.stopped⟩

/-- The state before may have been updated first, quietly. -/
theorem Runs.after {α : Type} {loud : Bool} {s t : State} {r : Res α} (h : Runs loud t r) (hu : Updates s t)
    (hr : t.rs = s.rs) (hd : Quiet s t) : Runs loud s r :=
  ⟨fun a u he => ⟨hu.trans (h.done a u he).1, (h.done a u he).2.1.trans hr, fun hl => hd.trans ((h.done a u he).2.2 hl)⟩,
    fun u he => by
      obtain ⟨v, f, i1, i2, i3, i4, i5⟩ := h.stopped u he
      exact ⟨v, f, hu.trans i1, i2.trans hr, i3.trans hd.1, by rwa [hd.2] at i4, i5⟩⟩

/-- A prompt may have been answered first. -/
theorem Runs.afterAnswer {α : Type} {s t : State} {r : Res α} (h : Runs false t r) (hu : Updates s t)
    (hr : t.rs = s.rs) (hd : t.host.diags = s.host.diags) (hw : t.waiting = none) : Runs true s r :=
  ⟨fun a u he => ⟨hu.trans (h.done a u he).1, (h.done a u he).2.1.trans hr, fun hl => by cases hl⟩,
    fun u he => by
      obtain ⟨v, f, i1, i2, i3, i4, i5⟩ := h.stopped u he
      exact ⟨v, f, hu.trans i1, i2.trans hr, i3.trans hd, .inr (by rcases i4 with i4 | i4 <;> simp [i4, hw]), i5⟩⟩

theorem Updates.one {s t : State} (h : Update s t) : Updates s t := .single h

/-! ### The shared operations -/

theorem updates_adjust (r : Reg) (k : Int) (s : State) : Updates s (adjust r k s) := .one (.reg r _ s)

theorem updates_touch (a : Int) (s : State) : Updates s (touch a s) := by
  unfold touch; split
  · exact .refl
  · exact .one (.grow s)

theorem updates_written {a : Int} (v : Word) {s : State} (h : s.admitsAddr a = true) : Updates s (written a v s) :=
  (updates_touch a s).trans (.single (.store _ v _ (lt_cap_of_admits h)))

theorem runs_memRead (a : Int) (s : State) : Runs false s (memRead a s) := by
  cases h : s.admitsAddr a with
  | true => rw [memRead_eq h]; exact .of_done _ (updates_touch a s) (by simp) fun _ => ⟨by simp, by simp⟩
  | false => rw [memRead_refused h]; exact .of_raise _ _

theorem runs_memWrite (a : Int) (v : Word) (s : State) : Runs false s (memWrite a v s) := by
  cases h : s.admitsAddr a with
  | true => rw [memWrite_eq v h]; exact .of_done _ (updates_written v h) (by simp) fun _ => ⟨by simp, by simp⟩
  | false => rw [memWrite_refused v h]; exact .of_raise _ _

/-- What was written has a cell. -/
theorem memWrite_cell {a : Int} {v : Word} {s t : State} (h : memWrite a v s = .done () t) : 0 ≤ a ∧ a < t.cap := by
  cases ha : s.admitsAddr a with
  | true =>
    rw [memWrite_eq v ha] at h
    cases h
    have := lt_cap_of_admits ha
    have := (admitsAddr_iff _ _).1 ha
    rw [written_cap]; omega
  | false => rw [memWrite_refused v ha] at h; cases h

theorem runs_push (v : Word) (s : State) : Runs false s (push v s) := by
  have h := runs_memWrite (sint (disp s .sp 1)) v (adjust .sp 1 s)
  rw [push]
  simp only [adjust_reg, if_true]
  refine ⟨fun a t he => ?_, fun t he => ?_⟩
  · exact (h.after (updates_adjust .sp 1 s) rfl ⟨rfl, rfl⟩).done a t he
  · exact (h.after (updates_adjust .sp 1 s) rfl ⟨rfl, rfl⟩).stopped t he

/-- What was pushed stands at SP, in a cell. -/
theorem push_top {v : Word} {s t : State} (h : push v s = .done () t) :
    0 ≤ sint (t.reg .sp) ∧ sint (t.reg .sp) < t.cap := by
  cases ha : s.admitsAddr (sint (disp s .sp 1)) with
  | true =>
    have h' := memWrite_cell (a := sint (disp s .sp 1)) (v := v) (s := adjust .sp 1 s) (t := t)
      (by rw [← h, push]; simp)
    rw [push_eq v ha] at h
    cases h
    simpa using h'
  | false => rw [push_refused v ha] at h; cases h

theorem runs_pop (s : State) : Runs false s (pop s) :=
  (runs_memRead _ s).bind fun _ _ _ => .of_done _ (updates_adjust _ _ _) rfl fun _ => ⟨rfl, rfl⟩

theorem runs_pushAll (vs : List Word) (s : State) : Runs false s (pushAll vs s) := by
  induction vs generalizing s with
  | nil => exact .of_done _ .refl rfl fun _ => ⟨rfl, rfl⟩
  | cons v vs ih => exact (runs_push v s).bind fun _ t _ => ih t

theorem runs_checkReg (r : Word) (s : State) : Runs false s (checkReg r s) := by
  unfold checkReg; split
  · exact .of_done _ .refl rfl fun _ => ⟨rfl, rfl⟩
  · exact .of_raise _ _

theorem runs_checkCount (least : Int) (n : Word) (s : State) : Runs false s (checkCount least n s) := by
  unfold checkCount; split
  · exact .of_raise _ _
  · exact .of_done _ .refl rfl fun _ => ⟨rfl, rfl⟩

theorem runs_setReg (r : Reg) (v : Word) (s : State) : Runs false s (.done () (setReg r v s)) :=
  .of_done _ (.one (.reg r v s)) rfl fun _ => ⟨rfl, rfl⟩

theorem runs_branchIf (b : Bool) (k : Word) (s : State) : Runs false s (.done () (branchIf b k s)) := by
  unfold branchIf; split
  · exact runs_setReg _ _ _
  · exact .of_done _ .refl rfl fun _ => ⟨rfl, rfl⟩

theorem runs_readBlock (b stride : Int) (n : Nat) (s : State) : Runs false s (readBlock b stride n s) := by
  induction n generalizing b s with
  | zero => exact .of_done _ .refl rfl fun _ => ⟨rfl, rfl⟩
  | succ n ih =>
    exact (runs_memRead _ s).bind fun _ t _ => (ih _ t).bind fun _ _ _ => .of_done _ .refl rfl fun _ => ⟨rfl, rfl⟩

theorem readBlock_length {b stride : Int} {n : Nat} {s t : State} {vs : List Word}
    (h : readBlock b stride n s = .done vs t) : vs.length = n := by
  induction n generalizing b s t vs with
  | zero => cases h; rfl
  | succ n ih =>
    rw [readBlock] at h
    rcases bind_cases (memRead (addr b) s) fun v s => (readBlock (b + stride) stride n s).bind fun vs s => .done (v :: vs) s
      with ⟨u, h1, h2⟩ | ⟨v, u, h1, h2⟩
    · rw [h2] at h; cases h
    · rw [h2] at h
      rcases bind_cases (readBlock (b + stride) stride n u) fun vs s => (.done (v :: vs) s : Res (List Word))
        with ⟨w, h3, h4⟩ | ⟨ws, w, h3, h4⟩
      · rw [h4] at h; cases h
      · rw [h4] at h; cases h; simp [ih h3]

/-- Writing a block: the cells written are there afterwards. -/
theorem runs_writeBlock (b stride : Int) (x : Option AnnText) (vs : List Word) (s : State) :
    Runs false s (writeBlock b stride x vs s) ∧
      ∀ t, writeBlock b stride x vs s = .done () t →
        s.cap ≤ t.cap ∧ ∀ a ∈ blockAddrs b stride vs.length, 0 ≤ a ∧ a < t.cap := by
  induction vs generalizing b s with
  | nil => exact ⟨.of_done _ .refl rfl fun _ => ⟨rfl, rfl⟩, fun t h => by cases h; simp⟩
  | cons v vs ih =>
    cases h : s.admitsAddr (addr b) with
    | false =>
      have : writeBlock b stride x (v :: vs) s = raise (.addressFault (addr b) s.ia) s := by
        rw [writeBlock, memWrite_refused v h, bind_raise]
      rw [this]
      exact ⟨.of_raise _ _, fun t h => by cases h⟩
    | true =>
      have hw : writeBlock b stride x (v :: vs) s = writeBlock (b + stride) stride x vs (writtenWith (addr b) v x s) := by
        rw [writeBlock, memWrite_eq v h, bind_done]; cases x <;> rfl
      have hc := memWrite_cell (memWrite_eq v h)
      have hcap : s.cap ≤ (writtenWith (addr b) v x s).cap := by
        rw [writtenWith_cap, touch_cap, capAfterAccess]; split <;> omega
      have hu : Updates s (writtenWith (addr b) v x s) := by
        cases x with
        | none => exact updates_written v h
        | some x => exact (updates_written v h).trans (.single (.note _ x _ hc.1 hc.2))
      rw [hw, List.length_cons, blockAddrs_succ]
      obtain ⟨i1, i2⟩ := ih (b + stride) (writtenWith (addr b) v x s)
      refine ⟨i1.after hu (by simp) ⟨by simp, by simp⟩, fun t ht => ?_⟩
      obtain ⟨j1, j2⟩ := i2 t ht
      refine ⟨hcap.trans j1, fun a ha => ?_⟩
      rcases List.mem_cons.1 ha with rfl | ha
      · have : (writtenWith (addr b) v x s).cap = (written (addr b) v s).cap := by simp
        omega
      · exact j2 a ha

theorem runs_putBlock (m : Mnemonic) (vs : List Word) (s : State) : Runs false s (putBlock m vs s) :=
  (runs_writeBlock _ _ _ vs _).1.after (.one (.reg .sp _ s)) rfl ⟨rfl, rfl⟩

theorem runs_loadMulti (b stride : Int) (n : Word) (m : Mnemonic) (s : State) :
    Runs false s (loadMulti b stride n m s) :=
  (runs_readBlock _ _ _ s).bind fun vs t _ => runs_putBlock m vs t

theorem runs_takeBlock (n : Word) (s : State) : Runs false s (takeBlock n s) :=
  (runs_readBlock _ _ _ s).bind fun _ t _ => .of_done _ (.one (.reg .sp _ t)) rfl fun _ => ⟨rfl, rfl⟩

theorem takeBlock_length {n : Word} {s t : State} {us : List Word} (h : takeBlock n s = .done us t) :
    us.length = (sint n).toNat := by
  rw [takeBlock] at h
  rcases bind_cases (readBlock (sint (s.reg .sp) - (sint n - 1) * s.dir) s.dir (sint n).toNat s)
    fun us u => (.done us (setReg .sp (word (sint (s.reg .sp) - sint n * u.dir)) u) : Res (List Word))
    with ⟨u, h1, h2⟩ | ⟨vs, u, h1, h2⟩
  · cases h2.symm.trans h
  · cases h2.symm.trans h; exact readBlock_length h1

theorem runs_storeMulti (b : Int) (n : Word) (m : Mnemonic) (s : State) : Runs false s (storeMulti b n m s) :=
  (runs_takeBlock n s).bind fun us t _ => (runs_writeBlock _ _ _ us t).1

theorem runs_awaitPrompt (p : Prompt) (s : State) : Runs true s (awaitPrompt p s) :=
  .of_done _ (.one (.wait p s)) rfl fun h => by cases h

theorem runs_promptInt (s : State) : Runs true s (promptInt s) := by
  unfold promptInt; split
  · exact runs_awaitPrompt _ _
  · exact (runs_push _ _).afterAnswer (.one (.answered _ s.host.charAnswers s.host.textAnswers s)) rfl rfl rfl

theorem runs_promptChar (s : State) : Runs true s (promptChar s) := by
  unfold promptChar; split
  · exact runs_awaitPrompt _ _
  · exact (runs_push _ _).afterAnswer (.one (.answered s.host.intAnswers _ s.host.textAnswers s)) rfl rfl rfl

theorem runs_promptCharArray (s : State) : Runs true s (promptCharArray s) := by
  unfold promptCharArray; split
  · exact runs_awaitPrompt _ _
  · exact (runs_pushAll _ _).afterAnswer (.one (.answered s.host.intAnswers s.host.charAnswers _ s)) rfl rfl rfl

theorem runs_popStringUpTo (n : Nat) (s : State) : Runs false s (popStringUpTo n s) := by
  induction n generalizing s with
  | zero => exact .of_done _ .refl rfl fun _ => ⟨rfl, rfl⟩
  | succ n ih =>
    refine (runs_pop s).bind fun c t _ => ?_
    split
    · exact .of_done _ .refl rfl fun _ => ⟨rfl, rfl⟩
    · exact (ih t).bind fun _ _ _ => .of_done _ .refl rfl fun _ => ⟨rfl, rfl⟩

theorem runs_diag {loud : Bool} (h : loud = true) (d : Diag) {s t : State} (hu : Updates s t) (hr : t.rs = s.rs) :
    Runs loud s (.done () (diag d t)) :=
  .of_done _ (hu.tail (.diag d t)) hr fun hl => by rw [h] at hl; cases hl

theorem fileGet_filePut (fs : List (FileName × List Byte)) (n : FileName) (bs : List Byte) (m : FileName) :
    fileGet (filePut fs n bs) m = if m = n then some bs else fileGet fs m := by
  induction fs with
  | nil => simp [filePut, fileGet]
  | cons c fs ih =>
    obtain ⟨k, w⟩ := c
    simp only [filePut]
    split <;> simp only [fileGet, ih] <;> split_ifs <;> simp_all

theorem runs_openHandle (m : Mode) (s : State) : Runs true s (openHandle m s) := by
  unfold openHandle
  refine (runs_popStringUpTo _ s).bind fun n t _ => ?_
  have hc : Updates t (afterFileCall t) := .one (.fileCall t)
  dsimp only [openFile]
  cases hf : t.fileServiceFails with
  | true => exact runs_diag rfl _ hc rfl
  | false =>
    cases m with
    | read =>
      simp only [Bool.false_eq_true, if_false]
      split
      · rename_i h
        split at h <;> cases h
        rename_i hl
        exact (runs_push _ _).toLoud.after (hc.tail (.handle _ _ _ (.inl hl))) rfl ⟨rfl, rfl⟩
      · rename_i h
        split at h <;> cases h
        exact runs_diag rfl _ hc rfl
    | write =>
      refine (runs_push _ _).toLoud.after ((hc.tail (.file n [] _)).tail (.handle _ _ _ (.inl ?_))) rfl ⟨rfl, rfl⟩
      simp [Stream.name, fileGet_filePut]

theorem runs_readHandle (s : State) : Runs true s (readHandle s) := by
  unfold readHandle
  refine (runs_pop s).bind fun h t _ => ?_
  dsimp only
  split
  · exact runs_diag rfl _ .refl rfl
  · exact runs_diag rfl _ .refl rfl
  · rename_i n p hst
    have hc : Updates t (afterFileCall t) := .one (.fileCall t)
    split
    · exact runs_diag rfl _ hc rfl
    · refine (runs_push _ _).toLoud.after (hc.tail (.handle _ _ _ (.inr ⟨.reader n p, ?_, rfl⟩))) rfl ⟨rfl, rfl⟩
      unfold State.stream at hst
      split at hst
      · cases hst
      · exact hst

theorem runs_writeHandle (s : State) : Runs true s (writeHandle s) := by
  unfold writeHandle
  refine (runs_pop s).bind fun h t _ => (runs_pop t).bind fun v u _ => ?_
  dsimp only
  split
  · exact runs_diag rfl _ .refl rfl
  · exact runs_diag rfl _ .refl rfl
  · have hc : Updates u (afterFileCall u) := .one (.fileCall u)
    split
    · exact runs_diag rfl _ hc rfl
    · exact (runs_push _ _).toLoud.after (hc.tail (.file _ _ _)) rfl ⟨rfl, rfl⟩

theorem runs_closeHandle (s : State) : Runs true s (closeHandle s) := by
  unfold closeHandle
  refine (runs_pop s).bind fun h t _ => ?_
  dsimp only
  split
  · exact runs_diag rfl _ .refl rfl
  · have hc : Updates t (removeHandle (sint h).toNat (afterFileCall t)) :=
      (Updates.one (.fileCall t)).tail (.close _ _)
    split
    · exact runs_diag rfl _ hc rfl
    · exact .of_done _ hc rfl fun h => by cases h

theorem runs_trapOp (o : TrapOp) (s : State) : Runs true s (trapOp o s) := by
  cases o with
  | prInt => exact (runs_pop s).bind fun _ t _ => .of_done _ (.one (.print _ t)) rfl fun _ => ⟨rfl, rfl⟩
  | prChar => exact (runs_pop s).bind fun _ t _ => .of_done _ (.one (.print _ t)) rfl fun _ => ⟨rfl, rfl⟩
  | inInt => exact runs_promptInt s
  | inChar => exact runs_promptChar s
  | inCharArray => exact runs_promptCharArray s
  | fileOpenRead => exact runs_openHandle _ s
  | fileOpenWrite => exact runs_openHandle _ s
  | fileRead => exact runs_readHandle s
  | fileWrite => exact runs_writeHandle s
  | fileClose => exact runs_closeHandle s

theorem runs_binop (m : Mnemonic) (f : Word → Word → Option Word) (s : State) : Runs false s (binop m f s) := by
  refine (runs_pop s).bind fun r t _ => (runs_pop t).bind fun l u _ => ?_
  split
  · exact .of_raise _ _
  · refine (runs_push _ u).bind fun _ v hv => ?_
    have := push_top hv
    exact .of_done _ (.one (.note _ _ v this.1 this.2)) rfl fun _ => ⟨rfl, rfl⟩

theorem runs_unop (g : Word → Word) (s : State) : Runs false s (unop g s) :=
  (runs_pop s).bind fun _ t _ => runs_push _ t

theorem runs_brcc (mask : BitVec 3) (k : Word) (s : State) : Runs false s (brcc mask k s) :=
  (runs_pop s).bind fun _ t _ => runs_branchIf _ k t

theorem runs_sth (s : State) : ∃ r, execSth s = r.outcome ∧ Runs false s r := by
  refine ⟨_, rfl, (runs_pop s).bind fun v t _ => (runs_memWrite _ v t).bind fun _ u hu => ?_⟩
  have hc := memWrite_cell hu
  exact (runs_push _ _).after ((Updates.one (.note _ _ u hc.1 hc.2)).tail (.reg .hp _ _)) rfl ⟨rfl, rfl⟩

theorem runs_stmh (n : Word) (s : State) : ∃ r, execStmh n s = r.outcome ∧ Runs false s r := by
  refine ⟨_, rfl, (runs_checkCount 1 n s).bind fun _ s' hs' => ?_⟩
  by_cases hn : sint n < 1
  · rw [checkCount_bad s hn] at hs'; cases hs'
  · rw [checkCount_ok s (not_lt.1 hn)] at hs'; cases hs'
    refine (runs_takeBlock n s).bind fun us t ht => (runs_writeBlock _ _ _ us t).1.bind fun _ u hu => ?_
    have hc := ((runs_writeBlock _ _ _ us t).2 u hu).2
    rw [takeBlock_length ht] at hc
    have h0 := hc (sint (s.reg .hp)) (mem_blockAddrs.2 ⟨0, by omega, by simp⟩)
    have h1 := hc (addr (sint (s.reg .hp) + sint n - 1))
      (mem_blockAddrs.2 ⟨(sint n).toNat - 1, by omega, by congr 1; omega⟩)
    refine (runs_push _ _).after (.tail ?_ (.reg .hp _ _)) ?_ ⟨?_, ?_⟩
    · unfold markBlock; split
      · exact Updates.one (.note _ _ u h0.1 h0.2)
      · exact (Updates.one (.note _ _ u h0.1 h0.2)).tail (.note _ _ _ h1.1 h1.2)
    all_goals unfold markBlock; split <;> rfl

/-- Every instruction but HALT is such a stretch, and only TRAP sends a diagnostic and goes on. -/
theorem exec_runs (i : Instr) (s : State) (hi : i ≠ .halt) :
    ∃ r, exec i s = r.outcome ∧ Runs (decide (i.mnemonic = .trap)) s r := by
  have hb : ∀ {m : Mnemonic} {f : Word → Word → Option Word}, ∃ r, (binop m f s).outcome = r.outcome ∧ Runs false s r :=
    ⟨_, rfl, runs_binop _ _ s⟩
  have hc : ∀ {m : BitVec 3} {k : Word}, ∃ r, (brcc m k s).outcome = r.outcome ∧ Runs false s r :=
    ⟨_, rfl, runs_brcc _ _ s⟩
  cases i with
  | halt => exact absurd rfl hi
  | add | and | div | mod | mul | or | sub | xor | eq | ne | lt | gt | le | ge | lsl | lsr | rol | ror | cmp => exact hb
  | neg | not => exact ⟨_, rfl, runs_unop _ s⟩
  | beq k | bne k | blt k | bgt k | ble k | bge k => exact hc
  | adjs k => exact ⟨.done () _, rfl, runs_setReg .sp _ s⟩
  | bra k => exact ⟨.done () _, rfl, runs_setReg .pc _ s⟩
  | brf k | brt k => exact ⟨_, rfl, (runs_pop s).bind fun _ t _ => runs_branchIf _ k t⟩
  | bsr k => exact ⟨_, rfl, (runs_push _ s).bind fun _ t _ => runs_setReg .pc _ t⟩
  | jsr => exact ⟨_, rfl, (runs_pop s).bind fun _ t _ => (runs_push _ t).bind fun _ u _ => runs_setReg .pc _ u⟩
  | lda k | ldh k =>
    exact ⟨_, rfl, (runs_pop s).bind fun _ t _ => (runs_memRead _ t).bind fun _ u _ => runs_push _ u⟩
  | ldma k n | ldmh k n =>
    exact ⟨_, rfl, (runs_checkCount 0 n s).bind fun _ t _ => (runs_pop t).bind fun _ u _ => runs_loadMulti _ _ n _ u⟩
  | ldaa k => exact ⟨_, rfl, (runs_pop s).bind fun _ t _ => runs_push _ t⟩
  | ldc k | ldla k | ldsa k => exact ⟨_, rfl, runs_push _ s⟩
  | ldl k | lds k => exact ⟨_, rfl, (runs_memRead _ s).bind fun _ t _ => runs_push _ t⟩
  | ldml k n | ldms k n => exact ⟨_, rfl, (runs_checkCount 0 n s).bind fun _ t _ => runs_loadMulti _ _ n _ t⟩
  | ldr r => exact ⟨_, rfl, (runs_checkReg r s).bind fun _ t _ => runs_push _ t⟩
  | ldrr r q =>
    exact ⟨_, rfl, (runs_checkReg r s).bind fun x t _ => (runs_checkReg q t).bind fun _ u _ => runs_setReg x _ u⟩
  | link n =>
    exact ⟨_, rfl, (runs_push _ s).bind fun _ t _ =>
      .of_done _ ((Updates.one (.reg .mp _ t)).trans (updates_adjust .sp _ _)) rfl fun _ => ⟨rfl, rfl⟩⟩
  | nop => exact ⟨.done () s, rfl, .of_done _ .refl rfl fun _ => ⟨rfl, rfl⟩⟩
  | ret => exact ⟨_, rfl, (runs_pop s).bind fun _ t _ => runs_setReg .pc _ t⟩
  | sta k =>
    exact ⟨_, rfl, (runs_pop s).bind fun _ t _ => (runs_pop t).bind fun _ u _ => runs_memWrite _ _ u⟩
  | stma k n =>
    exact ⟨_, rfl, (runs_checkCount 0 n s).bind fun _ t _ => (runs_pop t).bind fun _ u _ => runs_storeMulti _ n _ u⟩
  | stl k | sts k => exact ⟨_, rfl, (runs_pop s).bind fun _ t _ => runs_memWrite _ _ t⟩
  | stml k n | stms k n => exact ⟨_, rfl, (runs_checkCount 0 n s).bind fun _ t _ => runs_storeMulti _ n _ t⟩
  | str r => exact ⟨_, rfl, (runs_checkReg r s).bind fun x t _ => (runs_pop t).bind fun _ u _ => runs_setReg x _ u⟩
  | swp =>
    exact ⟨_, rfl, (runs_memRead _ s).bind fun _ t _ => (runs_memRead _ t).bind fun _ u _ =>
      (runs_memWrite _ _ u).bind fun _ v _ => runs_memWrite _ _ v⟩
  | swpr r =>
    exact ⟨_, rfl, (runs_checkReg r s).bind fun x t _ => (runs_memRead _ t).bind fun _ u _ =>
      (runs_memWrite _ _ u).bind fun _ v _ => runs_setReg x _ v⟩
  | swprr r q =>
    exact ⟨_, rfl, (runs_checkReg r s).bind fun x t _ => (runs_checkReg q t).bind fun y u _ =>
      .of_done _ ((Updates.one (.reg x _ u)).tail (.reg y _ _)) rfl fun _ => ⟨rfl, rfl⟩⟩
  | trap t =>
    cases h : trapOf s.params.traps t with
    | some o => exact ⟨trapOp o s, execTrap_some h, runs_trapOp o s⟩
    | none => exact ⟨.done () (diag (.unknownTrap (sint t) s.ia) s), execTrap_none h, runs_diag rfl _ .refl rfl⟩
  | unlink =>
    exact ⟨_, rfl, ((runs_pop _).after (.one (.reg .sp _ s)) rfl ⟨rfl, rfl⟩).bind fun _ t _ => runs_setReg .mp _ t⟩
  | sth => exact runs_sth s
  | stmh n => exact runs_stmh n s

end Sys2Proof.Machine
end

