-- ==== Sys2Proof/Laws/PerInstr.lean ====
section
/-! SUPPORT. One law per instruction: its shape agrees with its row of the opcode table. -/

namespace Sys2Proof.Laws.Shape

open Sys2Proof

/-- The instruction has as many operands as its row declares (30_encoding.md R74), its mnemonic and operands make it
again, and under the opcode map of this spec the lookup of its opcode number gives its row (R86, R87). -/
def Statement (i : Instr) : Prop :=
  i.operands.length = (rowOf i.mnemonic).operandCount ∧ assemble i.mnemonic i.operands = some i ∧
    lookup .standard (rowOf i.mnemonic).opcode = some (rowOf i.mnemonic)

theorem add : Statement (.add) := ⟨rfl, rfl, rfl⟩
theorem and : Statement (.and) := ⟨rfl, rfl, rfl⟩
theorem div : Statement (.div) := ⟨rfl, rfl, rfl⟩
theorem mod : Statement (.mod) := ⟨rfl, rfl, rfl⟩
theorem mul : Statement (.mul) := ⟨rfl, rfl, rfl⟩
theorem or : Statement (.or) := ⟨rfl, rfl, rfl⟩
theorem sub : Statement (.sub) := ⟨rfl, rfl, rfl⟩
theorem xor : Statement (.xor) := ⟨rfl, rfl, rfl⟩
theorem eq : Statement (.eq) := ⟨rfl, rfl, rfl⟩
theorem ne : Statement (.ne) := ⟨rfl, rfl, rfl⟩
theorem lt : Statement (.lt) := ⟨rfl, rfl, rfl⟩
theorem gt : Statement (.gt) := ⟨rfl, rfl, rfl⟩
theorem le : Statement (.le) := ⟨rfl, rfl, rfl⟩
theorem ge : Statement (.ge) := ⟨rfl, rfl, rfl⟩
theorem lsl : Statement (.lsl) := ⟨rfl, rfl, rfl⟩
theorem lsr : Statement (.lsr) := ⟨rfl, rfl, rfl⟩
theorem rol : Statement (.rol) := ⟨rfl, rfl, rfl⟩
theorem ror : Statement (.ror) := ⟨rfl, rfl, rfl⟩
theorem cmp : Statement (.cmp) := ⟨rfl, rfl, rfl⟩
theorem neg : Statement (.neg) := ⟨rfl, rfl, rfl⟩
theorem not : Statement (.not) := ⟨rfl, rfl, rfl⟩
theorem beq (k : Word) : Statement (.beq k) := ⟨rfl, rfl, rfl⟩
theorem bne (k : Word) : Statement (.bne k) := ⟨rfl, rfl, rfl⟩
theorem blt (k : Word) : Statement (.blt k) := ⟨rfl, rfl, rfl⟩
theorem bgt (k : Word) : Statement (.bgt k) := ⟨rfl, rfl, rfl⟩
theorem ble (k : Word) : Statement (.ble k) := ⟨rfl, rfl, rfl⟩
theorem bge (k : Word) : Statement (.bge k) := ⟨rfl, rfl, rfl⟩
theorem adjs (k : Word) : Statement (.adjs k) := ⟨rfl, rfl, rfl⟩
theorem bra (k : Word) : Statement (.bra k) := ⟨rfl, rfl, rfl⟩
theorem brf (k : Word) : Statement (.brf k) := ⟨rfl, rfl, rfl⟩
theorem brt (k : Word) : Statement (.brt k) := ⟨rfl, rfl, rfl⟩
theorem bsr (k : Word) : Statement (.bsr k) := ⟨rfl, rfl, rfl⟩
theorem halt : Statement (.halt) := ⟨rfl, rfl, rfl⟩
theorem jsr : Statement (.jsr) := ⟨rfl, rfl, rfl⟩
theorem lda (k : Word) : Statement (.lda k) := ⟨rfl, rfl, rfl⟩
theorem ldma (k n : Word) : Statement (.ldma k n) := ⟨rfl, rfl, rfl⟩
theorem ldaa (k : Word) : Statement (.ldaa k) := ⟨rfl, rfl, rfl⟩
theorem ldc (k : Word) : Statement (.ldc k) := ⟨rfl, rfl, rfl⟩
theorem ldl (k : Word) : Statement (.ldl k) := ⟨rfl, rfl, rfl⟩
theorem ldml (k n : Word) : Statement (.ldml k n) := ⟨rfl, rfl, rfl⟩
theorem ldla (k : Word) : Statement (.ldla k) := ⟨rfl, rfl, rfl⟩
theorem ldr (r : Word) : Statement (.ldr r) := ⟨rfl, rfl, rfl⟩
theorem ldrr (r1 r2 : Word) : Statement (.ldrr r1 r2) := ⟨rfl, rfl, rfl⟩
theorem lds (k : Word) : Statement (.lds k) := ⟨rfl, rfl, rfl⟩
theorem ldms (k n : Word) : Statement (.ldms k n) := ⟨rfl, rfl, rfl⟩
theorem ldsa (k : Word) : Statement (.ldsa k) := ⟨rfl, rfl, rfl⟩
theorem link (n : Word) : Statement (.link n) := ⟨rfl, rfl, rfl⟩
theorem nop : Statement (.nop) := ⟨rfl, rfl, rfl⟩
theorem ret : Statement (.ret) := ⟨rfl, rfl, rfl⟩
theorem sta (k : Word) : Statement (.sta k) := ⟨rfl, rfl, rfl⟩
theorem stma (k n : Word) : Statement (.stma k n) := ⟨rfl, rfl, rfl⟩
theorem stl (k : Word) : Statement (.stl k) := ⟨rfl, rfl, rfl⟩
theorem stml (k n : Word) : Statement (.stml k n) := ⟨rfl, rfl, rfl⟩
theorem str (r : Word) : Statement (.str r) := ⟨rfl, rfl, rfl⟩
theorem sts (k : Word) : Statement (.sts k) := ⟨rfl, rfl, rfl⟩
theorem stms (k n : Word) : Statement (.stms k n) := ⟨rfl, rfl, rfl⟩
theorem swp : Statement (.swp) := ⟨rfl, rfl, rfl⟩
theorem swpr (r : Word) : Statement (.swpr r) := ⟨rfl, rfl, rfl⟩
theorem swprr (r1 r2 : Word) : Statement (.swprr r1 r2) := ⟨rfl, rfl, rfl⟩
theorem trap (t : Word) : Statement (.trap t) := ⟨rfl, rfl, rfl⟩
theorem unlink : Statement (.unlink) := ⟨rfl, rfl, rfl⟩
theorem ldh (k : Word) : Statement (.ldh k) := ⟨rfl, rfl, rfl⟩
theorem ldmh (k n : Word) : Statement (.ldmh k n) := ⟨rfl, rfl, rfl⟩
theorem sth : Statement (.sth) := ⟨rfl, rfl, rfl⟩
theorem stmh (n : Word) : Statement (.stmh n) := ⟨rfl, rfl, rfl⟩

end Sys2Proof.Laws.Shape
end

