-- ==== Sys2Proof/Laws/Step.lean ====
section
/-! SUPPORT. How the fetch and the step can end. -/

namespace Sys2Proof.Machine

open Sys2Proof

/-- Under every opcode map a mnemonic keeps its row of R86 but for the number. -/
theorem recordOf_mnemonic (p : OpcodeMap) (m : Mnemonic) : (recordOf p m).mnemonic = m := by cases m <;> rfl

/-- What the lookup answers is a record of the table. -/
theorem lookup_some {p : OpcodeMap} {w : Word} {r : InstrRecord} (h : lookup p w = some r) :
    ∃ m, r = recordOf p m ∧ r.opcode = w := by
  have h1 := List.mem_of_find?_eq_some h
  have h2 := List.find?_some h
  simp only [opcodeTable, List.mem_map] at h1
  obtain ⟨m, _, rfl⟩ := h1
  exact ⟨m, rfl, by simpa using h2⟩

/-- As many operands as the record declares make an instruction. -/
theorem assemble_some {p : OpcodeMap} {m : Mnemonic} {ops : List Word}
    (h : ops.length = (recordOf p m).operandCount) : ∃ i, assemble m ops = some i ∧ i.mnemonic = m := by
  cases m <;> simp only [recordOf, rowOf, row] at h
  all_goals first
    | (obtain rfl := List.length_eq_zero_iff.1 h; exact ⟨_, rfl, rfl⟩)
    | (obtain ⟨a, rfl⟩ := List.length_eq_one_iff.1 h; exact ⟨_, rfl, rfl⟩)
    | (obtain ⟨a, b, rfl⟩ := List.length_eq_two.1 h; exact ⟨_, rfl, rfl⟩)

/-- The primitive updates of FETCH and OPERANDS. -/
inductive FetchUpdate : State → State → Prop where
  | update {s t : State} (h : Update s t) : FetchUpdate s t
  | latch (r : InstrRecord) (a : Int) (s : State) : FetchUpdate s (latch r a s)
  | operand (w : Word) (s : State) : FetchUpdate s { s with ops := s.ops ++ [w] }

/-- Chains of them. -/
abbrev FetchUpdates : State → State → Prop := Relation.ReflTransGen FetchUpdate

theorem Updates.toFetch {s t : State} (h : Updates s t) : FetchUpdates s t := by
  induction h with
  | refl => exact .refl
  | tail _ h ih => exact ih.tail (.update h)

/-- How OPERANDS ends: the operands latched, or a fault on one of them. -/
theorem fetchOperands_ends (n : Nat) (s : State) :
    (∃ t, fetchOperands n s = .done () t ∧ FetchUpdates s t ∧ t.rs = s.rs ∧ Quiet s t ∧
      t.ops.length = s.ops.length + n ∧ t.ir = s.ir) ∨
    ∃ f t, fetchOperands n s = .stopped (enterFault f t) ∧ FetchUpdates s t ∧ t.rs = s.rs ∧ Quiet s t := by
  induction n generalizing s with
  | zero => exact .inl ⟨s, rfl, .refl, rfl, ⟨rfl, rfl⟩, rfl, rfl⟩
  | succ n ih =>
    cases ha : s.admitsAddr (sint (s.reg .pc)) with
    | false => exact .inr ⟨_, s, by rw [fetchOperands, memRead_refused ha]; rfl, .refl, rfl, ⟨rfl, rfl⟩⟩
    | true =>
      have hu : FetchUpdates s (advancePc { touch (sint (s.reg .pc)) s with
          ops := (touch (sint (s.reg .pc)) s).ops ++ [s.cell (sint (s.reg .pc))] }) :=
        ((updates_touch _ s).toFetch.tail (.operand _ _)).tail (.update (.reg .pc _ _))
      have hf := ih (advancePc { touch (sint (s.reg .pc)) s with
          ops := (touch (sint (s.reg .pc)) s).ops ++ [s.cell (sint (s.reg .pc))] })
      have he : fetchOperands (n + 1) s = fetchOperands n (advancePc { touch (sint (s.reg .pc)) s with
          ops := (touch (sint (s.reg .pc)) s).ops ++ [s.cell (sint (s.reg .pc))] }) := by
        rw [fetchOperands, memRead_eq ha, bind_done]
      rw [he]
      have hq := touch_host (sint (s.reg .pc)) s
      rcases hf with ⟨t, h1, h2, h3, h4, h5, h6⟩ | ⟨f, t, h1, h2, h3, h4⟩
      · refine .inl ⟨t, h1, hu.trans h2, h3.trans (touch_rs _ s), ?_, ?_, h6.trans (touch_ir _ s)⟩
        · exact Quiet.trans ⟨congrArg HostState.diags hq, touch_waiting _ s⟩ h4
        · rw [h5]
          change ((touch (sint (s.reg .pc)) s).ops ++ [_]).length + n = _
          rw [touch_ops, List.length_append, List.length_singleton]; omega
      · exact .inr ⟨f, t, h1, hu.trans h2, h3.trans (touch_rs _ s),
          Quiet.trans ⟨congrArg HostState.diags hq, touch_waiting _ s⟩ h4⟩

/-- How the fetch of a step ends. -/
inductive FetchEnds (s : State) : Res (Option Instr) → Prop where
  | fetched (i : Instr) (t : State) (hu : FetchUpdates s t) (hr : t.rs = s.rs) (hq : Quiet s t)
      (hl : latchesAgree t.ir t.ops = true) (hi : lookup s.params.opcodes (s.cell (sint (s.reg .pc))) = some (recordOf s.params.opcodes i.mnemonic)) :
      FetchEnds s (.done (some i) t)
  | faulted (f : FaultInfo) (t : State) (hu : FetchUpdates s t) (hr : t.rs = s.rs) (hq : Quiet s t) :
      FetchEnds s (.stopped (enterFault f t))
  | illegal (a : Int) (w : Word) (t : State) (hu : FetchUpdates s t) (hr : t.rs = s.rs) (hq : Quiet s t)
      (hi : lookup s.params.opcodes (s.cell (sint (s.reg .pc))) = none) : FetchEnds s (.stopped (substituteHalt a w t))

theorem fetch_ends (s : State) : FetchEnds s (fetch s) := by
  simp only [fetch]
  cases ha : s.admitsAddr (sint (s.reg .pc)) with
  | false =>
    rw [memRead_refused ha]
    exact .faulted _ s .refl rfl ⟨rfl, rfl⟩
  | true =>
    rw [memRead_eq ha]
    dsimp only [bind_done]
    have hu : FetchUpdates s (advancePc (touch (sint (s.reg .pc)) s)) :=
      (updates_touch _ s).toFetch.tail (.update (.reg .pc _ _))
    have hq : Quiet s (advancePc (touch (sint (s.reg .pc)) s)) := ⟨by simp [advancePc], by simp [advancePc]⟩
    have hr : (advancePc (touch (sint (s.reg .pc)) s)).rs = s.rs := by simp [advancePc]
    rw [show (advancePc (touch (sint (s.reg .pc)) s)).params = s.params by simp [advancePc]]
    split
    · rename_i hl
      exact .illegal _ _ _ hu hr hq hl
    · rename_i r hl
      obtain ⟨m, rfl, _⟩ := lookup_some hl
      have hu := hu.tail (.latch (recordOf s.params.opcodes m) (sint (s.reg .pc)) _)
      rcases fetchOperands_ends (recordOf s.params.opcodes m).operandCount
        (latch (recordOf s.params.opcodes m) (sint (s.reg .pc)) (advancePc (touch (sint (s.reg .pc)) s)))
        with ⟨t, h1, h2, h3, h4, h5, h6⟩ | ⟨f, t, h1, h2, h3, h4⟩
      · simp only [latch_ops, List.length_nil, Nat.zero_add] at h5
        obtain ⟨i, hi, him⟩ := assemble_some h5
        simp only [h1, bind_done, recordOf_mnemonic, hi]
        refine .fetched i t (hu.trans h2) (h3.trans hr) (hq.trans h4) ?_ (by rw [hl, him])
        rw [h6, latch_ir]
        simp [latchesAgree, h5]
      · rw [h1]
        exact .faulted f t (hu.trans h2) (h3.trans hr) (hq.trans h4)

/-- A step that waits at a prompt goes on waiting, or takes the answer and pushes. -/
theorem resume_cases (p : Prompt) (s : State) :
    resume p s = { s with waiting := some p } ∨
      ∃ (is cs : List Word) (ts : List (List Word)) (r : Res Unit),
        resume p s = r.state ∧
          Runs false (answered { s.host with intAnswers := is, charAnswers := cs, textAnswers := ts } s) r := by
  cases p with
  | int =>
    simp only [resume, promptInt]
    split
    · exact .inl rfl
    · exact .inr ⟨_, s.host.charAnswers, s.host.textAnswers, _, rfl, runs_push _ _⟩
  | char =>
    simp only [resume, promptChar]
    split
    · exact .inl rfl
    · exact .inr ⟨s.host.intAnswers, _, s.host.textAnswers, _, rfl, runs_push _ _⟩
  | charArray =>
    simp only [resume, promptCharArray]
    split
    · exact .inl rfl
    · exact .inr ⟨s.host.intAnswers, s.host.charAnswers, _, _, rfl, runs_pushAll _ _⟩

end Sys2Proof.Machine
end

