-- ==== Sys2Proof/Tests/Slice0.lean ====
section
/-! SUPPORT. The model's own tests: ill-formed terms that WellFormed refuses, words written out from 30_encoding.md R86
that decode, one step at a time against the vectors of 95_test_vectors.md (and hand calculation from the same rules where
a vector has no row there), and a witness for the hypotheses of every obligation that has some. -/

namespace Sys2Proof.Tests

open Sys2Proof Sys2Proof.Machine Sys2Proof.Claims

/-! ### WellFormed: a term for each check, which the check refuses -/

theorem test_wf_three_operands : InstrRecord.wellFormed { rowOf .ldms with operandCount := 3 } = false := by decide
theorem test_wf_wide_opcode : InstrRecord.wellFormed { rowOf .add with opcode := 0x100 } = false := by decide
theorem test_wf_mask_outside_brcc : InstrRecord.wellFormed { rowOf .bra with conditionMask := some 1 } = false := by
  decide
theorem test_wf_brcc_without_mask : InstrRecord.wellFormed { rowOf .beq with conditionMask := none } = false := by
  decide
theorem test_wf_table : (opcodeTable .standard).all InstrRecord.wellFormed = true := by decide
theorem test_wf_latches_short : latchesAgree (some (rowOf .ldc)) [] = false := by decide
theorem test_wf_latches_before_fetch : latchesAgree none [0] = false := by decide
theorem test_wf_register_8 : Instr.wellFormed .standard (.ldr 8) = false := by decide
theorem test_wf_second_register : Instr.wellFormed .standard (.swprr 7 0xFFFFFFFF) = false := by decide
theorem test_wf_negative_count : Instr.wellFormed .standard (.stma 0 0x80000000) = false := by decide
theorem test_wf_count_zero : Instr.wellFormed .standard (.ldms 0 0) = true := by decide
theorem test_wf_block_of_none : Instr.wellFormed .standard (.stmh 0) = false := by decide
theorem test_wf_unknown_trap : Instr.wellFormed .standard (.trap 99) = false := by decide
theorem test_wf_no_growth : Params.wellFormed { Params.standard with growInc := 0 } 0 = false := by decide
theorem test_wf_image_too_long : Params.wellFormed Params.standard 2049 = false := by decide
theorem test_wf_down_without_base : Params.wellFormed { Params.standard with dir := .down } 0 = false := by decide

theorem test_wf_short_opcode_map : OpcodeMap.wellFormed ⟨OpcodeMap.standard.numbers.tail⟩ = false := by decide
theorem test_wf_shared_opcode : OpcodeMap.wellFormed ⟨0x02 :: OpcodeMap.standard.numbers.tail⟩ = false := by decide
theorem test_wf_wide_opcode_in_map : OpcodeMap.wellFormed ⟨0x101 :: OpcodeMap.standard.numbers.tail⟩ = false := by decide
theorem test_wf_shared_trap : TrapMap.wellFormed { TrapMap.standard with prChar := 0 } = false := by decide
theorem test_wf_wide_trap : TrapMap.wellFormed { TrapMap.standard with prChar := 2 ^ 31 } = false := by decide
theorem test_wf_bad_opcode_map : Params.wellFormed { Params.standard with opcodes := ⟨[]⟩ } 0 = false := by decide
theorem test_wf_bad_trap_map :
    Params.wellFormed { Params.standard with traps := { TrapMap.standard with fileClose := 23 } } 0 = false := by decide
theorem test_wf_standard : Params.wellFormed Params.standard 2048 = true := by decide

/-! ### Words written out from the table of R86 -/

theorem test_decode_add : decodeTableWord 32 0x00000001 = some .add := by decide
theorem test_decode_and : decodeTableWord 32 0x00000002 = some .and := by decide
theorem test_decode_div : decodeTableWord 32 0x00000004 = some .div := by decide
theorem test_decode_mod : decodeTableWord 32 0x00000007 = some .mod := by decide
theorem test_decode_mul : decodeTableWord 32 0x00000008 = some .mul := by decide
theorem test_decode_or : decodeTableWord 32 0x00000009 = some .or := by decide
theorem test_decode_sub : decodeTableWord 32 0x0000000C = some .sub := by decide
theorem test_decode_xor : decodeTableWord 32 0x0000000D = some .xor := by decide
theorem test_decode_eq : decodeTableWord 32 0x0000000E = some .eq := by decide
theorem test_decode_ne : decodeTableWord 32 0x0000000F = some .ne := by decide
theorem test_decode_lt : decodeTableWord 32 0x00000010 = some .lt := by decide
theorem test_decode_gt : decodeTableWord 32 0x00000011 = some .gt := by decide
theorem test_decode_le : decodeTableWord 32 0x00000012 = some .le := by decide
theorem test_decode_ge : decodeTableWord 32 0x00000013 = some .ge := by decide
theorem test_decode_lsl : decodeTableWord 32 0x00000014 = some .lsl := by decide
theorem test_decode_lsr : decodeTableWord 32 0x00000015 = some .lsr := by decide
theorem test_decode_rol : decodeTableWord 32 0x00000016 = some .rol := by decide
theorem test_decode_ror : decodeTableWord 32 0x00000017 = some .ror := by decide
theorem test_decode_cmp : decodeTableWord 32 0x00000018 = some .cmp := by decide
theorem test_decode_neg : decodeTableWord 32 0x00000020 = some .neg := by decide
theorem test_decode_not : decodeTableWord 32 0x00000021 = some .not := by decide
theorem test_decode_beq : decodeTableWord 64 0x8000000100000058 = some (.beq 0x80000001) := by decide
theorem test_decode_bne : decodeTableWord 64 0x8000000100000059 = some (.bne 0x80000001) := by decide
theorem test_decode_blt : decodeTableWord 64 0x800000010000005A = some (.blt 0x80000001) := by decide
theorem test_decode_bgt : decodeTableWord 64 0x800000010000005B = some (.bgt 0x80000001) := by decide
theorem test_decode_ble : decodeTableWord 64 0x800000010000005C = some (.ble 0x80000001) := by decide
theorem test_decode_bge : decodeTableWord 64 0x800000010000005D = some (.bge 0x80000001) := by decide
theorem test_decode_adjs : decodeTableWord 64 0x8000000100000064 = some (.adjs 0x80000001) := by decide
theorem test_decode_bra : decodeTableWord 64 0x8000000100000068 = some (.bra 0x80000001) := by decide
theorem test_decode_brf : decodeTableWord 64 0x800000010000006C = some (.brf 0x80000001) := by decide
theorem test_decode_brt : decodeTableWord 64 0x800000010000006D = some (.brt 0x80000001) := by decide
theorem test_decode_bsr : decodeTableWord 64 0x8000000100000070 = some (.bsr 0x80000001) := by decide
theorem test_decode_halt : decodeTableWord 32 0x00000074 = some .halt := by decide
theorem test_decode_jsr : decodeTableWord 32 0x00000078 = some .jsr := by decide
theorem test_decode_lda : decodeTableWord 64 0x800000010000007C = some (.lda 0x80000001) := by decide
theorem test_decode_ldma : decodeTableWord 96 0x00000003FFFFFFFE0000007E = some (.ldma 0xFFFFFFFE 3) := by decide
theorem test_decode_ldaa : decodeTableWord 64 0x8000000100000080 = some (.ldaa 0x80000001) := by decide
theorem test_decode_ldc : decodeTableWord 64 0x8000000100000084 = some (.ldc 0x80000001) := by decide
theorem test_decode_ldl : decodeTableWord 64 0x8000000100000088 = some (.ldl 0x80000001) := by decide
theorem test_decode_ldml : decodeTableWord 96 0x00000003FFFFFFFE0000008A = some (.ldml 0xFFFFFFFE 3) := by decide
theorem test_decode_ldla : decodeTableWord 64 0x800000010000008C = some (.ldla 0x80000001) := by decide
theorem test_decode_ldr : decodeTableWord 64 0x8000000100000090 = some (.ldr 0x80000001) := by decide
theorem test_decode_ldrr : decodeTableWord 96 0x00000003FFFFFFFE00000094 = some (.ldrr 0xFFFFFFFE 3) := by decide
theorem test_decode_lds : decodeTableWord 64 0x8000000100000098 = some (.lds 0x80000001) := by decide
theorem test_decode_ldms : decodeTableWord 96 0x00000003FFFFFFFE0000009A = some (.ldms 0xFFFFFFFE 3) := by decide
theorem test_decode_ldsa : decodeTableWord 64 0x800000010000009C = some (.ldsa 0x80000001) := by decide
theorem test_decode_link : decodeTableWord 64 0x80000001000000A0 = some (.link 0x80000001) := by decide
theorem test_decode_nop : decodeTableWord 32 0x000000A4 = some .nop := by decide
theorem test_decode_ret : decodeTableWord 32 0x000000A8 = some .ret := by decide
theorem test_decode_sta : decodeTableWord 64 0x80000001000000AC = some (.sta 0x80000001) := by decide
theorem test_decode_stma : decodeTableWord 96 0x00000003FFFFFFFE000000AE = some (.stma 0xFFFFFFFE 3) := by decide
theorem test_decode_stl : decodeTableWord 64 0x80000001000000B0 = some (.stl 0x80000001) := by decide
theorem test_decode_stml : decodeTableWord 96 0x00000003FFFFFFFE000000B2 = some (.stml 0xFFFFFFFE 3) := by decide
theorem test_decode_str : decodeTableWord 64 0x80000001000000B4 = some (.str 0x80000001) := by decide
theorem test_decode_sts : decodeTableWord 64 0x80000001000000B8 = some (.sts 0x80000001) := by decide
theorem test_decode_stms : decodeTableWord 96 0x00000003FFFFFFFE000000BA = some (.stms 0xFFFFFFFE 3) := by decide
theorem test_decode_swp : decodeTableWord 32 0x000000BC = some .swp := by decide
theorem test_decode_swpr : decodeTableWord 64 0x80000001000000C0 = some (.swpr 0x80000001) := by decide
theorem test_decode_swprr : decodeTableWord 96 0x00000003FFFFFFFE000000C4 = some (.swprr 0xFFFFFFFE 3) := by decide
theorem test_decode_trap : decodeTableWord 64 0x80000001000000C8 = some (.trap 0x80000001) := by decide
theorem test_decode_unlink : decodeTableWord 32 0x000000CC = some .unlink := by decide
theorem test_decode_ldh : decodeTableWord 64 0x80000001000000D0 = some (.ldh 0x80000001) := by decide
theorem test_decode_ldmh : decodeTableWord 96 0x00000003FFFFFFFE000000D4 = some (.ldmh 0xFFFFFFFE 3) := by decide
theorem test_decode_sth : decodeTableWord 32 0x000000D6 = some .sth := by decide
theorem test_decode_stmh : decodeTableWord 64 0x80000001000000D8 = some (.stmh 0x80000001) := by decide
theorem test_decode_unassigned : decodeTableWord 32 0x00000003 = none := by decide
theorem test_decode_high_bits : decodeTableWord 32 0x00000101 = none := by decide
theorem test_decode_truncated : decode .standard [0x9A, 5] = .error (.truncated .ldms) := by rfl
theorem test_encode_ldrr : encode .standard (.ldrr 4 2) = [0x94, 4, 2] := by decide
theorem test_encode_stmh : encode .standard (.stmh 3) = [0xD8, 3] := by decide

/-- An opcode map that exchanges the numbers of ADD and AND (R81). -/
def swapped : OpcodeMap := ⟨0x02 :: 0x01 :: OpcodeMap.standard.numbers.drop 2⟩

theorem test_decode_other_map : decode swapped [0x02, 9] = .ok (.add, [9]) := by rfl
theorem test_encode_other_map : encode swapped .and = [0x01] := by decide

/-! ### One step at a time -/

/-- A machine whose instruction, of `n` words, has been fetched from `at_`, with the stack words `ws` from cell 20 up, the
last one on top. -/
def stackAt (at_ n : Nat) (ws : List Word) : State :=
  { State.reset with
    regs := { pc := BitVec.ofNat 32 (at_ + n), sp := BitVec.ofNat 32 (19 + ws.length), mp := 39, hp := 1024,
              r4 := 1, r5 := 2, r6 := 3, r7 := 4 }
    mem := imageCells 20 ws
    ia := at_ }

/-- The same for an instruction of one operand at 10. -/
def stack (ws : List Word) : State := stackAt 10 2 ws

/-- The state with `v` in the cell at `a`. -/
def put (a : Nat) (v : Word) (s : State) : State := { s with mem := memSet s.mem a v }

/-- The state with `v` in a register. -/
def set (r : Reg) (v : Word) (s : State) : State := { s with regs := regsSet s.regs r v }

/-- The state with DIR = -1. -/
def down (s : State) : State := { s with params := { s.params with dir := .down } }

/-- The state with another configuration. -/
def configured (f : Params → Params) (s : State) : State := { s with params := f s.params }

/-- The state whose host side is `h`. -/
def withHost (h : HostState) (s : State) : State := { s with host := h }

/-- The instruction goes on to a next state that passes the test. -/
def check (i : Instr) (s : State) (p : State → Bool) : Bool :=
  match exec i s with
  | .next t => p t
  | .fault _ => false
  | .refused _ => false

/-- The same of a step. -/
def checkStep (s : State) (p : State → Bool) : Bool :=
  match step s with
  | .next t => p t
  | .fault _ => false
  | .refused _ => false

/-- SP is `sp` and the cell there holds `v`. -/
def topIs (sp : Word) (v : Word) (t : State) : Bool := t.reg .sp == sp && t.cell (sint sp) == v

theorem test_add : check (.add) (stack [3, 4]) (fun t => topIs 20 7 t) = true := by decide
theorem test_add_wraps : check (.add) (stack [0x7FFFFFFF, 1]) (fun t => topIs 20 0x80000000 t) = true := by decide
theorem test_sub : check (.sub) (stack [3, 4]) (fun t => topIs 20 0xFFFFFFFF t) = true := by decide
theorem test_sub_wraps : check (.sub) (stack [0x80000000, 1]) (fun t => topIs 20 0x7FFFFFFF t) = true := by decide
theorem test_mul_wraps : check (.mul) (stack [0x80000000, 0xFFFFFFFF]) (fun t => topIs 20 0x80000000 t) = true := by decide
theorem test_mul_low : check (.mul) (stack [0x10000, 0x10000]) (fun t => topIs 20 0 t) = true := by decide
theorem test_div : check (.div) (stack [0xFFFFFFF9, 2]) (fun t => topIs 20 0xFFFFFFFD t) = true := by decide
theorem test_mod : check (.mod) (stack [0xFFFFFFF9, 2]) (fun t => topIs 20 0xFFFFFFFF t) = true := by decide
theorem test_and : check (.and) (stack [0xC, 0xA]) (fun t => topIs 20 0x8 t) = true := by decide
theorem test_or : check (.or) (stack [0xC, 0xA]) (fun t => topIs 20 0xE t) = true := by decide
theorem test_xor : check (.xor) (stack [0xC, 0xA]) (fun t => topIs 20 0x6 t) = true := by decide
theorem test_lsl : check (.lsl) (stack [1, 0xFFFFFFFF]) (fun t => topIs 20 0x80000000 t) = true := by decide
theorem test_lsl_by_32 : check (.lsl) (stack [1, 32]) (fun t => topIs 20 1 t) = true := by decide
theorem test_lsr : check (.lsr) (stack [0x80000000, 31]) (fun t => topIs 20 1 t) = true := by decide
theorem test_lsr_by_32 : check (.lsr) (stack [0x80000000, 32]) (fun t => topIs 20 0x80000000 t) = true := by decide
theorem test_rol : check (.rol) (stack [0x12345678, 8]) (fun t => topIs 20 0x34567812 t) = true := by decide
theorem test_rol_by_31 : check (.rol) (stack [0x12345678, 0xFFFFFFFF]) (fun t => topIs 20 0x091A2B3C t) = true := by decide
theorem test_ror : check (.ror) (stack [0x12345678, 8]) (fun t => topIs 20 0x78123456 t) = true := by decide
theorem test_ror_by_33 : check (.ror) (stack [0x12345678, 33]) (fun t => topIs 20 0x091A2B3C t) = true := by decide
theorem test_eq : check (.eq) (stack [4, 4]) (fun t => topIs 20 0xFFFFFFFF t) = true := by decide
theorem test_eq_not : check (.eq) (stack [3, 4]) (fun t => topIs 20 0 t) = true := by decide
theorem test_ne : check (.ne) (stack [3, 4]) (fun t => topIs 20 0xFFFFFFFF t) = true := by decide
theorem test_ne_not : check (.ne) (stack [4, 4]) (fun t => topIs 20 0 t) = true := by decide
theorem test_lt : check (.lt) (stack [0x80000000, 0]) (fun t => topIs 20 0xFFFFFFFF t) = true := by decide
theorem test_lt_equal : check (.lt) (stack [4, 4]) (fun t => topIs 20 0 t) = true := by decide
theorem test_gt : check (.gt) (stack [0, 0xFFFFFFFF]) (fun t => topIs 20 0xFFFFFFFF t) = true := by decide
theorem test_gt_equal : check (.gt) (stack [4, 4]) (fun t => topIs 20 0 t) = true := by decide
theorem test_le : check (.le) (stack [4, 4]) (fun t => topIs 20 0xFFFFFFFF t) = true := by decide
theorem test_le_signed : check (.le) (stack [0x7FFFFFFF, 0x80000000]) (fun t => topIs 20 0 t) = true := by decide
theorem test_ge : check (.ge) (stack [4, 4]) (fun t => topIs 20 0xFFFFFFFF t) = true := by decide
theorem test_ge_signed : check (.ge) (stack [0x80000000, 0]) (fun t => topIs 20 0 t) = true := by decide
theorem test_eq_other_sentinel : check (.eq) (configured (fun p => { p with constTrue := 1 }) (stack [4, 4])) (fun t => topIs 20 1 t) = true := by decide
theorem test_brf_other_sentinel : check (.brf 5) (configured (fun p => { p with constFalse := 7 }) (stack [7])) (fun t => t.reg .pc == 17) = true := by decide
theorem test_cmp_less : check (.cmp) (stack [0x80000000, 0]) (fun t => topIs 20 1 t) = true := by decide
theorem test_cmp_greater : check (.cmp) (stack [0, 0xFFFFFFFF]) (fun t => topIs 20 4 t) = true := by decide
theorem test_div_by_zero : check (.div) (stack [5, 0]) (fun t => t.rs == .faulted (.divideByZero 10) && t.reg .sp == 19) = true := by decide
theorem test_mod_by_zero : check (.mod) (stack [5, 0]) (fun t => t.rs == .faulted (.divideByZero 10) && t.reg .sp == 19) = true := by decide
theorem test_neg : check (.neg) (stack [0x80000000]) (fun t => topIs 20 0x80000000 t) = true := by decide
theorem test_neg_five : check (.neg) (stack [5]) (fun t => topIs 20 0xFFFFFFFB t) = true := by decide
theorem test_not : check (.not) (stack [0x0F0F0F0F]) (fun t => topIs 20 0xF0F0F0F0 t) = true := by decide
theorem test_not_one : check (.not) (stack [1]) (fun t => topIs 20 0xFFFFFFFE t) = true := by decide
theorem test_bra : check (.bra 0xFFFFFFFE) (stack []) (fun t => t.reg .pc == 10 && t.reg .sp == 19) = true := by decide
theorem test_brf : check (.brf 5) (stack [0]) (fun t => t.reg .pc == 17 && t.reg .sp == 19) = true := by decide
theorem test_brf_not : check (.brf 5) (stack [7]) (fun t => t.reg .pc == 12 && t.reg .sp == 19) = true := by decide
theorem test_brt : check (.brt 0xFFFFFFFC) (stack [7]) (fun t => t.reg .pc == 8 && t.reg .sp == 19) = true := by decide
theorem test_brt_not : check (.brt 0xFFFFFFFC) (stack [0]) (fun t => t.reg .pc == 12 && t.reg .sp == 19) = true := by decide
theorem test_beq : check (.beq 3) (stack [2]) (fun t => t.reg .pc == 15 && t.reg .sp == 19) = true := by decide
theorem test_beq_not : check (.beq 3) (stack [1]) (fun t => t.reg .pc == 12 && t.reg .sp == 19) = true := by decide
theorem test_bne : check (.bne 3) (stack [1]) (fun t => t.reg .pc == 15 && t.reg .sp == 19) = true := by decide
theorem test_bne_not : check (.bne 3) (stack [2]) (fun t => t.reg .pc == 12 && t.reg .sp == 19) = true := by decide
theorem test_blt : check (.blt 0xFFFFFFFA) (stack [1]) (fun t => t.reg .pc == 6 && t.reg .sp == 19) = true := by decide
theorem test_blt_high_bits : check (.blt 3) (stack [0xFFFFFFF9]) (fun t => t.reg .pc == 15 && t.reg .sp == 19) = true := by decide
theorem test_bgt : check (.bgt 3) (stack [4]) (fun t => t.reg .pc == 15 && t.reg .sp == 19) = true := by decide
theorem test_bgt_not : check (.bgt 3) (stack [2]) (fun t => t.reg .pc == 12 && t.reg .sp == 19) = true := by decide
theorem test_ble_not : check (.ble 3) (stack [4]) (fun t => t.reg .pc == 12 && t.reg .sp == 19) = true := by decide
theorem test_ble : check (.ble 3) (stack [2]) (fun t => t.reg .pc == 15 && t.reg .sp == 19) = true := by decide
theorem test_bge_not : check (.bge 3) (stack [1]) (fun t => t.reg .pc == 12 && t.reg .sp == 19) = true := by decide
theorem test_bge_no_bits : check (.bge 3) (stack [0]) (fun t => t.reg .pc == 12 && t.reg .sp == 19) = true := by decide
theorem test_bsr : check (.bsr 6) (stackAt 2 2 []) (fun t => t.reg .pc == 10 && topIs 20 4 t) = true := by decide
theorem test_jsr : check (.jsr) (stackAt 7 1 [40]) (fun t => t.reg .pc == 40 && topIs 20 8 t) = true := by decide
theorem test_ret : check (.ret) (stackAt 17 1 [4]) (fun t => t.reg .pc == 4 && t.reg .sp == 19) = true := by decide
theorem test_nop : check (.nop) (stackAt 5 1 []) (fun t => t == stackAt 5 1 []) = true := by decide
theorem test_halt : check (.halt) (stackAt 7 1 []) (fun t => t.rs == .halted && t.host.diags == [.halted] && t.reg .pc == 8) = true := by decide
theorem test_adjs : check (.adjs 0xFFFFFFFE) (stack [0]) (fun t => t.reg .sp == 18 && t.mem == (stack [0]).mem) = true := by decide
theorem test_adjs_down : check (.adjs 0xFFFFFFFE) (down (stack [0])) (fun t => t.reg .sp == 22) = true := by decide
theorem test_ldc : check (.ldc 0xFFFFFFFF) (stack []) (fun t => topIs 20 0xFFFFFFFF t) = true := by decide
theorem test_ldc_down : check (.ldc 3) (down (set .sp 2000 (stack []))) (fun t => topIs 1999 3 t) = true := by decide
theorem test_lds : check (.lds 0xFFFFFFFF) (stack [5, 9]) (fun t => topIs 22 5 t) = true := by decide
theorem test_lds_down : check (.lds 0xFFFFFFFF) (down (put 1999 5 (set .sp 1998 (stack [])))) (fun t => topIs 1997 5 t) = true := by decide
theorem test_ldms : check (.ldms 0xFFFFFFFF 2) (stack [7, 8]) (fun t => topIs 23 8 t && t.cell 22 == 7) = true := by decide
theorem test_ldms_negative : check (.ldms 0xFFFFFFFF 0xFFFFFFFF) (stack [7, 8]) (fun t => t.rs == .faulted (.invalidCount (-1) 10) && t.reg .sp == 21) = true := by decide
theorem test_sts : check (.sts 0xFFFFFFFF) (stack [5, 9]) (fun t => topIs 20 9 t) = true := by decide
theorem test_stms : check (.stms 0xFFFFFFFC 2) (stack [0, 7, 8]) (fun t => topIs 20 0 t && t.cell 18 == 7 && t.cell 19 == 8) = true := by decide
theorem test_stms_overlap : check (.stms 0xFFFFFFFF 3) (stack [1, 2, 3]) (fun t => topIs 19 0 t && [t.cell 20, t.cell 21, t.cell 22, t.cell 23] == [1, 1, 2, 3]) = true := by decide
theorem test_ldl : check (.ldl 1) (put 40 6 (stack [])) (fun t => topIs 20 6 t) = true := by decide
theorem test_ldml : check (.ldml 1 2) (put 40 1 (put 41 2 (stack []))) (fun t => topIs 21 2 t && t.cell 20 == 1) = true := by decide
theorem test_stl : check (.stl 1) (stack [6]) (fun t => t.cell 40 == 6 && t.reg .sp == 19) = true := by decide
theorem test_stml : check (.stml 1 2) (stack [1, 2]) (fun t => t.cell 40 == 1 && t.cell 41 == 2 && t.reg .sp == 19) = true := by decide
theorem test_lda : check (.lda 1) (put 101 9 (stack [100])) (fun t => topIs 20 9 t) = true := by decide
theorem test_lda_refused : check (.lda 0) (stack [0xFFFFFFFF]) (fun t => t.rs == .faulted (.addressFault (-1) 10) && t.reg .sp == 19) = true := by decide
theorem test_ldma : check (.ldma 0 2) (put 100 4 (put 101 5 (stack [100]))) (fun t => topIs 21 5 t && t.cell 20 == 4) = true := by decide
theorem test_sta : check (.sta 0) (stack [9, 100]) (fun t => t.cell 100 == 9 && t.reg .sp == 19) = true := by decide
theorem test_stma : check (.stma 0 2) (stack [4, 5, 100]) (fun t => t.cell 100 == 4 && t.cell 101 == 5 && t.reg .sp == 19) = true := by decide
theorem test_ldaa : check (.ldaa 2) (stack [100]) (fun t => topIs 20 102 t && t.events.length == 3) = true := by decide
theorem test_ldaa_down : check (.ldaa 2) (down (stack [100])) (fun t => topIs 20 98 t) = true := by decide
theorem test_ldsa : check (.ldsa 0xFFFFFFFF) (stack [5]) (fun t => topIs 21 19 t) = true := by decide
theorem test_ldla : check (.ldla 1) (stack []) (fun t => topIs 20 40 t) = true := by decide
theorem test_ldr : check (.ldr 1) (stack []) (fun t => topIs 20 19 t) = true := by decide
theorem test_ldr_8 : check (.ldr 8) (stack []) (fun t => t.rs == .faulted (.invalidRegister 8 10) && t.reg .sp == 19) = true := by decide
theorem test_ldrr : check (.ldrr 4 2) (stack []) (fun t => t.reg .r4 == 39 && t.reg .mp == 39) = true := by decide
theorem test_ldrr_same : check (.ldrr 4 4) (stack []) (fun t => t.events == [.reg .r4 1 1]) = true := by decide
theorem test_str : check (.str 4) (stack [7]) (fun t => t.reg .r4 == 7 && t.reg .sp == 19) = true := by decide
theorem test_str_sp : check (.str 1) (stack [100]) (fun t => t.reg .sp == 100 && t.events == [.reg .sp 20 19, .reg .sp 19 100]) = true := by decide
theorem test_swp : check (.swp) (stack [3, 4]) (fun t => topIs 21 3 t && t.cell 20 == 4) = true := by decide
theorem test_swpr : check (.swpr 4) (stack [9]) (fun t => topIs 20 1 t && t.reg .r4 == 9) = true := by decide
theorem test_swpr_sp : check (.swpr 1) (stack [50]) (fun t => t.cell 20 == 20 && t.reg .sp == 50) = true := by decide
theorem test_swprr : check (.swprr 4 5) (stack []) (fun t => t.reg .r4 == 2 && t.reg .r5 == 1) = true := by decide
theorem test_swprr_second_8 : check (.swprr 7 8) (stack []) (fun t => t.rs == .faulted (.invalidRegister 8 10) && t.events == []) = true := by decide
theorem test_link : check (.link 2) (stack []) (fun t => t.cell 20 == 39 && t.reg .mp == 20 && t.reg .sp == 22) = true := by decide
theorem test_link_negative : check (.link 0xFFFFFFFD) (stack []) (fun t => t.cell 20 == 39 && t.reg .mp == 20 && t.reg .sp == 17) = true := by decide
theorem test_unlink : check (.unlink) (put 39 38 (set .sp 41 (stack []))) (fun t => t.reg .sp == 38 && t.reg .mp == 38) = true := by decide
theorem test_sth : check (.sth) (stack [42]) (fun t => t.cell 1024 == 42 && t.reg .hp == 1025 && topIs 20 1024 t) = true := by decide
theorem test_sth_down : check (.sth) (down (put 2000 42 (set .sp 2000 (stack [])))) (fun t => t.cell 1024 == 42 && t.reg .hp == 1025 && topIs 2000 1024 t) = true := by decide
theorem test_stmh : check (.stmh 3) (stack [1, 2, 3]) (fun t => [t.cell 1024, t.cell 1025, t.cell 1026] == [1, 2, 3] && t.reg .hp == 1027 && topIs 20 1026 t) = true := by decide
theorem test_stmh_zero : check (.stmh 0) (stack [1]) (fun t => t.rs == .faulted (.invalidCount 0 10) && t.reg .hp == 1024) = true := by decide
theorem test_ldh : check (.ldh 0xFFFFFFFE) (put 1024 1 (down (stack [1026]))) (fun t => topIs 20 1 t) = true := by decide
theorem test_ldmh : check (.ldmh 0xFFFFFFFE 3) (put 1024 1 (put 1025 2 (put 1026 3 (stack [1026])))) (fun t => topIs 22 3 t && t.cell 20 == 1 && t.cell 21 == 2) = true := by decide
theorem test_ldmh_none : check (.ldmh 0 0) (stack [1024]) (fun t => t.reg .sp == 19 && t.rs == .running) = true := by decide

/-! TRAP, by its sub-opcodes. -/

/-- A host side with answers and verdicts given. -/
def host : HostState :=
  { HostState.initial with
    files := [([102], [65, 66])]
    intAnswers := [12]
    charAnswers := [120]
    textAnswers := [[104, 105]]
    fileVerdicts := [false] }

/-- A machine over that host side, with a reader and a writer open. -/
def files (ws : List Word) : State :=
  { withHost host (stack ws) with handles := [(0, .writer [102]), (1, .reader [102] 1), (2, .reader [102] 2)] }

theorem test_trap_pr_int : check (.trap 0) (stack [0x80000000]) (fun t => t.host.console == [.outInt 0x80000000] && t.reg .sp == 19) = true := by decide
theorem test_out_int_text : (ConsoleEvent.outInt 0x80000000).text = some "-2147483648" := by decide
theorem test_trap_pr_char : check (.trap 1) (stack [65]) (fun t => t.host.console == [.outChar 65] && t.reg .sp == 19) = true := by decide
theorem test_trap_in_int : check (.trap 10) (files []) (fun t => topIs 20 12 t && t.host.intAnswers == []) = true := by decide
theorem test_trap_in_int_waits : check (.trap 10) (stack []) (fun t => t == { stack [] with waiting := some .int }) = true := by decide
theorem test_trap_in_char : check (.trap 11) (files []) (fun t => topIs 20 120 t) = true := by decide
theorem test_trap_in_char_array : check (.trap 12) (files []) (fun t => topIs 22 104 t && t.cell 21 == 105 && t.cell 20 == 0) = true := by decide
theorem test_trap_open_write : check (.trap 21) (withHost host (stack [0, 102])) (fun t => topIs 20 0 t && t.handles == [(0, .writer [102])] && t.host.files == [([102], [])]) = true := by decide
theorem test_trap_open_read_missing : check (.trap 20) (withHost host (stack [0, 103])) (fun t => t.reg .sp == 19 && t.host.diags == [.fileNotFound [103]]) = true := by decide
theorem test_trap_open_read_free_handle : check (.trap 20) (files [0, 102]) (fun t => topIs 20 3 t && sparseGet t.handles 3 == some (.reader [102] 0)) = true := by decide
theorem test_trap_read : check (.trap 22) (files [1]) (fun t => topIs 20 66 t && sparseGet t.handles 1 == some (.reader [102] 2)) = true := by decide
theorem test_trap_read_end : check (.trap 22) (files [2]) (fun t => topIs 20 0xFFFFFFFF t) = true := by decide
theorem test_trap_read_writer : check (.trap 22) (files [0]) (fun t => t.reg .sp == 19 && t.host.diags == [.ioError 0]) = true := by decide
theorem test_trap_write : check (.trap 23) (files [321, 0]) (fun t => topIs 20 0 t && t.host.files == [([102], [65, 66, 65])]) = true := by decide
theorem test_trap_write_no_handle : check (.trap 23) (files [65, 5]) (fun t => t.reg .sp == 19 && t.host.diags == [.invalidHandle 5]) = true := by decide
theorem test_trap_close : check (.trap 24) (files [1]) (fun t => t.reg .sp == 19 && t.handles == [(0, .writer [102]), (2, .reader [102] 2)]) = true := by decide
theorem test_trap_unknown : check (.trap 99) (stack [7]) (fun t => topIs 20 7 t && t.host.diags == [.unknownTrap 99 10] && t.events == []) = true := by decide

theorem test_trap_other_map : check (.trap 5) (configured (fun p => { p with traps := { p.traps with prInt := 5 } }) (stack [65])) (fun t => t.host.console == [.outInt 65]) = true := by decide

/-! The sequencer, memory, reset and the host interface. -/

/-- A machine right after reset with an image. -/
def loaded (image : List Word) : State := (hostReset image State.reset).getD State.reset

theorem test_step_ldc : checkStep (loaded [0x84, 3, 0x74]) (fun t =>
    t.events == [.reg .pc 0 1, .reg .pc 1 2, .reg .sp 2 3, .mem 3 0] && t.ops == [3] && t.ia == 0) = true := by decide
theorem test_step_other_map : checkStep (configured (fun p => { p with opcodes := swapped }) { stackAt 0 0 [0xC, 0xA] with mem := [(0, 1), (20, 0xC), (21, 0xA)] }) (fun t =>
    topIs 20 0x8 t && t.ir == some { rowOf .and with opcode := 1 }) = true := by decide
theorem test_step_illegal : checkStep (loaded [0]) (fun t =>
    t.reg .pc == 1 && t.rs == .halted && t.host.diags == [.illegalOpcode 0 0]) = true := by decide
theorem test_step_halted : step { loaded [1] with rs := .halted } = .next { loaded [1] with rs := .halted } := by rfl
theorem test_fetch_refused : checkStep (set .pc 5000 (loaded [])) (fun t =>
    t.rs == .faulted (.addressFault 5000 0) && t.reg .pc == 5000) = true := by decide
theorem test_read_grows : (memRead 3071 State.reset).state.cap = 3072 := by decide
theorem test_read_refused : (memRead 3072 State.reset).state.rs = .faulted (.addressFault 3072 0) := by decide
theorem test_write_canonical : (memWrite 5 0 (put 5 7 State.reset)).state.mem = [] := by decide
theorem test_reset_image : (loaded [0x84, 3, 0x84, 4, 1, 0xC8, 0, 0x74]).regs =
    { pc := 0, sp := 7, mp := 7, hp := 1024, r4 := 0, r5 := 0, r6 := 0, r7 := 0 } := by decide
theorem test_reset_down : (State.afterReset { Params.standard with dir := .down, initFrame := 2 } 2000 []
    HostState.initial [] []).regs.sp = 1998 := by decide
theorem test_fetch_word_runs_first : checkStep (State.reset.withFetchWord 64 0x0000000700000084) (fun t =>
    topIs 0 7 t && t.reg .pc == 2) = true := by decide

/-- A machine with one listener. -/
def heardBy (s : State) : State := { s with host := { s.host with subscribers := [s.events.length] } }

/-- A listener sees SP moved before the word is there, and the word after it (R224). -/
theorem test_seen_push : check (.ldc 7) (heardBy (stack [5])) (fun t =>
    (seen 0 t).map (fun v => (v.regs.sp, memGet v.mem 21)) == [(21, 0), (21, 7)]) = true := by decide
theorem test_seen_by_nobody : check (.ldc 7) (stack [5]) (fun t => t.events.length == 2 && t.views == []) = true := by decide
theorem test_seen_later_listener :
    ((((hostSubscribe State.reset).bind (hostSetReg .r4 1)).bind hostSubscribe).bind (hostSetReg .r4 2)).map
      (fun t => ((seen 0 t).map (·.regs.r4), (seen 1 t).map (·.regs.r4))) = some ([1, 2], [2]) := by decide
theorem test_annotation_at_capacity : setAnnotation 2048 (some { text := .heapBegin, tag := none }) State.reset = none := by
  decide
theorem test_annotation_while_waiting :
    setAnnotation 5 none { State.reset with waiting := some .int } = none := by decide
theorem test_annotation_below_capacity :
    (setAnnotation 2047 (some { text := .heapBegin, tag := some 3 }) State.reset).map (·.annotationAt 2047) =
      some (some { text := .heapBegin, tag := some 3 }) := by decide
theorem test_get_state : hostGetState { down (stack [5, 0]) with rs := .faulted (.divideByZero 10), waiting := some .int } =
    { currentInstruction := none, inlineOperands := [], instructionAddress := 10, halted := false,
      runState := .faulted (.divideByZero 10), direction := .down, openHandles := [] } := by decide

/-! ### A witness for the hypotheses of each obligation that has some

Where a statement speaks of accesses, the witness is at an edge: the last cell, the growth window's last cell, a stack that
ends at address 0. -/

/-- A machine whose next instruction is the three words `ws`, in the last cells of memory. -/
def atEnd (ws : List Word) : State := { set .pc 2045 State.reset with mem := imageCells 2045 ws }

theorem witness_DecodeInvertsEncode : OpcodeMap.standard.wellFormed = true ∧ swapped.wellFormed = true := by decide

theorem witness_LookupComparesTheWholeWord : swapped.wellFormed = true ∧ ((0x100 : Word) >>> 8 : Word) ≠ 0 ∧
    ((0xD9 : Word) = 0 ∨ 0xD9 ≤ uint (0xD9 : Word)) ∧ ((0 : Word) = 0 ∨ 0xD9 ≤ uint (0 : Word)) ∧
    ∃ r ∈ opcodeTable swapped, r.opcode = 0xD8 :=
  ⟨by decide, by decide, by decide, by decide, rowOf .stmh, by decide, rfl⟩

theorem witness_StepRunsTheDecodedInstruction :
    let s := atEnd [0x9A, 0xFFFFFFFF, 2]
    s.params.opcodes.wellFormed = true ∧ Ready s ∧
      s.admits (codeAddrs s (Instr.operands (.ldms 0xFFFFFFFF 2)).length) = true ∧
      (codeAddrs s (Instr.operands (.ldms 0xFFFFFFFF 2)).length).map s.cell =
        encode s.params.opcodes (.ldms 0xFFFFFFFF 2) :=
  ⟨by decide, ⟨rfl, rfl⟩, by decide, by decide⟩

theorem witness_IllegalOpcodeHaltsWithOneDiagnostic :
    let s := set .pc 3071 State.reset
    Ready s ∧ s.admits [sint (s.reg .pc)] = true ∧ lookup s.params.opcodes (s.cell (sint (s.reg .pc))) = none :=
  ⟨⟨rfl, rfl⟩, by decide, by decide⟩

theorem witness_StoppedMachineStaysAsItIs :
    { State.reset with rs := .halted }.rs ≠ .running ∧
      { State.reset with rs := .faulted (.divideByZero 4) }.rs ≠ .running := by decide

theorem witness_RefusedFetchFaults_opcode :
    (let s := set .pc 3072 State.reset
     Ready s ∧ s.admits [sint (s.reg .pc)] = false) ∧
    let s := set .pc 0xFFFFFFFF State.reset
    Ready s ∧ s.admits [sint (s.reg .pc)] = false :=
  ⟨⟨⟨rfl, rfl⟩, by decide⟩, ⟨rfl, rfl⟩, by decide⟩

/-- A memory so large that the words after the opcode word run past the last address. -/
def top (pc w : Word) : State := { set .pc pc State.reset with cap := 2 ^ 31, mem := [(pc.toNat, w)] }

theorem witness_RefusedFetchFaults_operand :
    (let s := top 0x7FFFFFFF 0x84
     Ready s ∧ 0 < (rowOf .ldc).operandCount ∧ s.admits (codeAddrs s 0) = true ∧
       lookup s.params.opcodes (s.cell (sint (s.reg .pc))) = some (rowOf .ldc) ∧ s.admits (codeAddrs s 1) = false) ∧
    let s := top 0x7FFFFFFE 0x9A
    Ready s ∧ 1 < (rowOf .ldms).operandCount ∧ s.admits (codeAddrs s 1) = true ∧
      lookup s.params.opcodes (s.cell (sint (s.reg .pc))) = some (rowOf .ldms) ∧ s.admits (codeAddrs s 2) = false :=
  ⟨⟨⟨rfl, rfl⟩, by decide, by decide, by decide, by decide⟩, ⟨rfl, rfl⟩, by decide, by decide, by decide, by decide⟩

theorem witness_PromptWaitsForTheHost :
    let s := { State.reset with waiting := some .charArray }
    (trapOf s.params.traps 10 = some .inInt ∧ trapOf s.params.traps 11 = some .inChar ∧
      trapOf s.params.traps 12 = some .inCharArray) ∧
    s.rs = .running ∧ s.host.intAnswers = [] ∧ s.host.charAnswers = [] ∧ s.host.textAnswers = [] ∧
      s.waiting = some .charArray ∧ { s with waiting := some .int }.waiting = some .int ∧
      { s with waiting := some .char }.waiting = some .char := by decide

theorem witness_ReadAndWriteOneCell : State.reset.admits [0] = true ∧ State.reset.admits [2047] = true ∧
    (State.reset.admits [3071] = true ∧ (State.reset.cap : Int) ≤ 3071) ∧
    State.reset.admits [2048] = true ∧ (State.reset.cap : Int) ≤ 2048 := by decide

theorem witness_RefusedAccessFaults : ((-1 : Int) < 0 ∨ (State.reset.cap : Int) + State.reset.params.growInc ≤ -1) ∧
    ((3072 : Int) < 0 ∨ (State.reset.cap : Int) + State.reset.params.growInc ≤ 3072) := by decide

theorem witness_RefusedTopFaultsAtOnce : State.reset.admits [topAddr State.reset] = false ∧ 0 ≤ sint (0 : Word) ∧
    ([0, 1, 20, 21, 22, 23, 24] : List Word).map (trapOf State.reset.params.traps) =
      [some .prInt, some .prChar, some .fileOpenRead, some .fileOpenWrite, some .fileRead, some .fileWrite,
        some .fileClose] := by decide

/-- After the accesses `done` the one to `a` is refused. -/
def stops (s : State) (done : List Int) (a : Int) : Bool := s.admits done && !s.admits (done ++ [a])

theorem witness_RefusedAccessLeavesPartialEffects_stack :
    (let s := set .sp 3071 State.reset
     stops s [] (fromTop s 1) = true) ∧
    (let s := down (set .sp 0 State.reset)
     stops s [] (fromTop s 1) = true) ∧
    let s := set .sp 0 State.reset
    stops s [topAddr s] (fromTop s (-1)) = true ∧ stops s [topAddr s] (sint (disp s .sp (sint (0xFFFFFFFF : Word)))) = true ∧
      trapOf s.params.traps 23 = some .fileWrite := by decide

theorem witness_RefusedAccessLeavesPartialEffects_cell :
    (let s := set .hp 3072 (stack [9, 0xFFFFFFFF])
     let src := addr (sint (s.cell (topAddr s)) + sint (0 : Word) * s.dir)
     stops s [topAddr s] src = true ∧ stops s [topAddr s] (addr (sint (s.cell (topAddr s)) + sint (0 : Word))) = true ∧
       stops s [topAddr s, fromTop s (-1)] src = true ∧ stops s [topAddr s] (sint (disp s .mp (sint (0xFFFFFFD8 : Word)))) = true ∧
       stops s [topAddr s] (sint (s.reg .hp)) = true) ∧
    (let s := set .mp 0xFFFFFFFF State.reset
     stops s [] (sint (disp s .sp (sint (0 : Word)))) = true ∧ stops s [] (sint (disp s .mp (sint (0 : Word)))) = true ∧
       stops s [] (sint (s.reg .mp)) = true) ∧
    let s := set .mp 0 (set .sp 3071 State.reset)
    stops s [sint (disp s .sp (sint (0xFFFFF401 : Word)))] (fromTop s 1) = true ∧
      stops s [sint (disp s .mp (sint (0 : Word)))] (fromTop s 1) = true := by decide

theorem witness_BadOperandsFaultAtOnce : nreg ≤ uint (8 : Word) ∧ nreg ≤ uint (0xFFFFFFFF : Word) ∧
    sint (0xFFFFFFFF : Word) < 0 ∧ sint (0x80000000 : Word) < 0 ∧ sint (0 : Word) < 1 := by decide

/-- Two stack words that end at address 0. -/
def twoWords (l r : Word) : State := put 0 l (put 1 r (set .sp 1 (stack [])))

/-- The accesses of a BINOP are not refused, in both directions of growth. -/
theorem witness_binop :
    (let s := twoWords 3 4
     s.admits [topAddr s, fromTop s (-1), fromTop s (-1)] = true) ∧
    let s := down (set .sp 3070 State.reset)
    s.admits [topAddr s, fromTop s (-1), fromTop s (-1)] = true := by decide

theorem witness_AddSubMulWrap : let s := twoWords 3 4
    s.admits [topAddr s, fromTop s (-1), fromTop s (-1)] = true ∧ True := by decide

theorem witness_DivModDivideOrFault :
    (let s := twoWords 0x80000000 0xFFFFFFFF
     s.admits [topAddr s, fromTop s (-1), fromTop s (-1)] = true ∧ sint (s.cell (topAddr s)) ≠ 0) ∧
    let s := twoWords 5 0
    (Instr.div = .div ∨ Instr.div = .mod) ∧ (Instr.mod = .div ∨ Instr.mod = .mod) ∧
      s.admits [topAddr s, fromTop s (-1)] = true ∧ s.cell (topAddr s) = 0 := by decide

theorem witness_DivModReconstructTheDividend : sint (0xFFFFFFFF : Word) ≠ 0 := by decide

theorem witness_LogicIsBitwise : let s := twoWords 12 10
    s.admits [topAddr s, fromTop s (-1), fromTop s (-1)] = true ∧ True := by decide

theorem witness_ShiftsAndRotatesModulo32 : let s := twoWords 0x80000001 32
    s.admits [topAddr s, fromTop s (-1), fromTop s (-1)] = true ∧ True := by decide

theorem witness_ComparisonsPushSentinels : let s := twoWords 0x80000000 0x7FFFFFFF
    s.admits [topAddr s, fromTop s (-1), fromTop s (-1)] = true ∧ True := by decide

theorem witness_CmpPushesOneConditionBit : let s := twoWords 4 4
    s.admits [topAddr s, fromTop s (-1), fromTop s (-1)] = true ∧ True := by decide

theorem witness_NegNotReplaceTheTop : let s := put 0 5 (set .sp 0 (stack []))
    s.admits [topAddr s, topAddr s] = true := by decide

theorem witness_ConditionalBranchesPopAndBranch :
    (let s := put 0 0 (set .sp 0 (stack []))
     s.admits [topAddr s] = true) ∧
    let s := set .sp 3071 (stack [])
    s.admits [topAddr s] = true := by decide

theorem witness_CmpThenBrccBranchesOnTheRelation : let s := twoWords 0 0xFFFFFFFF
    s.admits [topAddr s, fromTop s (-1), fromTop s (-1)] = true := by decide

theorem witness_BsrPushesNextAndJumps :
    State.reset.admits [fromTop State.reset 1] = true ∧
      (set .sp 3070 State.reset).admits [fromTop (set .sp 3070 State.reset) 1] = true := by decide

theorem witness_JsrAndRetJumpToThePoppedAddress : let s := put 0 40 (set .sp 0 (stack []))
    s.admits [topAddr s, topAddr s] = true ∧ s.admits [topAddr s] = true := by decide

/-- The state a meaning goes on to. -/
def after (i : Instr) (s : State) : State :=
  match exec i s with
  | .next t => t
  | .fault _ => s
  | .refused _ => s

theorem witness_RetReturnsBehindTheBsr :
    let s := stackAt 2 2 []
    let t := after (.bsr 6) s
    s.admits [fromTop s 1] = true ∧ exec (.bsr 6) s = .next t ∧ t.params = t.params ∧ t.reg .sp = t.reg .sp ∧
      t.cell (topAddr t) = t.cell (topAddr t) ∧ t.admits [topAddr t] = true :=
  ⟨by decide, rfl, rfl, rfl, rfl, by decide⟩

theorem witness_ConstantAndCellLoadsPush :
    State.reset.admits [fromTop State.reset 1] = true ∧
    (let s := stack [5]
     s.admits [addr (sint (s.reg .sp) + sint (0 : Word) * s.dir), fromTop s 1] = true) ∧
    let s := stack []
    s.admits [addr (sint (s.reg .mp) + sint (0xFFFFFFD9 : Word) * s.dir), fromTop s 1] = true := by decide

theorem witness_SingleWordStoresPopIntoTheCell :
    (let s := stack [6]
     s.admits [topAddr s, addr (sint (s.reg .sp) + sint (0 : Word) * s.dir)] = true ∧
       s.admits [topAddr s, addr (sint (s.reg .mp) + sint (0xFFFFFFD9 : Word) * s.dir)] = true) ∧
    let s := twoWords 9 3071
    s.admits [topAddr s, fromTop s (-1), addr (sint (s.cell (topAddr s)) + sint (0 : Word) * s.dir)] = true := by decide

theorem witness_LoadsThroughTheTopReplaceIt :
    let s := put 0 3071 (set .sp 0 (stack []))
    s.admits [topAddr s, addr (sint (s.cell (topAddr s)) + sint (0 : Word) * s.dir), topAddr s] = true ∧
      s.admits [topAddr s, addr (sint (s.cell (topAddr s)) + sint (0 : Word)), topAddr s] = true ∧
      s.admits [topAddr s, topAddr s] = true := by decide

theorem witness_BlockLoadsCopyOntoTheStack :
    let s := stack [7, 1023]
    (0 ≤ sint (0 : Word) ∧ 0 ≤ sint (2 : Word)) ∧
    (s.admits (popAccess false s ++ blockAddrs (sint (disp s .sp (sint (0xFFFFFFFF : Word)))) s.dir 2 ++
      blockAddrs (sint (spAfterPop false s) + s.dir) s.dir 2) = true) ∧
    (s.admits (popAccess false s ++ blockAddrs (sint (disp s .mp (sint (0 : Word)))) s.dir 0 ++
      blockAddrs (sint (spAfterPop false s) + s.dir) s.dir 0) = true) ∧
    (s.admits (popAccess true s ++ blockAddrs (sint (s.cell (topAddr s)) + sint (0 : Word) * s.dir) s.dir 2 ++
      blockAddrs (sint (spAfterPop true s) + s.dir) s.dir 2) = true) ∧
    s.admits (popAccess true s ++ blockAddrs (sint (s.cell (topAddr s)) + sint (1 : Word)) 1 2 ++
      blockAddrs (sint (spAfterPop true s) + s.dir) s.dir 2) = true := by decide

/-- A memory of all 2^31 addresses. -/
def whole (s : State) : State := { s with cap := 2 ^ 31 }

/-- A word of the block after the first, or the first one, is refused. -/
theorem witness_BlockLoads_read :
    let s := whole (down (put 2000 0 (set .sp 2000 (set .mp 0 (stack [])))))
    let t := whole (put 20 0x7FFFFFFF (stack [0]))
    1 < (sint (2 : Word)).toNat ∧
      stops s (popAccess false s ++ blockAddrs (sint (disp s .sp (sint (2000 : Word)))) s.dir 1)
        (addr (sint (disp s .sp (sint (2000 : Word))) + (1 : Nat) * s.dir)) = true ∧
      stops s (popAccess false s ++ blockAddrs (sint (disp s .mp (sint (0 : Word)))) s.dir 1)
        (addr (sint (disp s .mp (sint (0 : Word))) + (1 : Nat) * s.dir)) = true ∧
      stops s (popAccess true s ++ blockAddrs (sint (s.cell (topAddr s)) + sint (0 : Word) * s.dir) s.dir 1)
        (addr (sint (s.cell (topAddr s)) + sint (0 : Word) * s.dir + (1 : Nat) * s.dir)) = true ∧
      stops t (popAccess true t ++ blockAddrs (sint (t.cell (topAddr t)) + sint (0 : Word)) 1 1)
        (addr (sint (t.cell (topAddr t)) + sint (0 : Word) + (1 : Nat) * 1)) = true := by decide

theorem witness_BlockLoads_write :
    let s := down (set .sp 1 (set .mp 100 (stack [])))
    let t := down (put 0 100 (set .sp 0 (stack [])))
    1 < (sint (2 : Word)).toNat ∧
      stops s (popAccess false s ++ blockAddrs (sint (disp s .sp (sint (0xFFFFFF9D : Word)))) s.dir 2 ++
        blockAddrs (sint (spAfterPop false s) + s.dir) s.dir 1) (addr (sint (spAfterPop false s) + s.dir + (1 : Nat) * s.dir)) = true ∧
      stops s (popAccess false s ++ blockAddrs (sint (disp s .mp (sint (0 : Word)))) s.dir 2 ++
        blockAddrs (sint (spAfterPop false s) + s.dir) s.dir 1) (addr (sint (spAfterPop false s) + s.dir + (1 : Nat) * s.dir)) = true ∧
      stops t (popAccess true t ++ blockAddrs (sint (t.cell (topAddr t)) + sint (0 : Word) * t.dir) t.dir 2 ++
        blockAddrs (sint (spAfterPop true t) + t.dir) t.dir 1) (addr (sint (spAfterPop true t) + t.dir + (1 : Nat) * t.dir)) = true ∧
      stops t (popAccess true t ++ blockAddrs (sint (t.cell (topAddr t)) + sint (0 : Word)) 1 2 ++
        blockAddrs (sint (spAfterPop true t) + t.dir) t.dir 1) (addr (sint (spAfterPop true t) + t.dir + (1 : Nat) * t.dir)) = true := by
  decide

theorem witness_BlockStores_read :
    let s := whole (set .sp 0x80000000 (stack []))
    let t := set .sp 0 (stack [])
    1 < (sint (2 : Word)).toNat ∧
      stops s (popAccess false s ++ blockAddrs (sint (spAfterPop false s) - (sint (2 : Word) - 1) * s.dir) s.dir 1)
        (addr (sint (spAfterPop false s) - (sint (2 : Word) - 1) * s.dir + (1 : Nat) * s.dir)) = true ∧
      stops t (popAccess true t ++ blockAddrs (sint (spAfterPop true t) - (sint (1 : Word) - 1) * t.dir) t.dir 0)
        (addr (sint (spAfterPop true t) - (sint (1 : Word) - 1) * t.dir + (0 : Nat) * t.dir)) = true := by decide

theorem witness_BlockStores_write :
    let s := down (set .sp 2000 (set .mp 0 (stack [])))
    let src := fun b => blockAddrs (sint (spAfterPop b s) - (sint (2 : Word) - 1) * s.dir) s.dir 2
    1 < (sint (2 : Word)).toNat ∧
      stops s (popAccess false s ++ src false ++ blockAddrs (sint (disp s .sp (sint (2000 : Word)))) s.dir 1)
        (addr (sint (disp s .sp (sint (2000 : Word))) + (1 : Nat) * s.dir)) = true ∧
      stops s (popAccess false s ++ src false ++ blockAddrs (sint (disp s .mp (sint (0 : Word)))) s.dir 1)
        (addr (sint (disp s .mp (sint (0 : Word))) + (1 : Nat) * s.dir)) = true ∧
      stops s (popAccess true s ++ src true ++ blockAddrs (sint (s.cell (topAddr s)) + sint (0 : Word) * s.dir) s.dir 1)
        (addr (sint (s.cell (topAddr s)) + sint (0 : Word) * s.dir + (1 : Nat) * s.dir)) = true := by decide

theorem witness_Stmh_stops :
    let s := whole (set .sp 0x80000000 (stack []))
    let t := whole (set .hp 0x7FFFFFFF (stack [1, 2]))
    1 < (sint (2 : Word)).toNat ∧
      stops s (popAccess false s ++ blockAddrs (topAddr s - (sint (2 : Word) - 1) * s.dir) s.dir 1)
        (addr (topAddr s - (sint (2 : Word) - 1) * s.dir + (1 : Nat) * s.dir)) = true ∧
      stops t (popAccess false t ++ blockAddrs (topAddr t - (sint (2 : Word) - 1) * t.dir) t.dir 2 ++
        blockAddrs (sint (t.reg .hp)) 1 1) (addr (sint (t.reg .hp) + (1 : Nat) * 1)) = true := by decide

theorem witness_StmsStmlStmaMoveABlock :
    let s := stack [4, 5, 1022]
    (0 ≤ sint (0 : Word) ∧ 0 ≤ sint (2 : Word)) ∧
    (s.admits (popAccess false s ++ blockAddrs (sint (spAfterPop false s) - (sint (2 : Word) - 1) * s.dir) s.dir 2 ++
      blockAddrs (sint (disp s .sp (sint (0xFFFFFFFC : Word)))) s.dir 2) = true) ∧
    (s.admits (popAccess false s ++ blockAddrs (sint (spAfterPop false s) - (sint (0 : Word) - 1) * s.dir) s.dir 0 ++
      blockAddrs (sint (disp s .mp (sint (0 : Word)))) s.dir 0) = true) ∧
    s.admits (popAccess true s ++ blockAddrs (sint (spAfterPop true s) - (sint (2 : Word) - 1) * s.dir) s.dir 2 ++
      blockAddrs (sint (s.cell (topAddr s)) + sint (0 : Word) * s.dir) s.dir 2) = true := by decide

theorem witness_LdrLdrrSwprrMoveRegisters : State.reset.admits [fromTop State.reset 1] = true := by decide

theorem witness_StrSwprMoveTheTopWord : let s := put 0 7 (set .sp 0 (stack []))
    s.admits [topAddr s] = true ∧ Reg.r4 ≠ .sp ∧ s.admits [topAddr s, topAddr s] = true := by decide

theorem witness_SwpExchangesTheTopWords : let s := twoWords 3 4
    s.admits [topAddr s, fromTop s (-1), topAddr s, fromTop s (-1)] = true := by decide

theorem witness_LinkBuildsAndUnlinkDropsAFrame :
    State.reset.admits [fromTop State.reset 1] = true ∧
      (set .mp 0 State.reset).admits [sint ((set .mp 0 State.reset).reg .mp)] = true := by decide

theorem witness_LinkThenUnlinkRestores :
    (down (set .sp 2048 State.reset)).admits [fromTop (down (set .sp 2048 State.reset)) 1] = true := by decide

theorem witness_SthAllocatesOneWord :
    let s := set .hp 3071 (stack [42])
    s.admits [topAddr s, sint (s.reg .hp), topAddr s] = true ∧ sint (s.reg .hp) ≠ topAddr s := by decide

theorem witness_StmhAllocatesABlock :
    let s := stack [1, 2, 3]
    1 ≤ sint (3 : Word) ∧
      s.admits (blockAddrs (topAddr s - (sint (3 : Word) - 1) * s.dir) s.dir (sint (3 : Word)).toNat ++
        blockAddrs (sint (s.reg .hp)) 1 (sint (3 : Word)).toNat ++
        [addr (topAddr s - (sint (3 : Word) - 1) * s.dir)]) = true ∧
      addr (sint (s.reg .hp) + (0 : Nat)) ≠ addr (topAddr s - (sint (3 : Word) - 1) * s.dir) := by decide

theorem witness_LdmhRebuildsWhatStmhStored :
    let s := stack [1, 2]
    let n : Word := 2
    1 ≤ sint n ∧
      (∀ a ∈ blockAddrs (topAddr s - (sint n - 1) * s.dir) s.dir (sint n).toNat, 0 ≤ a ∧ a < s.cap) ∧
      ∀ a ∈ blockAddrs (sint (s.reg .hp)) 1 (sint n).toNat,
        0 ≤ a ∧ a < s.cap ∧ a ∉ blockAddrs (topAddr s - (sint n - 1) * s.dir) s.dir (sint n).toNat := by decide

theorem witness_PrintTrapsSendOneEvent : let s := put 0 7 (set .sp 0 (stack []))
    s.admits [topAddr s] = true ∧ trapOf s.params.traps 0 = some .prInt ∧ trapOf s.params.traps 1 = some .prChar := by decide

theorem witness_PromptTrapsPushTheAnswer :
    (files []).admits [fromTop (files []) 1] = true ∧ (files []).host.intAnswers = 12 :: [] ∧
      (files []).host.charAnswers = 120 :: [] ∧ trapOf (files []).params.traps 10 = some .inInt ∧
      trapOf (files []).params.traps 11 = some .inChar ∧
      (set .sp 3071 (files [])).admits [fromTop (set .sp 3071 (files [])) 1] = false := by decide

theorem witness_CharArrayPromptPushesTheString :
    trapOf (files []).params.traps 12 = some .inCharArray ∧ (files []).host.textAnswers = [104, 105] :: [] ∧ [(104 : Word), 105].length < 2 ^ 31 ∧
      (files []).admits (blockAddrs (sint ((files []).reg .sp) + (files []).dir) (files []).dir 3) = true := by decide

theorem witness_FileOpenPushesTheSmallestFreeHandle :
    let s := files [0, 102]
    NameOnStack s [102] ∧ s.admits (nameAddrs s 1 ++ [fromTop s (-(1 : Int))]) = true ∧ s.fileServiceFails = false ∧
      (fileGet s.host.files [102]).isSome = true ∧ trapOf s.params.traps 20 = some .fileOpenRead ∧
      trapOf s.params.traps 21 = some .fileOpenWrite :=
  ⟨⟨by simp, by decide, by decide⟩, by decide, by decide, by decide, by decide, by decide⟩

theorem witness_FileReadPushesTheNextByte :
    (let s := files [1]
     trapOf s.params.traps 22 = some .fileRead ∧ s.admits [topAddr s, topAddr s] = true ∧ s.stream (s.cell (topAddr s)) = some (.reader [102] 1) ∧
       s.fileServiceFails = false ∧ ((fileGet s.host.files [102]).getD [])[1]? = some 66) ∧
    let s := files [2]
    s.stream (s.cell (topAddr s)) = some (.reader [102] 2) ∧ ((fileGet s.host.files [102]).getD [])[2]? = none := by decide

theorem witness_FileWriteAppendsOneByte :
    let s := files [321, 0]
    trapOf s.params.traps 23 = some .fileWrite ∧ s.admits [topAddr s, fromTop s (-1), fromTop s (-1)] = true ∧
      s.stream (s.cell (topAddr s)) = some (.writer [102]) ∧ s.fileServiceFails = false := by decide

theorem witness_FileCloseRemovesTheHandle :
    let s := files [1]
    trapOf s.params.traps 24 = some .fileClose ∧ s.admits [topAddr s] = true ∧ s.stream (s.cell (topAddr s)) = some (.reader [102] 1) := by decide

/-- The same machine, whose host reports an error on the next file service call. -/
def failing (ws : List Word) : State := withHost { host with fileVerdicts := [true] } (files ws)

theorem witness_FileErrorsAreDiagnosed_read :
    let s := files [65, 3]
    (trapOf s.params.traps 22 = some .fileRead ∧ trapOf s.params.traps 24 = some .fileClose) ∧
    (s.admits [topAddr s] = true ∧ s.stream (s.cell (topAddr s)) = none) ∧
    (files [0]).stream ((files [0]).cell (topAddr (files [0]))) = some (.writer [102]) ∧
    (failing [1]).stream ((failing [1]).cell (topAddr (failing [1]))) = some (.reader [102] 1) ∧
    (failing [1]).fileServiceFails = true := by decide

theorem witness_FileErrorsAreDiagnosed_write :
    let s := files [65, 3]
    trapOf s.params.traps 23 = some .fileWrite ∧ (s.admits [topAddr s, fromTop s (-1)] = true ∧ s.stream (s.cell (topAddr s)) = none) ∧
    (files [65, 1]).stream ((files [65, 1]).cell (topAddr (files [65, 1]))) = some (.reader [102] 1) ∧
    (failing [65, 0]).stream ((failing [65, 0]).cell (topAddr (failing [65, 0]))) = some (.writer [102]) ∧
    (failing [65, 0]).fileServiceFails = true := by decide

theorem witness_FileErrorsAreDiagnosed_open :
    let s := files [0, 103]
    NameOnStack s [103] ∧ s.admits (nameAddrs s 1) = true ∧
      (trapOf s.params.traps 20 = some .fileOpenRead ∧ fileGet s.host.files [103] = none) ∧
      trapOf s.params.traps 21 = some .fileOpenWrite ∧ (failing [0, 102]).fileServiceFails = true :=
  ⟨⟨by simp, by decide, by decide⟩, by decide, by decide, by decide, by decide⟩

theorem witness_UnknownTrapIsDiagnosed : trapOf State.reset.params.traps 2 = none ∧
    trapOf State.reset.params.traps 0xFFFFFFFF = none := by decide

theorem witness_HostResetLoadsTheImage :
    (let s := configured (fun p => { p with memInit := 1 }) State.reset
     s.waiting = none ∧ s.params.memInit < [(0x74 : Word), 0x74].length ∧ [(0x74 : Word)].length ≤ s.params.memInit ∧
       s.params.stackBase = none ∧ s.params.dir = .up ∧ (0 : Int) = ([(0x74 : Word)].length : Int) - 1) ∧
    (let s := down State.reset
     s.params.stackBase = none ∧ s.params.dir = .down) ∧
    (down (configured (fun p => { p with stackBase := some 2000 }) State.reset)).params.stackBase = some 2000 := by decide

/-- A machine with a file, an open handle, a cell, an annotation, two listeners and one event that the first one saw. -/
def listening : State :=
  { files [1] with
    handles := [(0, .reader [102] 1)], ann := [(20, { text := .heapBegin, tag := none })],
    host := { host with subscribers := [0, 1] }, events := [.reg .r4 0 1], views := [(stack [1]).view],
    ir := some (rowOf .ldc), ops := [1] }

theorem listening_inv : listening.Inv := by
  refine ⟨by decide, by decide, by decide, by decide, by decide, ?_, by decide, by decide, by decide, by decide, by decide⟩
  intro c hc
  have hc : c = (0, .reader [102] 1) := by simpa [listening] using hc
  subst hc
  rfl

theorem witness_HostAccessesActBetweenSteps :
    { State.reset with waiting := some .int }.waiting ≠ none ∧ State.reset.waiting = none ∧
      State.reset.admits [3072] = false ∧ State.reset.admits [3071] = true ∧ listening.Inv ∧ listening.waiting = none :=
  ⟨by decide, by decide, by decide, by decide, listening_inv, rfl⟩

theorem witness_StepKeepsTheInvariant : listening.Inv ∧ ∃ t, step listening = .next t := ⟨listening_inv, _, rfl⟩

theorem witness_StepOnlyAppendsAndGrows : ∃ t, step (loaded [0x84, 3]) = .next t := ⟨_, rfl⟩

theorem witness_RunStateChangesOnlyAsListed : (∃ t, step (loaded [0x74]) = .next t) ∧ (loaded [0x74]).rs = .running :=
  ⟨⟨_, rfl⟩, rfl⟩

theorem witness_OnlyTheListedInstructionsWrite : (∃ t, exec .add (stack [3, 4]) = .next t) ∧
    Instr.add.mnemonic ∉ [Mnemonic.str, .ldrr, .swpr, .swprr] ∧ Instr.add.mnemonic ∉ [Mnemonic.link, .unlink] ∧
    Instr.add.mnemonic ∉ [Mnemonic.sth, .stmh] ∧ Instr.add.mnemonic ≠ .trap :=
  ⟨⟨_, rfl⟩, by decide, by decide, by decide, by decide⟩

end Sys2Proof.Tests
end

section
/-! SUPPORT. How a whole step can end, said once from the ends of the fetch, of EXECUTE and of a prompt. -/

namespace Sys2Proof.Machine

open Sys2Proof

/-- An instruction's end state is the one its stretch of pseudocode ends in. -/
theorem outcome_eq_next {r : Res Unit} {t : State} (h : r.outcome = .next t) : t = r.state := by
  cases h; rfl

/-- Where EXECUTE of anything but HALT ends: RS as before, or in a fault that is its last effect. -/
theorem exec_ends {i : Instr} {s t : State} (hi : i ≠ .halt) (h : exec i s = .next t) :
    (Updates s t ∧ t.rs = s.rs) ∨
      ∃ u f, Updates s u ∧ u.rs = s.rs ∧ u.host.diags = s.host.diags ∧
        (u.waiting = s.waiting ∨ u.waiting = none) ∧ t = enterFault f u := by
  obtain ⟨r, hr, runs⟩ := exec_runs i s hi
  obtain rfl := outcome_eq_next (hr.symm.trans h)
  cases r with
  | done a t =>
    obtain ⟨hu, hrs, _⟩ := runs.done a t rfl
    exact .inl ⟨hu, hrs⟩
  | stopped t => exact .inr (runs.stopped t rfl)

/-- The word at PC. -/
def State.opcodeWord (s : State) : Word := s.cell (sint (s.reg .pc))

/-- The ends of a step that starts in `s` (10_state.md R46 to R51): on a stopped machine nothing happens; a RUNNING one
goes on after a chain of updates with latches that agree (R37), or such a chain ends, with no prompt waiting, in a fault,
in a fetched HALT or in an illegal opcode. -/
inductive StepEnds (s : State) : State → Prop where
  | idle (hr : s.rs ≠ .running) : StepEnds s s
  | goesOn (t : State) (hs : s.rs = .running) (hu : FetchUpdates s t) (hr : t.rs = s.rs)
      (ha : latchesAgree s.ir s.ops = true → latchesAgree t.ir t.ops = true) : StepEnds s t
  | faulted (f : FaultInfo) (u : State) (hs : s.rs = .running) (hu : FetchUpdates s u)
      (hd : u.host.diags = s.host.diags) (hp : u.waiting = none) : StepEnds s (enterFault f u)
  | halted (u : State) (hw : s.waiting = none) (hu : FetchUpdates s u) (hp : u.waiting = none)
      (hl : lookup s.params.opcodes s.opcodeWord = some (recordOf s.params.opcodes .halt)) :
      StepEnds s (diag .halted (halt u))
  | illegal (a : Int) (w : Word) (u : State) (hw : s.waiting = none) (hu : FetchUpdates s u) (hp : u.waiting = none)
      (hl : lookup s.params.opcodes s.opcodeWord = none) : StepEnds s (substituteHalt a w u)

/-- A chain of updates of EXECUTE leaves latches that agree. -/
theorem Updates.latchesAgree {s t : State} (h : Updates s t) (ha : Sys2Proof.latchesAgree s.ir s.ops = true) :
    Sys2Proof.latchesAgree t.ir t.ops = true := by
  obtain ⟨_, hir, hops, _⟩ := h.latches
  rwa [hir, hops]

/-- A step that waits at a prompt goes on, or faults where it pushes the answer. -/
theorem resume_stepEnds (p : Prompt) {s : State} (hs : s.rs = .running) : StepEnds s (resume p s) := by
  rcases resume_cases p s with h | ⟨is, cs, ts, r, h, runs⟩
  · rw [h]
    exact .goesOn _ hs (Updates.one (.wait p s)).toFetch rfl id
  · rw [h]
    have hans : Updates s (answered { s.host with intAnswers := is, charAnswers := cs, textAnswers := ts } s) :=
      .one (.answered is cs ts s)
    cases r with
    | done a t =>
      obtain ⟨hu, hr, _⟩ := runs.done a t rfl
      have hu : Updates s t := hans.trans hu
      exact .goesOn t hs hu.toFetch hr hu.latchesAgree
    | stopped t =>
      obtain ⟨u, f, hu, _, hd, hp, rfl⟩ := runs.stopped t rfl
      have hu : Updates s u := hans.trans hu
      exact .faulted f u hs hu.toFetch hd (or_self_iff.1 hp)

/-- A step that fetches ends as the fetch or the fetched instruction does. -/
theorem withFetched_stepEnds {s t : State} (hs : s.rs = .running) (hw : s.waiting = none)
    (h : withFetched .next exec (fun t => .next (unknownInstruction t)) s = .next t) : StepEnds s t := by
  unfold withFetched at h
  generalize hf : fetch s = r at h
  have ends : FetchEnds s r := hf ▸ fetch_ends s
  cases ends with
  | faulted f u hu _ hq => cases h; exact .faulted f u hs hu hq.1 (hq.2.trans hw)
  | illegal a w u hu _ hq hl => cases h; exact .illegal a w u hw hu (hq.2.trans hw) hl
  | fetched i u hu hr hq ha hl =>
    by_cases hi : i = .halt
    · subst hi
      cases h
      exact .halted u hw hu (hq.2.trans hw) hl
    · rcases exec_ends hi h with ⟨hv, hr'⟩ | ⟨v, f, hv, _, hd, hp, rfl⟩
      · exact .goesOn t hs (hu.trans hv.toFetch) (hr'.trans hr) fun _ => hv.latchesAgree ha
      · exact .faulted f v hs (hu.trans hv.toFetch) (hd.trans hq.1) (hp.elim (·.trans (hq.2.trans hw)) id)

/-- A step on HALTED or FAULTED is a no-op (10_state.md R51). -/
theorem step_of_not_running {s : State} (h : s.rs ≠ .running) : step s = .next s := by
  unfold step
  split
  · rfl
  · rfl
  · exact absurd ‹_› h

theorem step_of_waiting {s : State} {p : Prompt} (h : s.rs = .running) (hw : s.waiting = some p) :
    step s = .next (resume p s) := by
  simp only [step, h, hw]

theorem step_of_ready {s : State} (h : s.rs = .running) (hw : s.waiting = none) :
    step s = withFetched .next exec (fun t => .next (unknownInstruction t)) s := by
  simp only [step, h, hw]

theorem step_ends {s t : State} (h : step s = .next t) : StepEnds s t := by
  by_cases hs : s.rs = .running
  · cases hw : s.waiting with
    | none => exact withFetched_stepEnds hs hw ((step_of_ready hs hw).symm.trans h)
    | some p =>
      rw [step_of_waiting hs hw] at h
      cases h
      exact resume_stepEnds p hs
  · rw [step_of_not_running hs] at h
    cases h
    exact .idle hs

end Sys2Proof.Machine
end

section
/-! PROOFS. What no step takes back (O57). -/

namespace Sys2Proof.Machine

open Sys2Proof Sys2Proof.Claims

/-- The relation of `Obligations.StepOnlyAppendsAndGrows` between the state before and a state after: the outputs are
extended, the capacity grows by whole increments, the configuration, the listeners and the names in the store stay. -/
structure Extends (s t : State) : Prop where
  params : t.params = s.params
  cap : ∃ g, t.cap = s.cap + g * s.params.growInc
  feed : ∃ evs vs, t.events = s.events ++ evs ∧ t.views = s.views ++ s.heard vs ∧ List.Forall₂ Shows evs vs
  console : s.host.console <+: t.host.console
  diags : s.host.diags <+: t.host.diags
  subscribers : t.host.subscribers = s.host.subscribers
  files : ∀ n, (fileGet s.host.files n).isSome → (fileGet t.host.files n).isSome

theorem Extends.trans {s t u : State} (h : Extends s t) (k : Extends t u) : Extends s u where
  params := k.params.trans h.params
  cap := by
    obtain ⟨g, hg⟩ := h.cap
    obtain ⟨g', hg'⟩ := k.cap
    exact ⟨g + g', by rw [hg', hg, h.params, add_mul, add_assoc]⟩
  feed := by
    obtain ⟨evs, vs, he, hv, hs⟩ := h.feed
    obtain ⟨evs', vs', he', hv', hs'⟩ := k.feed
    refine ⟨evs ++ evs', vs ++ vs', ?_, ?_, List.rel_append hs hs'⟩
    · rw [he', he, List.append_assoc]
    · rw [hv', hv, heard_congr h.subscribers, List.append_assoc, heard_append]
  console := h.console.trans k.console
  diags := h.diags.trans k.diags
  subscribers := k.subscribers.trans h.subscribers
  files n hn := k.files n (h.files n hn)

/-- An update that emits no event and grows nothing extends the state as soon as it extends the host side. -/
theorem Extends.of_silent {s t : State} (params : t.params = s.params) (cap : t.cap = s.cap)
    (events : t.events = s.events) (views : t.views = s.views) (console : s.host.console <+: t.host.console)
    (diags : s.host.diags <+: t.host.diags) (subscribers : t.host.subscribers = s.host.subscribers)
    (files : ∀ n, (fileGet s.host.files n).isSome → (fileGet t.host.files n).isSome) : Extends s t where
  params := params
  cap := ⟨0, by simp [cap]⟩
  feed := ⟨[], [], by simp [events], by simp [views], .nil⟩
  console := console
  diags := diags
  subscribers := subscribers
  files := files

/-- The same for an update that leaves the host side as it is. -/
theorem Extends.of_host_eq {s t : State} (params : t.params = s.params) (cap : t.cap = s.cap)
    (events : t.events = s.events) (views : t.views = s.views) (host : t.host = s.host) : Extends s t :=
  .of_silent params cap events views (by rw [host]) (by rw [host]) (by rw [host]) (by simp [host])

theorem Extends.refl (s : State) : Extends s s := .of_host_eq rfl rfl rfl rfl rfl

theorem extends_setReg (r : Reg) (v : Word) (s : State) : Extends s (setReg r v s) where
  params := rfl
  cap := ⟨0, by simp⟩
  feed := ⟨[.reg r (s.reg r) v], [(setReg r v s).view], rfl, rfl, .cons (by simp [Shows, State.view]) .nil⟩
  console := List.prefix_rfl
  diags := List.prefix_rfl
  subscribers := rfl
  files _ h := h

theorem extends_storeCell {a : Nat} (v : Word) {s : State} (h : a < s.cap) : Extends s (storeCell a v s) where
  params := rfl
  cap := ⟨0, by simp⟩
  feed := ⟨[.mem a (memGet s.mem a)], [(storeCell a v s).view], rfl, rfl, .cons (by simpa [Shows, State.view] using h) .nil⟩
  console := List.prefix_rfl
  diags := List.prefix_rfl
  subscribers := rfl
  files _ h := h

theorem extends_grow (s : State) : Extends s (grow s) where
  params := rfl
  cap := ⟨1, by simp⟩
  feed := ⟨[], [], by simp, by simp, .nil⟩
  console := List.prefix_rfl
  diags := List.prefix_rfl
  subscribers := rfl
  files _ h := h

theorem extends_diag (d : Diag) (s : State) : Extends s (diag d s) :=
  .of_silent rfl rfl rfl rfl List.prefix_rfl (List.prefix_append ..) rfl fun _ h => h

theorem extends_setFile (n : FileName) (bs : List Byte) (s : State) : Extends s (setFile n bs s) :=
  .of_silent rfl rfl rfl rfl List.prefix_rfl List.prefix_rfl rfl fun m h => by
    rw [setFile_host, fileGet_filePut]; split
    · rfl
    · exact h

theorem extends_enterFault (f : FaultInfo) (s : State) : Extends s (enterFault f s) :=
  Extends.trans (t := { s with rs := .faulted f }) (.of_host_eq rfl rfl rfl rfl rfl) (extends_diag ..)

theorem extends_halt (s : State) : Extends s (halt s) := .of_host_eq rfl rfl rfl rfl rfl

theorem extends_substituteHalt (a : Int) (w : Word) (s : State) : Extends s (substituteHalt a w s) :=
  (extends_diag (.illegalOpcode a w) s).trans (.of_host_eq rfl rfl rfl rfl rfl)

theorem Update.extends {s t : State} (h : Update s t) : Extends s t := by
  cases h with
  | reg r v => exact extends_setReg r v s
  | grow => exact extends_grow s
  | store a v _ h => exact extends_storeCell v h
  | diag d => exact extends_diag d s
  | file n bs => exact extends_setFile n bs s
  | print e => exact .of_silent rfl rfl rfl rfl (List.prefix_append ..) List.prefix_rfl rfl fun _ h => h
  | answered | fileCall => exact .of_silent rfl rfl rfl rfl List.prefix_rfl List.prefix_rfl rfl fun _ h => h
  | note | wait | handle | close => exact .of_host_eq rfl rfl rfl rfl rfl

theorem FetchUpdate.extends {s t : State} (h : FetchUpdate s t) : Extends s t := by
  cases h with
  | update h => exact h.extends
  | latch | operand => exact .of_host_eq rfl rfl rfl rfl rfl

theorem FetchUpdates.extends {s t : State} (h : FetchUpdates s t) : Extends s t := by
  induction h with
  | refl => exact .refl s
  | tail _ h ih => exact ih.trans h.extends

theorem StepEnds.extends {s t : State} (h : StepEnds s t) : Extends s t := by
  cases h with
  | idle => exact .refl s
  | goesOn _ _ hu => exact hu.extends
  | faulted f u _ hu => exact hu.extends.trans (extends_enterFault f u)
  | halted u _ hu => exact (hu.extends.trans (extends_halt u)).trans (extends_diag ..)
  | illegal a w u _ hu => exact hu.extends.trans (extends_substituteHalt a w u)

/-- Settles O57: every primitive update extends the state, and a step is a chain of them with one of the listed ends. -/
theorem stepOnlyAppendsAndGrows : Obligations.StepOnlyAppendsAndGrows := by
  intro s t h
  obtain ⟨params, cap, feed, console, diags, subscribers, files⟩ := (step_ends h).extends
  exact ⟨params, cap, feed, console, diags, subscribers, files⟩

end Sys2Proof.Machine
end

section
/-! PROOFS. How a machine stops (O58, O6). -/

namespace Sys2Proof.Machine

open Sys2Proof

/-- Settles O58, by the ends of a step. -/
theorem runStateChangesOnlyAsListed : Obligations.RunStateChangesOnlyAsListed := by
  intro s t h hs
  cases step_ends h with
  | idle hr => exact absurd hs hr
  | goesOn t _ _ hr => exact .inl (hr.trans hs)
  | faulted f u _ _ hd => exact .inr (.inr ⟨f, rfl, by rw [enterFault_host, hd]⟩)
  | halted u hw _ _ hl => exact .inr (.inl ⟨rfl, hw, .inl hl⟩)
  | illegal a w u hw _ _ hl => exact .inr (.inl ⟨rfl, hw, .inr hl⟩)

/-- Settles O6. -/
theorem stoppedMachineStaysAsItIs : Obligations.StoppedMachineStaysAsItIs :=
  fun _ => step_of_not_running

end Sys2Proof.Machine
end

section
/-! SUPPORT. Which registers a stretch of pseudocode writes, and whether it reaches beyond the registers, the memory and
the run state: one lemma per shared operation, and the frame of every instruction. -/

namespace Sys2Proof.Machine

open Sys2Proof

/-- From `s` to `t` no register but PC, SP and those of `ws` was written, and unless `outer` neither were the handles, the
waiting field and the host side but for the diagnostics. -/
structure WritesOnly (outer : Bool) (ws : List Reg) (s t : State) : Prop where
  regs : ∀ x, x ≠ .pc → x ≠ .sp → x ∉ ws → t.reg x = s.reg x
  outside : outer = false → t.handles = s.handles ∧ t.waiting = s.waiting ∧ { t.host with diags := s.host.diags } = s.host

section
variable {outer : Bool} {ws : List Reg}

theorem WritesOnly.refl (s : State) : WritesOnly outer ws s s := ⟨fun _ _ _ _ => rfl, fun _ => ⟨rfl, rfl, rfl⟩⟩

theorem WritesOnly.trans {s t u : State} (h : WritesOnly outer ws s t) (k : WritesOnly outer ws t u) :
    WritesOnly outer ws s u where
  regs x hp hs hw := (k.regs x hp hs hw).trans (h.regs x hp hs hw)
  outside ho := by
    obtain ⟨hh, hw, hd⟩ := h.outside ho
    obtain ⟨kh, kw, kd⟩ := k.outside ho
    refine ⟨kh.trans hh, kw.trans hw, ?_⟩
    rw [← hd, ← kd]

/-- Statements in sequence write what the first and the second write. -/
theorem WritesOnly.bind {α β : Type} {s : State} {r : Res α} {k : α → State → Res β}
    (h : WritesOnly outer ws s r.state) (hk : ∀ a t, WritesOnly outer ws t (k a t).state) :
    WritesOnly outer ws s (r.bind k).state := by
  cases r with
  | done a t => exact h.trans (hk a t)
  | stopped t => exact h

/-- What changes neither a register nor anything outside. -/
theorem WritesOnly.of_eq {s t : State} (regs : t.regs = s.regs) (handles : t.handles = s.handles)
    (waiting : t.waiting = s.waiting) (host : { t.host with diags := s.host.diags } = s.host) :
    WritesOnly outer ws s t :=
  ⟨fun x _ _ _ => congrArg (regsGet · x) regs, fun _ => ⟨handles, waiting, host⟩⟩

/-- What changes no register may change everything outside where that is allowed. -/
theorem WritesOnly.of_regs_eq {s t : State} (regs : t.regs = s.regs) : WritesOnly true ws s t :=
  ⟨fun x _ _ _ => congrArg (regsGet · x) regs, fun h => by cases h⟩

theorem writesOnly_setReg {r : Reg} (h : r = .pc ∨ r = .sp ∨ r ∈ ws) (v : Word) (s : State) :
    WritesOnly outer ws s (setReg r v s) where
  regs x hp hs hw := by
    rw [setReg_reg, if_neg]
    rintro rfl
    rcases h with h | h | h
    · exact hp h
    · exact hs h
    · exact hw h
  outside _ := ⟨rfl, rfl, rfl⟩

theorem writesOnly_setSp (v : Word) (s : State) : WritesOnly outer ws s (setReg .sp v s) :=
  writesOnly_setReg (.inr (.inl rfl)) v s

theorem writesOnly_jump (v : Word) (s : State) : WritesOnly outer ws s (jump v s) :=
  writesOnly_setReg (.inl rfl) v s

theorem writesOnly_branchIf (b : Bool) (k : Word) (s : State) : WritesOnly outer ws s (branchIf b k s) := by
  unfold branchIf; split
  · exact writesOnly_jump _ s
  · exact .refl s

theorem writesOnly_annotate (a : Int) (x : AnnText) (s : State) : WritesOnly outer ws s (annotate a x s) :=
  .of_eq rfl rfl rfl rfl

theorem writesOnly_diag (d : Diag) (s : State) : WritesOnly outer ws s (diag d s) := .of_eq rfl rfl rfl rfl

theorem writesOnly_raise {α : Type} (f : FaultInfo) (s : State) :
    WritesOnly outer ws s (raise f s : Res α).state := .of_eq rfl rfl rfl rfl

theorem writesOnly_memRead (a : Int) (s : State) : WritesOnly outer ws s (memRead a s).state := by
  cases h : s.admitsAddr a with
  | true => rw [memRead_eq h]; exact .of_eq (by simp) (by simp) (by simp) (by simp)
  | false => rw [memRead_refused h]; exact writesOnly_raise _ s

theorem writesOnly_memWrite (a : Int) (v : Word) (s : State) : WritesOnly outer ws s (memWrite a v s).state := by
  cases h : s.admitsAddr a with
  | true => rw [memWrite_eq v h]; exact .of_eq (by simp) (by simp) (by simp) (by simp)
  | false => rw [memWrite_refused v h]; exact writesOnly_raise _ s

theorem writesOnly_push (v : Word) (s : State) : WritesOnly outer ws s (push v s).state :=
  (writesOnly_setSp _ s).trans (writesOnly_memWrite _ v _)

theorem writesOnly_pop (s : State) : WritesOnly outer ws s (pop s).state :=
  (writesOnly_memRead _ s).bind fun _ t => writesOnly_setSp _ t

theorem writesOnly_pushAll (vs : List Word) (s : State) : WritesOnly outer ws s (pushAll vs s).state := by
  induction vs generalizing s with
  | nil => exact .refl s
  | cons v vs ih => exact (writesOnly_push v s).bind fun _ t => ih t

theorem writesOnly_checkReg (r : Word) (s : State) : WritesOnly outer ws s (checkReg r s).state := by
  unfold checkReg; split
  · exact .refl s
  · exact writesOnly_raise _ s

theorem writesOnly_checkCount (least : Int) (n : Word) (s : State) :
    WritesOnly outer ws s (checkCount least n s).state := by
  unfold checkCount; split
  · exact writesOnly_raise _ s
  · exact .refl s

theorem writesOnly_readBlock (b stride : Int) (n : Nat) (s : State) :
    WritesOnly outer ws s (readBlock b stride n s).state := by
  induction n generalizing b s with
  | zero => exact .refl s
  | succ n ih => exact (writesOnly_memRead _ s).bind fun _ t => (ih _ t).bind fun _ u => .refl u

theorem writesOnly_writeBlock (b stride : Int) (x : Option AnnText) (vs : List Word) (s : State) :
    WritesOnly outer ws s (writeBlock b stride x vs s).state := by
  induction vs generalizing b s with
  | nil => exact .refl s
  | cons v vs ih =>
    refine (writesOnly_memWrite _ v s).bind fun _ t => ?_
    cases x with
    | none => exact ih _ t
    | some x => exact (writesOnly_annotate _ x t).trans (ih _ _)

theorem writesOnly_loadMulti (b stride : Int) (n : Word) (m : Mnemonic) (s : State) :
    WritesOnly outer ws s (loadMulti b stride n m s).state :=
  (writesOnly_readBlock _ _ _ s).bind fun vs t => (writesOnly_setSp _ t).trans (writesOnly_writeBlock _ _ _ vs _)

theorem writesOnly_takeBlock (n : Word) (s : State) : WritesOnly outer ws s (takeBlock n s).state :=
  (writesOnly_readBlock _ _ _ s).bind fun _ t => writesOnly_setSp _ t

theorem writesOnly_storeMulti (b : Int) (n : Word) (m : Mnemonic) (s : State) :
    WritesOnly outer ws s (storeMulti b n m s).state :=
  (writesOnly_takeBlock n s).bind fun us t => writesOnly_writeBlock _ _ _ us t

theorem writesOnly_binop (m : Mnemonic) (f : Word → Word → Option Word) (s : State) :
    WritesOnly outer ws s (binop m f s).state := by
  refine (writesOnly_pop s).bind fun r t => (writesOnly_pop t).bind fun l u => ?_
  split
  · exact writesOnly_raise _ u
  · exact (writesOnly_push _ u).bind fun _ v => writesOnly_annotate _ _ v

theorem writesOnly_unop (g : Word → Word) (s : State) : WritesOnly outer ws s (unop g s).state :=
  (writesOnly_pop s).bind fun _ t => writesOnly_push _ t

theorem writesOnly_brcc (mask : BitVec 3) (k : Word) (s : State) : WritesOnly outer ws s (brcc mask k s).state :=
  (writesOnly_pop s).bind fun _ t => writesOnly_branchIf _ k t

theorem writesOnly_markBlock (h n : Int) (s : State) : WritesOnly outer ws s (markBlock h n s) := by
  unfold markBlock; split
  · exact writesOnly_annotate _ _ s
  · exact (writesOnly_annotate _ _ s).trans (writesOnly_annotate _ _ _)

/-- The end of STH and STMH: HP moves on, then an address is pushed. -/
theorem writesOnly_bumpHp (h : Reg.hp ∈ ws) (v w : Word) (s : State) :
    WritesOnly outer ws s (push w (setReg .hp v s)).state :=
  (writesOnly_setReg (.inr (.inr h)) v s).trans (writesOnly_push w _)

end

/-! ### TRAP reaches outside, but writes no register but SP -/

section
variable {ws : List Reg}

/-- A host call that leaves the registers may come first. -/
theorem WritesOnly.after {α : Type} {s t : State} {r : Res α} (h : WritesOnly true ws t r.state)
    (regs : t.regs = s.regs) : WritesOnly true ws s r.state :=
  (WritesOnly.of_regs_eq regs).trans h

theorem writesOnly_popStringUpTo (n : Nat) (s : State) : WritesOnly true ws s (popStringUpTo n s).state := by
  induction n generalizing s with
  | zero => exact .refl s
  | succ n ih =>
    refine (writesOnly_pop s).bind fun c t => ?_
    split
    · exact .refl t
    · exact (ih t).bind fun _ u => .refl u

theorem openFile_regs (m : Mode) (n : FileName) (s : State) : (openFile m n s).2.regs = s.regs := by
  unfold openFile
  split
  · rfl
  · cases m <;> rfl

theorem writesOnly_openHandle (m : Mode) (s : State) : WritesOnly true ws s (openHandle m s).state := by
  refine (writesOnly_popStringUpTo _ s).bind fun n t => ?_
  have hregs := openFile_regs m n t
  split
  next heq => rw [heq] at hregs; exact (writesOnly_push _ _).after hregs
  next heq => rw [heq] at hregs; exact .of_regs_eq hregs

theorem writesOnly_readHandle (s : State) : WritesOnly true ws s (readHandle s).state := by
  refine (writesOnly_pop s).bind fun h t => ?_
  split
  · exact writesOnly_diag _ t
  · exact writesOnly_diag _ t
  · dsimp only; split
    · exact .of_regs_eq rfl
    · exact (writesOnly_push _ _).after rfl

theorem writesOnly_writeHandle (s : State) : WritesOnly true ws s (writeHandle s).state := by
  refine (writesOnly_pop s).bind fun h t => (writesOnly_pop t).bind fun v u => ?_
  split
  · exact writesOnly_diag _ u
  · exact writesOnly_diag _ u
  · dsimp only; split
    · exact .of_regs_eq rfl
    · exact (writesOnly_push _ _).after rfl

theorem writesOnly_closeHandle (s : State) : WritesOnly true ws s (closeHandle s).state := by
  refine (writesOnly_pop s).bind fun h t => ?_
  split
  · exact writesOnly_diag _ t
  · dsimp only; split <;> exact .of_regs_eq rfl

theorem writesOnly_promptInt (s : State) : WritesOnly true ws s (promptInt s).state := by
  unfold promptInt; split
  · exact .of_regs_eq rfl
  · exact (writesOnly_push _ _).after rfl

theorem writesOnly_promptChar (s : State) : WritesOnly true ws s (promptChar s).state := by
  unfold promptChar; split
  · exact .of_regs_eq rfl
  · exact (writesOnly_push _ _).after rfl

theorem writesOnly_promptCharArray (s : State) : WritesOnly true ws s (promptCharArray s).state := by
  unfold promptCharArray; split
  · exact .of_regs_eq rfl
  · exact (writesOnly_pushAll _ _).after rfl

theorem writesOnly_trapOp (o : TrapOp) (s : State) : WritesOnly true ws s (trapOp o s).state := by
  cases o with
  | prInt | prChar => exact (writesOnly_pop s).bind fun _ t => .of_regs_eq rfl
  | inInt => exact writesOnly_promptInt s
  | inChar => exact writesOnly_promptChar s
  | inCharArray => exact writesOnly_promptCharArray s
  | fileOpenRead | fileOpenWrite => exact writesOnly_openHandle _ s
  | fileRead => exact writesOnly_readHandle s
  | fileWrite => exact writesOnly_writeHandle s
  | fileClose => exact writesOnly_closeHandle s

theorem writesOnly_execTrap {k : Word} {s t : State} (h : execTrap k s = .next t) : WritesOnly true ws s t := by
  cases ho : trapOf s.params.traps k with
  | some o => rw [execTrap_some ho] at h; cases h; exact writesOnly_trapOp o s
  | none => rw [execTrap_none ho] at h; cases h; exact writesOnly_diag _ s

end

/-! ### Every instruction -/

/-- The registers other than PC and SP that an instruction may write: any that STR, LDRR, SWPR and SWPRR name, MP by
LINK and UNLINK, HP by STH and STMH (10_state.md R26). -/
def extraWrites : Mnemonic → List Reg
  | .str | .ldrr | .swpr | .swprr => [.mp, .hp, .r4, .r5, .r6, .r7]
  | .link | .unlink => [.mp]
  | .sth | .stmh => [.hp]
  | _ => []

/-- The instructions that name a register may write each. -/
theorem writesOnly_namedReg {outer : Bool} (r : Reg) (v : Word) (s : State) :
    WritesOnly outer [.mp, .hp, .r4, .r5, .r6, .r7] s (setReg r v s) :=
  writesOnly_setReg (by cases r <;> simp) v s

theorem exec_writesOnly (i : Instr) {s t : State} (h : exec i s = .next t) :
    WritesOnly (decide (i.mnemonic = .trap)) (extraWrites i.mnemonic) s t := by
  cases i with
  | trap k => exact writesOnly_execTrap h
  | _ => ?_
  all_goals cases h
  case halt | nop => exact .of_eq rfl rfl rfl rfl
  case add | and | div | mod | mul | or | sub | xor | eq | ne | lt | gt | le | ge | lsl | lsr | rol | ror | cmp =>
    exact writesOnly_binop _ _ s
  case neg | not => exact writesOnly_unop _ s
  case beq | bne | blt | bgt | ble | bge => exact writesOnly_brcc _ _ s
  case adjs => exact writesOnly_setSp _ s
  case bra => exact writesOnly_jump _ s
  case brf k | brt k => exact (writesOnly_pop s).bind fun _ t => writesOnly_branchIf _ k t
  case bsr => exact (writesOnly_push _ s).bind fun _ t => writesOnly_jump _ t
  case jsr => exact (writesOnly_pop s).bind fun _ t => (writesOnly_push _ t).bind fun _ u => writesOnly_jump _ u
  case ret => exact (writesOnly_pop s).bind fun _ t => writesOnly_jump _ t
  case lda | ldh =>
    exact (writesOnly_pop s).bind fun _ t => (writesOnly_memRead _ t).bind fun _ u => writesOnly_push _ u
  case ldma k n | ldmh k n =>
    exact (writesOnly_checkCount 0 n s).bind fun _ t => (writesOnly_pop t).bind fun _ u => writesOnly_loadMulti _ _ n _ u
  case ldaa => exact (writesOnly_pop s).bind fun _ t => writesOnly_push _ t
  case ldc | ldla | ldsa => exact writesOnly_push _ s
  case ldl | lds => exact (writesOnly_memRead _ s).bind fun _ t => writesOnly_push _ t
  case ldml k n | ldms k n => exact (writesOnly_checkCount 0 n s).bind fun _ t => writesOnly_loadMulti _ _ n _ t
  case ldr r => exact (writesOnly_checkReg r s).bind fun _ t => writesOnly_push _ t
  case ldrr r q =>
    exact (writesOnly_checkReg r s).bind fun x t => (writesOnly_checkReg q t).bind fun _ u => writesOnly_namedReg x _ u
  case link =>
    exact (writesOnly_push _ s).bind fun _ t =>
      (writesOnly_setReg (.inr (.inr (by simp [extraWrites, Instr.mnemonic]))) _ t).trans (writesOnly_setSp _ _)
  case sta =>
    exact (writesOnly_pop s).bind fun _ t => (writesOnly_pop t).bind fun _ u => writesOnly_memWrite _ _ u
  case stma k n =>
    exact (writesOnly_checkCount 0 n s).bind fun _ t => (writesOnly_pop t).bind fun _ u => writesOnly_storeMulti _ n _ u
  case stl | sts => exact (writesOnly_pop s).bind fun _ t => writesOnly_memWrite _ _ t
  case stml k n | stms k n => exact (writesOnly_checkCount 0 n s).bind fun _ t => writesOnly_storeMulti _ n _ t
  case str r =>
    exact (writesOnly_checkReg r s).bind fun x t => (writesOnly_pop t).bind fun _ u => writesOnly_namedReg x _ u
  case swp =>
    exact (writesOnly_memRead _ s).bind fun _ t => (writesOnly_memRead _ t).bind fun _ u =>
      (writesOnly_memWrite _ _ u).bind fun _ v => writesOnly_memWrite _ _ v
  case swpr r =>
    exact (writesOnly_checkReg r s).bind fun x t => (writesOnly_memRead _ t).bind fun _ u =>
      (writesOnly_memWrite _ _ u).bind fun _ v => writesOnly_namedReg x _ v
  case swprr r q =>
    exact (writesOnly_checkReg r s).bind fun x t => (writesOnly_checkReg q t).bind fun y u =>
      (writesOnly_namedReg x _ u).trans (writesOnly_namedReg y _ _)
  case unlink =>
    exact ((writesOnly_setSp _ s).trans (writesOnly_pop _)).bind fun _ t =>
      writesOnly_setReg (.inr (.inr (by simp [extraWrites, Instr.mnemonic]))) _ t
  case sth =>
    exact (writesOnly_pop s).bind fun _ t => (writesOnly_memWrite _ _ t).bind fun _ u =>
      (writesOnly_annotate _ _ u).trans (writesOnly_bumpHp (by simp [extraWrites, Instr.mnemonic]) _ _ _)
  case stmh n =>
    exact (writesOnly_checkCount 1 n s).bind fun _ t => (writesOnly_takeBlock n t).bind fun us u =>
      (writesOnly_writeBlock _ _ _ us u).bind fun _ v => (writesOnly_markBlock _ _ v).trans
        (writesOnly_bumpHp (by simp [extraWrites, Instr.mnemonic]) _ _ _)

/-- No instruction writes the latches or the configuration (10_state.md R37, R43). -/
theorem exec_latches {i : Instr} {s t : State} (h : exec i s = .next t) :
    t.params = s.params ∧ t.ir = s.ir ∧ t.ops = s.ops ∧ t.ia = s.ia := by
  by_cases hi : i = .halt
  · subst hi; cases h; exact ⟨rfl, rfl, rfl, rfl⟩
  · rcases exec_ends hi h with ⟨hu, _⟩ | ⟨u, f, hu, _, _, _, rfl⟩
    · exact hu.latches
    · exact hu.latches

end Sys2Proof.Machine
end

section
/-! PROOFS. Which instructions can write what (O59). -/

namespace Sys2Proof.Machine

open Sys2Proof

/-- An instruction that names no register writes MP and HP at most. -/
theorem extraWrites_subset {m : Mnemonic} (h : m ∉ [.str, .ldrr, .swpr, .swprr]) {x : Reg} (hx : x ∈ extraWrites m) :
    (x = .mp ∧ m ∈ [.link, .unlink]) ∨ (x = .hp ∧ m ∈ [.sth, .stmh]) := by
  cases m <;> simp_all [extraWrites]

/-- Settles O59, by the frame of each instruction (`exec_writesOnly`). -/
theorem onlyTheListedInstructionsWrite : Obligations.OnlyTheListedInstructionsWrite := by
  intro i s t h
  obtain ⟨regs, outside⟩ := exec_writesOnly i h
  obtain ⟨hparams, hir, hops, hia⟩ := exec_latches h
  refine ⟨fun hi => ⟨fun x hx => ?_, fun hm => ?_, fun hh => ?_⟩, hir, hops, hia, hparams,
    fun ht => outside (decide_eq_false ht)⟩
  · refine regs x ?_ ?_ fun hw => ?_
    · rintro rfl; simp at hx
    · rintro rfl; simp at hx
    · rcases extraWrites_subset hi hw with ⟨rfl, _⟩ | ⟨rfl, _⟩ <;> simp at hx
  · exact regs .mp (by decide) (by decide) fun hw => by
      rcases extraWrites_subset hi hw with ⟨_, hmem⟩ | ⟨heq, _⟩
      · exact hm hmem
      · cases heq
  · exact regs .hp (by decide) (by decide) fun hw => by
      rcases extraWrites_subset hi hw with ⟨heq, _⟩ | ⟨_, hmem⟩
      · cases heq
      · exact hh hmem

end Sys2Proof.Machine
end

section
/-! PROOFS. Checks before every effect, and reset (O13, O52, O55). -/

namespace Sys2Proof.Machine

open Sys2Proof Sys2Proof.Claims

/-- An instruction that raises a fault first has no effect but the fault's own (60_exceptions.md R202). -/
theorem faultsAtOnce_of_raise {i : Instr} {s : State} {f : FaultInfo} (h : exec i s = .next (enterFault f s)) :
    FaultsAtOnce i s f :=
  ⟨_, h, ⟨rfl, rfl, rfl, fun _ _ => rfl, fun _ _ => rfl, fun _ _ => rfl, rfl, rfl, rfl, rfl, rfl, rfl, rfl⟩, rfl, rfl⟩

/-- The number of a register is below NREG, so an operand word from NREG up names none (10_state.md R27). -/
theorem regOperand_none {r : Word} (h : nreg ≤ uint r) : regOperand r = none := by
  have := regOfNumber_isSome (uint r)
  rw [decide_eq_false (not_lt.2 h)] at this
  exact Option.not_isSome_iff_eq_none.1 (by simp [regOperand, this])

/-- A stretch that starts with a refused register operand ends in InvalidRegister. -/
theorem checkReg_bind_none {β : Type} {r : Word} (h : nreg ≤ uint r) (s : State) (k : Reg → State → Res β) :
    (checkReg r s).bind k = raise (.invalidRegister (uint r) s.ia) s := by
  rw [checkReg_none s (regOperand_none h), bind_raise]

/-- Where the first operand names a register, the second is checked next. -/
theorem checkReg_regWord_bind {β : Type} (x : Reg) (s : State) (k : Reg → State → Res β) :
    (checkReg (regWord x) s).bind k = k x s := by
  rw [regWord, checkReg_numberOfReg, bind_done]

/-- A stretch that starts with a refused count ends in InvalidCount. -/
theorem checkCount_bind_bad {β : Type} {least : Int} {n : Word} (h : sint n < least) (s : State)
    (k : Unit → State → Res β) : (checkCount least n s).bind k = raise (.invalidCount (sint n) s.ia) s := by
  rw [checkCount_bad s h, bind_raise]

/-- Settles O13: each instruction's pseudocode starts with its check. -/
theorem badOperandsFaultAtOnce : Obligations.BadOperandsFaultAtOnce := by
  refine ⟨fun s r q h => ?_, fun s k n => ⟨fun h i hi => ?_, fun h => ?_⟩⟩
  · have badFirst : ∀ k : Reg → State → Res Unit,
        ((checkReg r s).bind k).outcome = .next (enterFault (.invalidRegister (uint r) s.ia) s) := fun k => by
      rw [checkReg_bind_none h, outcome_raise]
    have badSecond : ∀ (x : Reg) (k : Reg → Reg → State → Res Unit),
        ((checkReg (regWord x) s).bind fun y t => (checkReg r t).bind (k y)).outcome =
          .next (enterFault (.invalidRegister (uint r) s.ia) s) := fun x k => by
      rw [checkReg_regWord_bind, badFirst]
    exact ⟨faultsAtOnce_of_raise (badFirst _), faultsAtOnce_of_raise (badFirst _), faultsAtOnce_of_raise (badFirst _),
      faultsAtOnce_of_raise (badFirst _), faultsAtOnce_of_raise (badFirst _), fun x =>
        ⟨faultsAtOnce_of_raise (badSecond x _), faultsAtOnce_of_raise (badSecond x _)⟩⟩
  · have badCount : ∀ k : Unit → State → Res Unit,
        ((checkCount 0 n s).bind k).outcome = .next (enterFault (.invalidCount (sint n) s.ia) s) := fun k => by
      rw [checkCount_bind_bad h, outcome_raise]
    simp only [List.mem_cons, List.not_mem_nil, or_false] at hi
    rcases hi with rfl | rfl | rfl | rfl | rfl | rfl | rfl <;> exact faultsAtOnce_of_raise (badCount _)
  · refine faultsAtOnce_of_raise (s := s) (f := .invalidCount (sint n) s.ia) ?_
    change ((checkCount 1 n s).bind _).outcome = _
    rw [checkCount_bind_bad h, outcome_raise]

/-- Settles O52: `State.reset` is written out in full. -/
theorem resetValues : Obligations.ResetValues := by
  refine ⟨rfl, rfl, rfl, rfl, ?_, rfl, rfl, rfl, rfl, rfl, rfl, rfl, rfl, rfl⟩
  decide

/-- Settles O55: memory is the empty image's, and every list the invariant speaks of is empty. -/
theorem resetMeetsTheInvariant : Obligations.ResetMeetsTheInvariant where
  memory := reset_memory_wf
  memoryBelow _ hc := absurd hc List.not_mem_nil
  annotations := .nil
  annotationsBelow _ hc := absurd hc List.not_mem_nil
  handles := .nil
  streams _ hc := absurd hc List.not_mem_nil
  files := .nil
  latches _ := rfl
  waiting hw := absurd rfl hw
  subscribers := ⟨.nil, fun _ hn => absurd hn List.not_mem_nil⟩
  views := rfl

end Sys2Proof.Machine
end

section
/-! SUPPORT. What a fetch leaves where no access is refused: `advanced` says what reading words from PC on does, latches
apart, and the decoder's facts tie the words read to the instruction they encode. -/

namespace Sys2Proof.Machine

open Sys2Proof Sys2Proof.Claims

/-! ### The decoder -/

theorem assemble_operands (i : Instr) : assemble i.mnemonic i.operands = some i := by cases i <;> rfl

theorem operandCount_recordOf (m : OpcodeMap) (i : Instr) :
    (recordOf m i.mnemonic).operandCount = i.operands.length := by cases i <;> rfl

theorem mem_allMnemonics (x : Mnemonic) : x ∈ allMnemonics := by cases x <;> decide

theorem ctorIdx_lt (x : Mnemonic) : x.ctorIdx < allMnemonics.length := by cases x <;> decide

theorem ctorIdx_injective {x y : Mnemonic} (h : x.ctorIdx = y.ctorIdx) : x = y := by
  have at_ctorIdx : ∀ z : Mnemonic, allMnemonics[z.ctorIdx]? = some z := fun z => by cases z <;> rfl
  exact Option.some.inj (by rw [← at_ctorIdx x, ← at_ctorIdx y, h])

/-- A well-formed opcode map gives each mnemonic a number of its own (30_encoding.md R81). -/
theorem number_injective {m : OpcodeMap} (hm : m.wellFormed = true) {x y : Mnemonic} (h : m.number x = m.number y) :
    x = y := by
  simp only [OpcodeMap.wellFormed, Bool.and_eq_true, decide_eq_true_eq] at hm
  obtain ⟨⟨hlen, hnodup⟩, _⟩ := hm
  have hx : x.ctorIdx < m.numbers.length := hlen ▸ ctorIdx_lt x
  have hy : y.ctorIdx < m.numbers.length := hlen ▸ ctorIdx_lt y
  rw [OpcodeMap.number, OpcodeMap.number, List.getD_eq_getElem _ _ hx, List.getD_eq_getElem _ _ hy] at h
  exact ctorIdx_injective ((hnodup.getElem_inj_iff).1 h)

/-- The lookup of a mnemonic's number gives its record (R87). -/
theorem lookup_number {m : OpcodeMap} (hm : m.wellFormed = true) (x : Mnemonic) :
    lookup m (m.number x) = some (recordOf m x) := by
  have found : (lookup m (m.number x)).isSome := by
    rw [lookup, List.find?_isSome]
    exact ⟨recordOf m x, List.mem_map_of_mem (mem_allMnemonics x), by simp [recordOf]⟩
  obtain ⟨r, hr⟩ := Option.isSome_iff_exists.1 found
  obtain ⟨y, rfl, hy⟩ := lookup_some hr
  rw [hr, number_injective hm hy]

/-! ### Reading words from PC on -/

/-- Growth does not see the registers, the latches and the feed. -/
theorem touchAll_with (as : List Int) (x : Regs) (ir : Option InstrRecord) (ops : List Word) (ia : Int)
    (es : List ChangeEvent) (vs : List View) (s : State) :
    touchAll as { s with regs := x, ir := ir, ops := ops, ia := ia, events := es, views := vs } =
      { touchAll as s with regs := x, ir := ir, ops := ops, ia := ia, events := es, views := vs } := by
  induction as generalizing s with
  | nil => rfl
  | cons a as ih =>
    rw [touchAll_cons, touchAll_cons, ← ih]
    congr 1
    unfold touch
    dsimp only
    split <;> rfl

@[simp] theorem touchAll_views (as : List Int) (s : State) : (touchAll as s).views = s.views := by
  induction as generalizing s with
  | nil => rfl
  | cons a as ih => rw [touchAll_cons, ih, touch_views]

/-- The state after `n` words were read from PC on, PC moved past each, and the listeners had the views `vs`. -/
def advanced (n : Nat) (vs : List View) (s : State) : State :=
  { touchAll (blockAddrs (sint (s.reg .pc)) 1 n) s with
    regs := { s.regs with pc := word (sint (s.reg .pc) + n) }
    events := s.events ++ (List.range n).map fun (j : Nat) =>
      .reg .pc (word (sint (s.reg .pc) + j)) (word (sint (s.reg .pc) + j + 1))
    views := s.views ++ s.heard vs }

/-- The state with other operands latched. -/
def withOps (ops : List Word) (s : State) : State := { s with ops := ops }

@[simp] theorem withOps_withOps (o p : List Word) (s : State) : withOps o (withOps p s) = withOps o s := rfl
@[simp] theorem withOps_ops (o : List Word) (s : State) : (withOps o s).ops = o := rfl
@[simp] theorem withOps_reg (o : List Word) (s : State) (r : Reg) : (withOps o s).reg r = s.reg r := rfl
@[simp] theorem withOps_cell (o : List Word) (s : State) : (withOps o s).cell = s.cell := rfl

@[simp] theorem withOps_heard (o : List Word) (s : State) (vs : List View) : (withOps o s).heard vs = s.heard vs := rfl
@[simp] theorem latch_cells (r : InstrRecord) (a : Int) (s : State) : (latch r a s).cell = s.cell := rfl
@[simp] theorem latch_heard (r : InstrRecord) (a : Int) (s : State) (vs : List View) :
    (latch r a s).heard vs = s.heard vs := rfl

/-- Reading words does not see the latches. -/
theorem advanced_withOps (n : Nat) (vs : List View) (o : List Word) (s : State) :
    advanced n vs (withOps o s) = withOps o (advanced n vs s) := by
  have h := touchAll_with (blockAddrs (sint (s.reg .pc)) 1 n) s.regs s.ir o s.ia s.events s.views s
  simp only [advanced, withOps_reg, withOps_heard]
  rw [show touchAll (blockAddrs (sint (s.reg .pc)) 1 n) (withOps o s) = _ from h]
  simp [withOps]

theorem advanced_latch (n : Nat) (vs : List View) (r : InstrRecord) (a : Int) (s : State) :
    advanced n vs (latch r a s) = latch r a (advanced n vs s) := by
  have h := touchAll_with (blockAddrs (sint (s.reg .pc)) 1 n) s.regs (some r) [] a s.events s.views s
  simp only [advanced, latch_reg, latch_heard]
  rw [show touchAll (blockAddrs (sint (s.reg .pc)) 1 n) (latch r a s) = _ from h]
  simp [latch]

theorem advanced_zero (s : State) : advanced 0 [] s = s := by
  simp [advanced, State.reg, regsGet]

theorem advanced_one (vs : List View) (s : State) :
    advanced 1 vs s =
      { touch (sint (s.reg .pc)) s with
        regs := { s.regs with pc := word (sint (s.reg .pc) + 1) }
        events := s.events ++ [.reg .pc (s.reg .pc) (word (sint (s.reg .pc) + 1))]
        views := s.views ++ s.heard vs } := by
  simp [advanced, blockAddrs_succ]

/-- One word of a fetch: read, then PC moved past it; the listeners see that state. -/
theorem advancePc_touch (s : State) :
    ∃ v : View, advancePc (touch (sint (s.reg .pc)) s) = advanced 1 [v] s ∧
      v.regs = { s.regs with pc := word (sint (s.reg .pc) + 1) } := by
  refine ⟨(advancePc (touch (sint (s.reg .pc)) s)).view, ?_, by simp [advancePc, State.view, regsSet]⟩
  generalize hv : (advancePc (touch (sint (s.reg .pc)) s)).view = v
  have h : advancePc (touch (sint (s.reg .pc)) s) =
      { touch (sint (s.reg .pc)) s with
        regs := { (touch (sint (s.reg .pc)) s).regs with pc := word (sint ((touch (sint (s.reg .pc)) s).reg .pc) + 1) }
        events := (touch (sint (s.reg .pc)) s).events ++
          [regEvent (touch (sint (s.reg .pc)) s) .pc (word (sint ((touch (sint (s.reg .pc)) s).reg .pc) + 1))]
        views := (touch (sint (s.reg .pc)) s).views ++ (touch (sint (s.reg .pc)) s).heard [v] } := by
    rw [← hv]; rfl
  rw [h, advanced_one]
  simp [regEvent]

theorem touchAll_advanced_one (as : List Int) (vs : List View) (s : State) :
    touchAll as (advanced 1 vs s) =
      { touchAll as (touch (sint (s.reg .pc)) s) with
        regs := (advanced 1 vs s).regs, events := (advanced 1 vs s).events, views := (advanced 1 vs s).views } := by
  have h := touchAll_with as (advanced 1 vs s).regs (touch (sint (s.reg .pc)) s).ir (touch (sint (s.reg .pc)) s).ops
    (touch (sint (s.reg .pc)) s).ia (advanced 1 vs s).events (advanced 1 vs s).views (touch (sint (s.reg .pc)) s)
  simp only [advanced_one] at h ⊢
  rw [h]
  simp

/-- The first word, then the others. -/
theorem advanced_succ (n : Nat) (v : View) (vs : List View) (s : State) :
    advanced (n + 1) (v :: vs) s = advanced n vs (advanced 1 [v] s) := by
  have hpc : (advanced 1 [v] s).reg .pc = word (sint (s.reg .pc) + 1) := rfl
  have hblock : blockAddrs (sint (word (sint (s.reg .pc) + 1))) 1 n = blockAddrs (sint (s.reg .pc) + 1) 1 n :=
    blockAddrs_congr (word_sint _) 1 n
  have hheard : (advanced 1 [v] s).heard vs = s.heard vs := heard_congr (by simp [advanced]) vs
  rw [advanced, advanced, hpc, hblock, hheard, touchAll_advanced_one, blockAddrs_succ, touchAll_cons, addr_sint_add]
  simp only [State.mk.injEq, true_and, advanced_one, List.append_assoc, heard_append, List.range_succ_eq_map,
    List.map_cons, List.map_map, List.singleton_append, and_true]
  have hword (j : Int) : word (sint (word (sint (s.reg .pc) + 1)) + j) = word (sint (s.reg .pc) + (j + 1)) := by
    rw [word_sint_word_add, add_assoc, add_comm 1 j]
  refine ⟨by rw [hword, Nat.cast_succ], ?_⟩
  congr 2
  · simp
  · refine List.map_congr_left fun j _ => ?_
    simp only [Function.comp, add_assoc, hword, Nat.cast_succ]

/-- What reading words leaves as it is. -/
@[simp] theorem advanced_params (n : Nat) (vs : List View) (s : State) : (advanced n vs s).params = s.params := by
  simp [advanced]
@[simp] theorem advanced_cap (n : Nat) (vs : List View) (s : State) :
    (advanced n vs s).cap = s.capAfter (blockAddrs (sint (s.reg .pc)) 1 n) := by
  simp [advanced]
@[simp] theorem advanced_cell (n : Nat) (vs : List View) (s : State) :
    (advanced n vs s).cell = s.cell := by
  funext a
  rw [← touchAll_cell (blockAddrs (sint (s.reg .pc)) 1 n) s a]; rfl

/-! ### OPERANDS and FETCH -/

/-- The views at `n` words of a fetch that starts with the registers `x`: PC one further at each. -/
def PcAdvances (x : Regs) (n : Nat) (vs : List View) : Prop :=
  vs.map View.regs = (List.range n).map fun (j : Nat) => { x with pc := word (sint x.pc + j + 1) }

/-- The first view, then the others'. -/
theorem PcAdvances.cons {x : Regs} {n : Nat} {vs : List View} {v : View}
    (hv : v.regs = { x with pc := word (sint x.pc + 1) }) (h : PcAdvances { x with pc := word (sint x.pc + 1) } n vs) :
    PcAdvances x (n + 1) (v :: vs) := by
  rw [PcAdvances] at h ⊢
  rw [List.map_cons, hv, h, List.range_succ_eq_map, List.map_cons, List.map_map, Nat.cast_zero, add_zero]
  congr 1
  refine List.map_congr_left fun j _ => ?_
  simp only [add_assoc, word_sint_word_add, Function.comp, Nat.cast_succ, add_comm (1 : Int)]

/-- Where PC is after one word, the block of the words that follow. -/
theorem blockAddrs_advanced_one (w : View) (s : State) (n : Nat) :
    blockAddrs (sint ((advanced 1 [w] s).reg .pc)) 1 n = blockAddrs (sint (s.reg .pc) + 1) 1 n :=
  blockAddrs_congr (word_sint _) 1 n

/-- After the first word of an admitted block the others are still admitted. -/
theorem advanced_one_admits {s : State} {n : Nat} (w : View)
    (h : s.admits (blockAddrs (sint (s.reg .pc)) 1 (n + 1)) = true) :
    s.admitsAddr (sint (s.reg .pc)) = true ∧
      (advanced 1 [w] s).admits (blockAddrs (sint ((advanced 1 [w] s).reg .pc)) 1 n) = true := by
  rw [blockAddrs_succ, addr_sint_add, admits_cons, Bool.and_eq_true] at h
  refine ⟨h.1, ?_⟩
  rw [blockAddrs_advanced_one, admits_congr (s := touch (sint (s.reg .pc)) s)]
  · exact h.2
  · simp
  · simp [blockAddrs_succ, capAfter_cons]

/-- OPERANDS, where no access is refused: the words from PC on are latched, in fetch order. -/
theorem fetchOperands_eq {n : Nat} {s : State} (h : s.admits (blockAddrs (sint (s.reg .pc)) 1 n) = true) :
    ∃ vs, PcAdvances s.regs n vs ∧ fetchOperands n s =
      .done () (withOps (s.ops ++ (blockAddrs (sint (s.reg .pc)) 1 n).map s.cell) (advanced n vs s)) := by
  induction n generalizing s with
  | zero => exact ⟨[], rfl, by simp [fetchOperands, advanced_zero, withOps]⟩
  | succ n ih =>
    obtain ⟨v, hv, hregs⟩ := advancePc_touch s
    obtain ⟨hfirst, hrest⟩ := advanced_one_admits v h
    have hstep : fetchOperands (n + 1) s =
        fetchOperands n (withOps (s.ops ++ [s.cell (sint (s.reg .pc))]) (advanced 1 [v] s)) := by
      rw [fetchOperands, memRead_eq hfirst, bind_done, ← hv, touch_ops]
      rfl
    obtain ⟨vs, hvs, hfetch⟩ := ih (s := withOps (s.ops ++ [s.cell (sint (s.reg .pc))]) (advanced 1 [v] s)) hrest
    refine ⟨v :: vs, .cons hregs hvs, ?_⟩
    rw [hstep, hfetch, advanced_succ n v vs s, advanced_withOps, withOps_withOps, withOps_ops, withOps_reg, withOps_cell,
      blockAddrs_advanced_one, blockAddrs_succ, addr_sint_add, List.map_cons, advanced_cell, List.append_assoc,
      List.singleton_append]

/-- The state that `afterFetch` writes out: all words of the instruction read, its record and operands latched. -/
theorem afterFetch_eq (r : InstrRecord) (vs : List View) (s : State) :
    { afterFetch r s with views := s.views ++ s.heard vs } =
      withOps ((codeAddrs s r.operandCount).tail.map s.cell)
        (latch r (sint (s.reg .pc)) (advanced (r.operandCount + 1) vs s)) := by
  have hpc : sint (s.reg .pc) + ((r.operandCount + 1 : Nat) : Int) = sint (s.reg .pc) + 1 + r.operandCount := by
    push_cast; ring
  rw [advanced, hpc]
  rfl

/-- FETCH and OPERANDS (10_state.md R47), where the words at PC encode `i` and no access to them is refused. -/
theorem fetch_eq {s : State} {i : Instr} (hm : s.params.opcodes.wellFormed = true)
    (hadm : s.admits (codeAddrs s i.operands.length) = true)
    (hcode : (codeAddrs s i.operands.length).map s.cell = encode s.params.opcodes i) :
    ∃ vs, PcAdvances s.regs (i.operands.length + 1) vs ∧
      fetch s = .done (some i)
        { afterFetch (recordOf s.params.opcodes i.mnemonic) s with views := s.views ++ s.heard vs } := by
  obtain ⟨v, hv, hregs⟩ := advancePc_touch s
  obtain ⟨hfirst, hrest⟩ := advanced_one_admits v hadm
  have htail : (codeAddrs s i.operands.length).tail = blockAddrs (sint (s.reg .pc) + 1) 1 i.operands.length := by
    rw [codeAddrs, blockAddrs_succ, List.tail_cons]
  have hopcode : s.cell (sint (s.reg .pc)) = s.params.opcodes.number i.mnemonic := by
    rw [codeAddrs, blockAddrs_succ, addr_sint_add, encode, List.map_cons, List.cons.injEq] at hcode
    exact hcode.1
  have hoperands : (blockAddrs (sint (s.reg .pc) + 1) 1 i.operands.length).map s.cell = i.operands := by
    rw [← htail, List.map_tail, hcode, encode, List.tail_cons]
  obtain ⟨vs, hvs, hfetch⟩ := fetchOperands_eq
    (s := latch (recordOf s.params.opcodes i.mnemonic) (sint (s.reg .pc)) (advanced 1 [v] s)) hrest
  rw [latch_ops, List.nil_append, latch_reg, blockAddrs_advanced_one, latch_cells, advanced_cell, hoperands,
    advanced_latch, ← advanced_succ] at hfetch
  refine ⟨v :: vs, .cons hregs hvs, ?_⟩
  rw [afterFetch_eq, operandCount_recordOf, htail, hoperands]
  simp only [fetch, memRead_eq hfirst, bind_done, hv, advanced_params, hopcode, lookup_number hm, operandCount_recordOf,
    hfetch, withOps_ops, recordOf_mnemonic, assemble_operands]

end Sys2Proof.Machine
end

section
/-! PROOFS. A step runs the decoded instruction (O4). -/

namespace Sys2Proof.Machine

open Sys2Proof Sys2Proof.Claims

/-- Settles O4: the fetch ends with the encoded instruction (`fetch_eq`), and the step executes it. -/
theorem stepRunsTheDecodedInstruction : Obligations.StepRunsTheDecodedInstruction := by
  intro s i hm ⟨hrs, hw⟩ hadm hcode
  obtain ⟨vs, hvs, hfetch⟩ := fetch_eq hm hadm hcode
  exact ⟨vs, by rw [step_of_ready hrs hw, withFetched, hfetch], hvs⟩

end Sys2Proof.Machine
end

section
/-! PROOFS. One memory access, refused or not (O9, O10). -/

namespace Sys2Proof.Machine

open Sys2Proof Sys2Proof.Claims

/-- One access alone is refused or not as its address says. -/
@[simp] theorem admits_singleton (s : State) (a : Int) : s.admits [a] = s.admitsAddr a := by
  rw [admits_cons, admits_nil, Bool.and_true]

/-- A refused access has no effect but the fault's (60_exceptions.md R195). -/
theorem faultTaken_enterFault (f : FaultInfo) (s : State) : FaultTaken f [] [] s (enterFault f s) :=
  ⟨rfl, rfl, rfl, fun _ _ => rfl, fun _ _ => rfl, fun _ _ => rfl, rfl, rfl, rfl, rfl, rfl, rfl, rfl⟩

/-- Settles O10: such an address is not admitted, and both accesses then raise the same fault. -/
theorem refusedAccessFaults : Obligations.RefusedAccessFaults := by
  intro s a v h
  have hrefused : s.admitsAddr a = false := by
    rw [← Bool.not_eq_true, admitsAddr_iff]
    omega
  exact ⟨_, memRead_refused hrefused, memWrite_refused v hrefused, faultTaken_enterFault _ s, rfl, rfl⟩

/-- An access below the capacity grows nothing (20_memory.md R56). -/
theorem touch_of_lt {a : Int} {s : State} (h : a < s.cap) : touch a s = s := if_pos h

/-- An access in the window above the capacity grows it once (R57). -/
theorem touch_of_le {a : Int} {s : State} (h : (s.cap : Int) ≤ a) : touch a s = grow s := if_neg (not_lt.2 h)

/-- There is no word above the capacity: 0 stands for what growth would put there (R57). -/
theorem cell_of_le {a : Int} {s : State} (h : (s.cap : Int) ≤ a) : s.cell a = 0 := if_neg fun hlt => by omega

/-- A read of an address that has a cell changes nothing (R56, R62). -/
theorem memRead_of_lt {a : Int} {s : State} (h : 0 ≤ a) (h' : a < s.cap) : memRead a s = .done (s.cell a) s := by
  rw [memRead_eq ((admitsAddr_iff s a).2 ⟨h, by omega⟩), touch_of_lt h']

theorem unchanged_touch (a : Int) (s : State) : Unchanged [] [] [] s (touch a s) := by
  constructor <;> simp

/-- A write changes the word of its own cell only (R59). -/
theorem unchanged_written {a : Int} (v : Word) {s : State} (h : s.admitsAddr a = true) :
    Unchanged [] [a] [] s (written a v s) := by
  constructor
  case cells => intro b hb; rw [written_cell v h, if_neg (by simpa using hb)]
  all_goals simp

/-- Settles O9: a write ends in `written`, a read in `touch`, and in both the address has a cell. -/
theorem readAndWriteOneCell : Obligations.ReadAndWriteOneCell := by
  refine ⟨fun s a v h => ?_, fun s a h => ?_⟩
  all_goals
    rw [admits_singleton] at h
    have hnonneg : 0 ≤ a := ((admitsAddr_iff s a).1 h).1
    have hcell : a < (touch a s).cap := (Int.toNat_lt hnonneg).1 (lt_cap_of_admits h)
  · have hword : (written a v s).cell a = v := by rw [written_cell v h, if_pos rfl]
    refine ⟨written a v s, memWrite_eq v h, ?_, hword, unchanged_written v h, ?_, written_events v h, written_views a v s⟩
    · rw [memRead_of_lt (s := written a v s) hnonneg hcell, hword]
    · rw [written_cap, capAfter_cons, capAfter_nil]
  · refine ⟨touch a s, memRead_eq h, ?_, unchanged_touch a s, touch_events a s, touch_views a s, touch_of_lt, fun hle => ?_⟩
    · rw [memRead_of_lt hnonneg hcell, touch_cell]
    · exact ⟨by rw [touch_of_le hle, grow_cap], cell_of_le hle⟩

end Sys2Proof.Machine
end

section
/-! PROOFS. Every step keeps the model's invariant (O56): one case per primitive update for the tables of a state, and
the ends of a step for the rest. -/

namespace Sys2Proof.Machine

open Sys2Proof Sys2Proof.Claims

/-- The part of `State.Inv` that speaks of the memory, the annotations and the capacity (20_memory.md R54). -/
structure State.CellsInv (s : State) : Prop where
  memory : s.mem.wf
  memoryBelow : ∀ c ∈ s.mem, c.1 < s.cap
  annotations : Rising s.ann
  annotationsBelow : ∀ c ∈ s.ann, c.1 < s.cap

/-- The part of `State.Inv` that speaks of the open handles and the file store (10_state.md R41). -/
structure State.FilesInv (s : State) : Prop where
  handles : Rising s.handles
  streams : ∀ c ∈ s.handles, liveStream s c.2
  files : (s.host.files.map Prod.fst).Nodup

/-! ### The cells -/

theorem mem_memSet {m : Memory} {a : Nat} {v : Word} {c : Nat × Word} (h : c ∈ memSet m a v) : c = (a, v) ∨ c ∈ m := by
  unfold memSet at h
  split at h
  · exact .inr (List.mem_of_mem_filter h)
  · exact mem_sparseSet h

theorem State.CellsInv.of_eq {s t : State} (h : s.CellsInv) (mem : t.mem = s.mem) (ann : t.ann = s.ann)
    (cap : t.cap = s.cap) : t.CellsInv where
  memory := mem ▸ h.memory
  memoryBelow := by rw [mem, cap]; exact h.memoryBelow
  annotations := ann ▸ h.annotations
  annotationsBelow := by rw [ann, cap]; exact h.annotationsBelow

theorem State.CellsInv.grow {s : State} (h : s.CellsInv) : (grow s).CellsInv where
  memory := sparseBelow_wf _ h.memory
  memoryBelow c hc := Nat.lt_add_right _ (h.memoryBelow c (List.mem_of_mem_filter hc))
  annotations := rising_sparseBelow _ h.annotations
  annotationsBelow c hc := Nat.lt_add_right _ (h.annotationsBelow c (List.mem_of_mem_filter hc))

theorem State.CellsInv.storeCell {s : State} (h : s.CellsInv) {a : Nat} (v : Word) (ha : a < s.cap) :
    (storeCell a v s).CellsInv where
  memory := memSet_wf a v h.memory
  memoryBelow c hc := by
    rcases mem_memSet hc with rfl | hc
    · exact ha
    · exact h.memoryBelow c hc
  annotations := h.annotations
  annotationsBelow := h.annotationsBelow

theorem State.CellsInv.annotate {s : State} (h : s.CellsInv) {a : Int} (x : AnnText) (ha : 0 ≤ a) (ha' : a < s.cap) :
    (annotate a x s).CellsInv where
  memory := h.memory
  memoryBelow := h.memoryBelow
  annotations := rising_sparseSet _ _ h.annotations
  annotationsBelow c hc := by
    rcases mem_sparseSet hc with rfl | hc
    · exact (Int.toNat_lt ha).2 ha'
    · exact h.annotationsBelow c hc

theorem Update.cellsInv {s t : State} (h : Update s t) (hs : s.CellsInv) : t.CellsInv := by
  cases h with
  | grow => exact hs.grow
  | store a v _ ha => exact hs.storeCell v ha
  | note a x _ ha ha' => exact hs.annotate x ha ha'
  | reg | diag | print | wait | answered | fileCall | file | handle | close => exact hs.of_eq rfl rfl rfl

/-! ### The handles and the files -/

theorem State.FilesInv.of_eq {s t : State} (h : s.FilesInv) (handles : t.handles = s.handles)
    (files : t.host.files = s.host.files) : t.FilesInv where
  handles := handles ▸ h.handles
  streams := by simpa only [liveStream, handles, files] using h.streams
  files := files ▸ h.files

/-- The names of the store after a write: one more at most, and then one that was not there. -/
theorem map_fst_filePut (fs : List (FileName × List Byte)) (n : FileName) (bs : List Byte) :
    (filePut fs n bs).map Prod.fst = if n ∈ fs.map Prod.fst then fs.map Prod.fst else fs.map Prod.fst ++ [n] := by
  induction fs with
  | nil => simp [filePut]
  | cons f fs ih =>
    obtain ⟨m, cs⟩ := f
    by_cases hn : n = m
    · simp [filePut, hn]
    · rw [filePut, if_neg hn, List.map_cons, ih]
      simp only [List.map_cons, List.mem_cons, hn, false_or]
      split <;> rfl

theorem filePut_names_nodup {fs : List (FileName × List Byte)} (n : FileName) (bs : List Byte)
    (h : (fs.map Prod.fst).Nodup) : ((filePut fs n bs).map Prod.fst).Nodup := by
  rw [map_fst_filePut]
  split
  · exact h
  next hn => exact List.nodup_append_comm.1 (List.nodup_cons.2 ⟨hn, h⟩)

/-- A write to the store leaves no stream without its file. -/
theorem State.FilesInv.setFile {s : State} (h : s.FilesInv) (n : FileName) (bs : List Byte) :
    (setFile n bs s).FilesInv where
  handles := h.handles
  streams c hc := (extends_setFile n bs s).files _ (h.streams c hc)
  files := filePut_names_nodup n bs h.files

/-- A handle may be set to a stream on a file of the store, or on the file it was on before. -/
theorem State.FilesInv.setHandle {s : State} (h : s.FilesInv) {k : Nat} {st : Stream}
    (hst : (fileGet s.host.files st.name).isSome ∨ ∃ st', sparseGet s.handles k = some st' ∧ st'.name = st.name) :
    (setHandle k st s).FilesInv where
  handles := rising_sparseSet k st h.handles
  streams c hc := by
    rcases mem_sparseSet hc with rfl | hc
    · rcases hst with hlive | ⟨st', hget, hname⟩
      · exact hlive
      · have hlive : liveStream s st' := h.streams _ (sparseGet_eq_some_mem hget)
        rwa [liveStream, hname] at hlive
    · exact h.streams c hc
  files := h.files

theorem State.FilesInv.removeHandle {s : State} (h : s.FilesInv) (k : Nat) : (removeHandle k s).FilesInv where
  handles := rising_sparseErase k h.handles
  streams c hc := h.streams c (List.mem_of_mem_filter hc)
  files := h.files

theorem Update.filesInv {s t : State} (h : Update s t) (hs : s.FilesInv) : t.FilesInv := by
  cases h with
  | file n bs => exact hs.setFile n bs
  | handle k st _ hst => exact hs.setHandle hst
  | close k => exact hs.removeHandle k
  | reg | grow | store | note | diag | print | wait | answered | fileCall => exact hs.of_eq rfl rfl

/-! ### A step -/

theorem FetchUpdate.tables {s t : State} (h : FetchUpdate s t) (hs : s.CellsInv ∧ s.FilesInv) :
    t.CellsInv ∧ t.FilesInv := by
  obtain ⟨hcells, hfiles⟩ := hs
  cases h with
  | update h => exact ⟨h.cellsInv hcells, h.filesInv hfiles⟩
  | latch | operand => exact ⟨hcells.of_eq rfl rfl rfl, hfiles.of_eq rfl rfl⟩

theorem FetchUpdates.tables {s t : State} (h : FetchUpdates s t) (hs : s.CellsInv ∧ s.FilesInv) :
    t.CellsInv ∧ t.FilesInv := by
  induction h with
  | refl => exact hs
  | tail _ h ih => exact h.tables ih

/-- The ends of a step touch neither cells nor files. -/
theorem StepEnds.tables {s t : State} (h : StepEnds s t) (hs : s.CellsInv ∧ s.FilesInv) : t.CellsInv ∧ t.FilesInv := by
  cases h with
  | idle => exact hs
  | goesOn _ _ hu => exact hu.tables hs
  | faulted _ _ _ hu | halted _ _ hu | illegal _ _ _ _ hu =>
    obtain ⟨hcells, hfiles⟩ := hu.tables hs
    exact ⟨hcells.of_eq rfl rfl rfl, hfiles.of_eq rfl rfl⟩

/-- A machine that is still RUNNING after a step has latches that agree (10_state.md R37). -/
theorem StepEnds.latches {s t : State} (h : StepEnds s t) (hs : s.rs = .running → latchesAgree s.ir s.ops = true)
    (ht : t.rs = .running) : latchesAgree t.ir t.ops = true := by
  cases h with
  | idle => exact hs ht
  | goesOn _ hr _ _ ha => exact ha (hs hr)
  | faulted | halted | illegal => cases ht

/-- Only a RUNNING machine waits at a prompt (10_state.md R40). -/
theorem StepEnds.waiting {s t : State} (h : StepEnds s t) (hs : s.waiting ≠ none → s.rs = .running)
    (ht : t.waiting ≠ none) : t.rs = .running := by
  cases h with
  | idle => exact hs ht
  | goesOn _ hr _ hrs => exact hrs.trans hr
  | faulted _ _ _ _ _ hp | halted _ _ _ hp | illegal _ _ _ _ _ hp => exact absurd hp ht

/-- No listener subscribed after the last event, and the feed only grows. -/
theorem Extends.subscribed {s t : State} (h : Extends s t)
    (hs : s.host.subscribers.Pairwise (· ≤ ·) ∧ ∀ n ∈ s.host.subscribers, n ≤ s.events.length) :
    t.host.subscribers.Pairwise (· ≤ ·) ∧ ∀ n ∈ t.host.subscribers, n ≤ t.events.length := by
  obtain ⟨evs, _, hevents, _, _⟩ := h.feed
  rw [h.subscribers, hevents, List.length_append]
  exact ⟨hs.1, fun n hn => Nat.le_add_right_of_le (hs.2 n hn)⟩

/-- New events come with one view each, where someone listens (70_reset_and_hazards.md R224). -/
theorem Extends.viewsDue {s t : State} (h : Extends s t) (hsub : ∀ n ∈ s.host.subscribers, n ≤ s.events.length)
    (hs : s.views.length = s.viewsDue) : t.views.length = t.viewsDue := by
  obtain ⟨evs, vs, hevents, hviews, hshows⟩ := h.feed
  have hlength : evs.length = vs.length := hshows.length_eq
  rw [hviews, List.length_append, hs, heard_length]
  cases hl : s.host.subscribers with
  | nil => simp [State.viewsDue, h.subscribers, hl]
  | cons first _ =>
    have := hsub first (by simp [hl])
    simp only [State.viewsDue, h.subscribers, hl, hevents, List.length_append, reduceCtorEq, if_false]
    omega

/-- Settles O56: the tables are kept by every primitive update, the feed and the views by what a step can append, and the
latches and the waiting prompt by the ends of a step. -/
theorem stepKeepsTheInvariant : Obligations.StepKeepsTheInvariant := by
  intro s t hs h
  have ends : StepEnds s t := step_ends h
  obtain ⟨hcells, hfiles⟩ := ends.tables
    ⟨⟨hs.memory, hs.memoryBelow, hs.annotations, hs.annotationsBelow⟩, hs.handles, hs.streams, hs.files⟩
  exact
    { memory := hcells.memory
      memoryBelow := hcells.memoryBelow
      annotations := hcells.annotations
      annotationsBelow := hcells.annotationsBelow
      handles := hfiles.handles
      streams := hfiles.streams
      files := hfiles.files
      latches := ends.latches hs.latches
      waiting := ends.waiting hs.waiting
      subscribers := ends.extends.subscribed hs.subscribers
      views := ends.extends.viewsDue hs.subscribers.2 hs.views }

end Sys2Proof.Machine
end

section
/-! SUPPORT. Annotations are debug data (20_memory.md R64): `Reannotated` is a state with other annotations and other views
of them, and every operation does the same from it, up to annotations again. One lemma per shared operation, and one for
every instruction. -/

namespace Sys2Proof.Machine

open Sys2Proof

/-- What a listener sees but for the annotations. -/
def View.bare (v : View) : View := { v with ann := [] }

/-- Other annotations for `s`, and other views, which differ from those of `s` in annotations only. -/
structure Reannotated (s : State) where
  ann : List (Nat × Annotation)
  views : List View
  same : views.map View.bare = s.views.map View.bare

namespace Reannotated

/-- The state `s` with the other annotations and views. -/
abbrev state {s : State} (o : Reannotated s) : State := { s with ann := o.ann, views := o.views }

section
variable {s : State} (o : Reannotated s)

theorem state_host : o.state.host = s.host := rfl
theorem state_ir : o.state.ir = s.ir := rfl
theorem state_admitsAddr (a : Int) : o.state.admitsAddr a = s.admitsAddr a := rfl
theorem state_stream (h : Word) : o.state.stream h = s.stream h := rfl
theorem state_fileServiceFails : o.state.fileServiceFails = s.fileServiceFails := rfl
theorem advancePc_state_params : (advancePc o.state).params = (advancePc s).params := rfl

end

/-- The annotations stay as they are where no event is sent. -/
def carry {s t : State} (o : Reannotated s) (h : t.views = s.views) : Reannotated t := ⟨o.ann, o.views, h ▸ o.same⟩

/-- Listeners hear of the event in both states. -/
def emit {s : State} (o : Reannotated s) (e : ChangeEvent) : Reannotated (Machine.emit e s) where
  ann := o.ann
  views := (Machine.emit e o.state).views
  same := by
    simp only [Machine.emit, State.heard, List.map_append, o.same]
    congr 1
    split <;> rfl

def setReg {s : State} (o : Reannotated s) (r : Reg) (v : Word) : Reannotated (Machine.setReg r v s) :=
  (o.carry (t := { s with regs := regsSet s.regs r v }) rfl).emit _

def storeCell {s : State} (o : Reannotated s) (a : Nat) (v : Word) : Reannotated (Machine.storeCell a v s) :=
  (o.carry (t := { s with mem := memSet s.mem a v }) rfl).emit _

/-- Growth drops what was annotated above the capacity. -/
def touch {s : State} (o : Reannotated s) (a : Int) : Reannotated (Machine.touch a s) where
  ann := if a < s.cap then o.ann else sparseBelow o.ann s.cap
  views := o.views
  same := by rw [touch_views, o.same]

theorem touch_state {s : State} (o : Reannotated s) (a : Int) : Machine.touch a o.state = (o.touch a).state := by
  unfold touch state Machine.touch
  split <;> rfl

def annotate {s : State} (o : Reannotated s) (a : Int) (x : AnnText) : Reannotated (Machine.annotate a x s) :=
  ⟨(Machine.annotate a x o.state).ann, o.views, o.same⟩

end Reannotated

/-- Two ends that differ in annotations only. -/
inductive Res.Alike {α : Type} : Res α → Res α → Prop where
  | done (a : α) (s : State) (o : Reannotated s) : Alike (.done a s) (.done a o.state)
  | stopped (s : State) (o : Reannotated s) : Alike (.stopped s) (.stopped o.state)

/-- Statements in sequence end alike if each does, whatever annotations the first leaves. -/
theorem Res.Alike.bind {α β : Type} {r r' : Res α} {k k' : α → State → Res β} (h : r.Alike r')
    (hk : ∀ a s (o : Reannotated s), (k a s).Alike (k' a o.state)) : (r.bind k).Alike (r'.bind k') := by
  cases h with
  | done a s o => exact hk a s o
  | stopped s o => exact .stopped s o

section
variable {s : State}

/-! ### The shared operations -/

theorem alike_raise {α : Type} (f : FaultInfo) (o : Reannotated s) : (raise f s : Res α).Alike (raise f o.state) :=
  .stopped (enterFault f s) (o.carry rfl)

theorem alike_access (a : Int) (o : Reannotated s) : (access a s).Alike (access a o.state) := by
  rw [access, access, o.touch_state, o.state_admitsAddr]
  split
  · exact .done () _ (o.touch a)
  · exact alike_raise _ o

theorem alike_memRead (a : Int) (o : Reannotated s) : (memRead a s).Alike (memRead a o.state) :=
  (alike_access a o).bind fun _ t o => .done (memGet t.mem a.toNat) t o

theorem alike_memWrite (a : Int) (v : Word) (o : Reannotated s) : (memWrite a v s).Alike (memWrite a v o.state) :=
  (alike_access a o).bind fun _ _ o => .done () _ (o.storeCell a.toNat v)

theorem alike_setReg (r : Reg) (v : Word) (o : Reannotated s) :
    (Res.done () (setReg r v s)).Alike (.done () (setReg r v o.state)) := .done () _ (o.setReg r v)

theorem alike_branchIf (b : Bool) (k : Word) (o : Reannotated s) :
    (Res.done () (branchIf b k s)).Alike (.done () (branchIf b k o.state)) := by
  unfold branchIf
  split
  · exact alike_setReg .pc _ o
  · exact .done () s o

theorem alike_diag (d : Diag) (o : Reannotated s) : (Res.done () (diag d s)).Alike (.done () (diag d o.state)) :=
  .done () (diag d s) (o.carry rfl)

theorem alike_push (v : Word) (o : Reannotated s) : (push v s).Alike (push v o.state) :=
  alike_memWrite _ v (o.setReg .sp (disp s .sp 1))

theorem alike_pop (o : Reannotated s) : (pop s).Alike (pop o.state) :=
  (alike_memRead _ o).bind fun v t o => .done v _ (o.setReg .sp (disp t .sp (-1)))

theorem alike_pushAll (vs : List Word) (o : Reannotated s) : (pushAll vs s).Alike (pushAll vs o.state) := by
  induction vs generalizing s with
  | nil => exact .done () s o
  | cons v vs ih => exact (alike_push v o).bind fun _ _ o => ih o

theorem alike_checkReg (r : Word) (o : Reannotated s) : (checkReg r s).Alike (checkReg r o.state) := by
  unfold checkReg
  split
  · exact .done _ s o
  · exact alike_raise _ o

theorem alike_checkCount (least : Int) (n : Word) (o : Reannotated s) :
    (checkCount least n s).Alike (checkCount least n o.state) := by
  unfold checkCount
  split
  · exact alike_raise _ o
  · exact .done () s o

theorem alike_readBlock (b stride : Int) (n : Nat) (o : Reannotated s) :
    (readBlock b stride n s).Alike (readBlock b stride n o.state) := by
  induction n generalizing b s with
  | zero => exact .done [] s o
  | succ n ih => exact (alike_memRead _ o).bind fun v _ o => (ih _ o).bind fun vs t o => .done (v :: vs) t o

theorem alike_writeBlock (b stride : Int) (x : Option AnnText) (vs : List Word) (o : Reannotated s) :
    (writeBlock b stride x vs s).Alike (writeBlock b stride x vs o.state) := by
  induction vs generalizing b s with
  | nil => exact .done () s o
  | cons v vs ih =>
    refine (alike_memWrite _ v o).bind fun _ _ o => ?_
    cases x with
    | none => exact ih _ o
    | some x => exact ih _ (o.annotate _ x)

theorem alike_loadMulti (b stride : Int) (n : Word) (m : Mnemonic) (o : Reannotated s) :
    (loadMulti b stride n m s).Alike (loadMulti b stride n m o.state) :=
  (alike_readBlock _ _ _ o).bind fun vs _ o => alike_writeBlock _ _ _ vs (o.setReg .sp _)

theorem alike_takeBlock (n : Word) (o : Reannotated s) : (takeBlock n s).Alike (takeBlock n o.state) :=
  (alike_readBlock _ _ _ o).bind fun us _ o => .done us _ (o.setReg .sp _)

theorem alike_storeMulti (b : Int) (n : Word) (m : Mnemonic) (o : Reannotated s) :
    (storeMulti b n m s).Alike (storeMulti b n m o.state) :=
  (alike_takeBlock n o).bind fun us _ o => alike_writeBlock _ _ _ us o

theorem alike_binop (m : Mnemonic) (f : Word → Word → Option Word) (o : Reannotated s) :
    (binop m f s).Alike (binop m f o.state) := by
  refine (alike_pop o).bind fun r _ o => (alike_pop o).bind fun l _ o => ?_
  split
  · exact alike_raise _ o
  · exact (alike_push _ o).bind fun _ _ o => .done () _ (o.annotate _ _)

theorem alike_unop (g : Word → Word) (o : Reannotated s) : (unop g s).Alike (unop g o.state) :=
  (alike_pop o).bind fun _ _ o => alike_push _ o

theorem alike_brcc (mask : BitVec 3) (k : Word) (o : Reannotated s) : (brcc mask k s).Alike (brcc mask k o.state) :=
  (alike_pop o).bind fun _ _ o => alike_branchIf _ k o

/-- The end of STMH (44_heap.md R170): the markers, HP, and the address pushed. -/
theorem alike_markBlock (h n : Int) (v w : Word) (o : Reannotated s) :
    (push w (setReg .hp v (markBlock h n s))).Alike (push w (setReg .hp v (markBlock h n o.state))) := by
  unfold markBlock
  split
  · exact alike_push w ((o.annotate _ _).setReg .hp v)
  · exact alike_push w (((o.annotate _ _).annotate _ _).setReg .hp v)

/-! ### TRAP -/

/-- What the host has answered does not depend on annotations either. -/
theorem alike_pushAnswer (h : HostState) (v : Word) (o : Reannotated s) :
    (push v (answered h s)).Alike (push v (answered h o.state)) :=
  alike_push v (o.carry (t := answered h s) rfl)

theorem alike_awaitPrompt (p : Prompt) (o : Reannotated s) : (awaitPrompt p s).Alike (awaitPrompt p o.state) :=
  .done () { s with waiting := some p } (o.carry rfl)

theorem alike_promptInt (o : Reannotated s) : (promptInt s).Alike (promptInt o.state) := by
  rw [promptInt, promptInt, o.state_host]
  split
  · exact alike_awaitPrompt _ o
  · exact alike_pushAnswer _ _ o

theorem alike_promptChar (o : Reannotated s) : (promptChar s).Alike (promptChar o.state) := by
  rw [promptChar, promptChar, o.state_host]
  split
  · exact alike_awaitPrompt _ o
  · exact alike_pushAnswer _ _ o

theorem alike_promptCharArray (o : Reannotated s) : (promptCharArray s).Alike (promptCharArray o.state) := by
  rw [promptCharArray, promptCharArray, o.state_host]
  split
  · exact alike_awaitPrompt _ o
  · exact alike_pushAll _ (o.carry (t := answered { s.host with textAnswers := _ } s) rfl)

theorem alike_popStringUpTo (n : Nat) (o : Reannotated s) : (popStringUpTo n s).Alike (popStringUpTo n o.state) := by
  induction n generalizing s with
  | zero => exact .done [] s o
  | succ n ih =>
    refine (alike_pop o).bind fun c t o => ?_
    split
    · exact .done [] t o
    · exact (ih o).bind fun cs u o => .done (c :: cs) u o

/-- An open answers the same stream. -/
theorem openFile_state (m : Mode) (n : FileName) (o : Reannotated s) :
    ∃ st t, ∃ o' : Reannotated t, openFile m n s = (st, t) ∧ openFile m n o.state = (st, o'.state) := by
  unfold openFile
  rw [o.state_fileServiceFails]
  split
  · exact ⟨none, afterFileCall s, o.carry rfl, rfl, rfl⟩
  · cases m with
    | read => exact ⟨_, afterFileCall s, o.carry rfl, rfl, rfl⟩
    | write => exact ⟨_, setFile n [] (afterFileCall s), o.carry rfl, rfl, rfl⟩

theorem alike_openHandle (m : Mode) (o : Reannotated s) : (openHandle m s).Alike (openHandle m o.state) := by
  refine (alike_popStringUpTo _ o).bind fun n u o => ?_
  obtain ⟨st, t, o', h, h'⟩ := openFile_state m n o
  rw [h, h']
  cases st with
  | none => exact alike_diag _ o'
  | some st => exact alike_push _ (o'.carry (t := setHandle _ st t) rfl)

theorem alike_readHandle (o : Reannotated s) : (readHandle s).Alike (readHandle o.state) := by
  refine (alike_pop o).bind fun h t o => ?_
  rw [o.state_stream, o.state_fileServiceFails]
  split
  · exact alike_diag _ o
  · exact alike_diag _ o
  · dsimp only
    split
    · exact alike_diag _ (o.carry (t := afterFileCall t) rfl)
    · exact alike_push _ (o.carry (t := setHandle _ _ (afterFileCall t)) rfl)

theorem alike_writeHandle (o : Reannotated s) : (writeHandle s).Alike (writeHandle o.state) := by
  refine (alike_pop o).bind fun h _ o => (alike_pop o).bind fun v t o => ?_
  rw [o.state_stream, o.state_fileServiceFails]
  split
  · exact alike_diag _ o
  · exact alike_diag _ o
  · dsimp only
    split
    · exact alike_diag _ (o.carry (t := afterFileCall t) rfl)
    · exact alike_push _ (o.carry (t := setFile _ _ (afterFileCall t)) rfl)

theorem alike_closeHandle (o : Reannotated s) : (closeHandle s).Alike (closeHandle o.state) := by
  refine (alike_pop o).bind fun h t o => ?_
  rw [o.state_stream, o.state_fileServiceFails]
  split
  · exact alike_diag _ o
  · dsimp only
    split
    · exact alike_diag _ (o.carry (t := removeHandle _ (afterFileCall t)) rfl)
    · exact .done () (removeHandle _ (afterFileCall t)) (o.carry rfl)

theorem alike_trapOp (p : TrapOp) (o : Reannotated s) : (trapOp p s).Alike (trapOp p o.state) := by
  cases p with
  | prInt | prChar => exact (alike_pop o).bind fun _ t o => .done () (print _ t) (o.carry rfl)
  | inInt => exact alike_promptInt o
  | inChar => exact alike_promptChar o
  | inCharArray => exact alike_promptCharArray o
  | fileOpenRead | fileOpenWrite => exact alike_openHandle _ o
  | fileRead => exact alike_readHandle o
  | fileWrite => exact alike_writeHandle o
  | fileClose => exact alike_closeHandle o

/-! ### Every instruction, and the step -/

/-- Both outcomes are next states, which differ in annotations only. -/
def NextAlike (r r' : Host.Outcome State Fault Refusal) : Prop :=
  ∃ t, ∃ o : Reannotated t, r = .next t ∧ r' = .next o.state

theorem NextAlike.next (t : State) (o : Reannotated t) : NextAlike (.next t) (.next o.state) := ⟨t, o, rfl, rfl⟩

theorem Res.Alike.outcome {r r' : Res Unit} (h : r.Alike r') : NextAlike r.outcome r'.outcome := by
  cases h with
  | done _ t o | stopped t o => exact .next t o

theorem alike_execTrap (k : Word) (o : Reannotated s) : NextAlike (execTrap k s) (execTrap k o.state) := by
  cases h : trapOf s.params.traps k with
  | some p => rw [execTrap_some h, execTrap_some (s := o.state) h]; exact (alike_trapOp p o).outcome
  | none => rw [execTrap_none h, execTrap_none (s := o.state) h]; exact (alike_diag _ o).outcome

theorem alike_exec (i : Instr) (o : Reannotated s) : NextAlike (exec i s) (exec i o.state) := by
  cases i with
  | trap k => exact alike_execTrap k o
  | halt => exact .next (diag .halted (halt s)) (o.carry rfl)
  | nop => exact .next s o
  | adjs k => exact .next _ (o.setReg .sp (disp s .sp (sint k)))
  | bra k => exact .next _ (o.setReg .pc (branchTarget s k))
  | _ => ?_
  all_goals refine Res.Alike.outcome ?_
  case add | and | div | mod | mul | or | sub | xor | eq | ne | lt | gt | le | ge | lsl | lsr | rol | ror | cmp =>
    exact alike_binop _ _ o
  case neg | not => exact alike_unop _ o
  case beq | bne | blt | bgt | ble | bge => exact alike_brcc _ _ o
  case brf k | brt k => exact (alike_pop o).bind fun _ _ o => alike_branchIf _ k o
  case bsr => exact (alike_push _ o).bind fun _ _ o => alike_setReg .pc _ o
  case jsr => exact (alike_pop o).bind fun _ _ o => (alike_push _ o).bind fun _ _ o => alike_setReg .pc _ o
  case ret => exact (alike_pop o).bind fun _ _ o => alike_setReg .pc _ o
  case lda | ldh => exact (alike_pop o).bind fun _ _ o => (alike_memRead _ o).bind fun _ _ o => alike_push _ o
  case ldma k n | ldmh k n =>
    exact (alike_checkCount 0 n o).bind fun _ _ o => (alike_pop o).bind fun _ _ o => alike_loadMulti _ _ n _ o
  case ldaa => exact (alike_pop o).bind fun _ _ o => alike_push _ o
  case ldc | ldla | ldsa => exact alike_push _ o
  case ldl | lds => exact (alike_memRead _ o).bind fun _ _ o => alike_push _ o
  case ldml k n | ldms k n => exact (alike_checkCount 0 n o).bind fun _ _ o => alike_loadMulti _ _ n _ o
  case ldr r => exact (alike_checkReg r o).bind fun _ _ o => alike_push _ o
  case ldrr r q =>
    exact (alike_checkReg r o).bind fun x _ o => (alike_checkReg q o).bind fun _ _ o => alike_setReg x _ o
  case link => exact (alike_push _ o).bind fun _ _ o => alike_setReg .sp _ (o.setReg .mp _)
  case sta => exact (alike_pop o).bind fun _ _ o => (alike_pop o).bind fun _ _ o => alike_memWrite _ _ o
  case stma k n =>
    exact (alike_checkCount 0 n o).bind fun _ _ o => (alike_pop o).bind fun _ _ o => alike_storeMulti _ n _ o
  case stl | sts => exact (alike_pop o).bind fun _ _ o => alike_memWrite _ _ o
  case stml k n | stms k n => exact (alike_checkCount 0 n o).bind fun _ _ o => alike_storeMulti _ n _ o
  case str r => exact (alike_checkReg r o).bind fun x _ o => (alike_pop o).bind fun _ _ o => alike_setReg x _ o
  case swp =>
    exact (alike_memRead _ o).bind fun _ _ o => (alike_memRead _ o).bind fun _ _ o =>
      (alike_memWrite _ _ o).bind fun _ _ o => alike_memWrite _ _ o
  case swpr r =>
    exact (alike_checkReg r o).bind fun x _ o => (alike_memRead _ o).bind fun _ _ o =>
      (alike_memWrite _ _ o).bind fun _ _ o => alike_setReg x _ o
  case swprr r q =>
    exact (alike_checkReg r o).bind fun x _ o => (alike_checkReg q o).bind fun y _ o =>
      alike_setReg y _ (o.setReg x _)
  case unlink => exact (alike_pop (o.setReg .sp _)).bind fun _ _ o => alike_setReg .mp _ o
  case sth =>
    exact (alike_pop o).bind fun _ _ o => (alike_memWrite _ _ o).bind fun _ _ o =>
      alike_push _ ((o.annotate _ _).setReg .hp _)
  case stmh n =>
    exact (alike_checkCount 1 n o).bind fun _ _ o => (alike_takeBlock n o).bind fun us _ o =>
      (alike_writeBlock _ _ _ us o).bind fun _ _ o => alike_markBlock _ _ _ _ o

theorem alike_fetchOperands (n : Nat) (o : Reannotated s) : (fetchOperands n s).Alike (fetchOperands n o.state) := by
  induction n generalizing s with
  | zero => exact .done () s o
  | succ n ih =>
    exact (alike_memRead _ o).bind fun w t o => ih ((o.carry (t := { t with ops := t.ops ++ [w] }) rfl).setReg .pc _)

theorem alike_fetch (o : Reannotated s) : (fetch s).Alike (fetch o.state) := by
  refine (alike_memRead _ o).bind fun w t o => ?_
  dsimp only
  rw [o.advancePc_state_params]
  split
  · exact .stopped (substituteHalt _ w (advancePc t)) ((o.setReg .pc _).carry rfl)
  · exact (alike_fetchOperands _ ((o.setReg .pc _).carry (t := latch _ _ (advancePc t)) rfl)).bind
      fun _ u o => .done _ u o

theorem alike_unknownInstruction (o : Reannotated s) :
    NextAlike (.next (unknownInstruction s)) (.next (unknownInstruction o.state)) := by
  rw [unknownInstruction, unknownInstruction, o.state_ir]
  split
  · exact .next (diag _ s) (o.carry rfl)
  · exact .next s o

theorem alike_resume (p : Prompt) (o : Reannotated s) : NextAlike (.next (resume p s)) (.next (resume p o.state)) := by
  cases p with
  | int => exact (alike_promptInt o).outcome
  | char => exact (alike_promptChar o).outcome
  | charArray => exact (alike_promptCharArray o).outcome

theorem alike_withFetched (o : Reannotated s) :
    NextAlike (withFetched .next exec (fun t => .next (unknownInstruction t)) s)
      (withFetched .next exec (fun t => .next (unknownInstruction t)) o.state) := by
  have h := alike_fetch o
  unfold withFetched
  generalize fetch s = r, fetch o.state = r' at h
  cases h with
  | stopped t o => exact .next t o
  | done i t o =>
    cases i with
    | none => exact alike_unknownInstruction o
    | some i => exact alike_exec i o

theorem alike_step (o : Reannotated s) : NextAlike (step s) (step o.state) := by
  by_cases hs : s.rs = .running
  · cases hw : s.waiting with
    | none => rw [step_of_ready hs hw, step_of_ready (s := o.state) hs hw]; exact alike_withFetched o
    | some p => rw [step_of_waiting hs hw, step_of_waiting (s := o.state) hs hw]; exact alike_resume p o
  · rw [step_of_not_running hs, step_of_not_running (s := o.state) hs]; exact .next s o

end

end Sys2Proof.Machine
end

section
/-! PROOFS. Annotations never influence anything else (O60). -/

namespace Sys2Proof.Machine

open Sys2Proof

/-- Settles O60: steps from states that differ in annotations only end alike (`alike_step`). -/
theorem annotationsNeverMatter : Obligations.AnnotationsNeverMatter := by
  intro s ann
  obtain ⟨t, o, h, h'⟩ := alike_step (s := s) ⟨ann, s.views, rfl⟩
  exact ⟨t, o.ann, o.views, h, h', o.same⟩

end Sys2Proof.Machine
end

section
/-! SUPPORT. The encoding layer: what the lookup, `assemble` and the decoder answer, each said once as an equivalence. -/

namespace Sys2Proof.Machine

open Sys2Proof

/-! ### The lookup (30_encoding.md R75, R87) -/

theorem mem_opcodeTable {m : OpcodeMap} {r : InstrRecord} : r ∈ opcodeTable m ↔ ∃ x, recordOf m x = r := by
  simp [opcodeTable, mem_allMnemonics]

theorem lookup_eq_some_iff {m : OpcodeMap} (hm : m.wellFormed = true) {w : Word} {r : InstrRecord} :
    lookup m w = some r ↔ r ∈ opcodeTable m ∧ r.opcode = w := by
  constructor
  · intro h
    obtain ⟨x, rfl, hw⟩ := lookup_some h
    exact ⟨mem_opcodeTable.2 ⟨x, rfl⟩, hw⟩
  · rintro ⟨hr, rfl⟩
    obtain ⟨x, rfl⟩ := mem_opcodeTable.1 hr
    exact lookup_number hm x

theorem lookup_eq_none {m : OpcodeMap} {w : Word} (h : ∀ x, m.number x ≠ w) : lookup m w = none := by
  cases hl : lookup m w with
  | none => rfl
  | some r =>
    obtain ⟨x, rfl, hw⟩ := lookup_some hl
    exact absurd hw (h x)

/-- Opcode numbers fit in bits 7:0 (R74, R90). -/
theorem number_lt_256 {m : OpcodeMap} (hm : m.wellFormed = true) (x : Mnemonic) : uint (m.number x) < 256 := by
  simp only [OpcodeMap.wellFormed, Bool.and_eq_true, decide_eq_true_eq, List.all_eq_true] at hm
  obtain ⟨⟨hlen, _⟩, hsmall⟩ := hm
  rw [OpcodeMap.number, List.getD_eq_getElem _ _ (hlen ▸ ctorIdx_lt x)]
  exact hsmall _ (List.getElem_mem _)

theorem ushiftRight_eight_eq_zero {w : Word} (h : uint w < 256) : (w >>> 8 : Word) = 0 := by
  apply BitVec.eq_of_toNat_eq
  rw [BitVec.toNat_ushiftRight, Nat.shiftRight_eq_div_pow]
  exact Nat.div_eq_of_lt h

theorem lookup_high_bits {m : OpcodeMap} (hm : m.wellFormed = true) {w : Word} (hw : (w >>> 8 : Word) ≠ 0) :
    lookup m w = none := by
  refine lookup_eq_none fun x hx => hw ?_
  rw [← hx]
  exact ushiftRight_eight_eq_zero (number_lt_256 hm x)

/-! ### The map of this spec (R86) -/

theorem standard_wellFormed : OpcodeMap.standard.wellFormed = true := by decide

theorem recordOf_standard (x : Mnemonic) : recordOf .standard x = rowOf x := by cases x <;> rfl

theorem number_standard (x : Mnemonic) : OpcodeMap.standard.number x = (rowOf x).opcode :=
  congrArg InstrRecord.opcode (recordOf_standard x)

theorem rowOf_opcode_range (x : Mnemonic) : (rowOf x).opcode ≠ 0 ∧ uint (rowOf x).opcode < 0xD9 := by
  cases x <;> decide

/-! ### Mnemonic and operands make the instruction (R74, R79) -/

theorem f0_some {c i : Instr} {ops : List Word} (hc : c.operands = []) (h : f0 c ops = some i) :
    i.mnemonic = c.mnemonic ∧ i.operands = ops := by
  cases ops with
  | nil => obtain rfl := Option.some.inj h; exact ⟨rfl, hc⟩
  | cons => cases h

theorem f1_some {c : Word → Instr} {x : Mnemonic} {i : Instr} {ops : List Word} (hx : ∀ a, (c a).mnemonic = x)
    (hc : ∀ a, (c a).operands = [a]) (h : f1 c ops = some i) : i.mnemonic = x ∧ i.operands = ops := by
  match ops with
  | [a] => obtain rfl := Option.some.inj h; exact ⟨hx a, hc a⟩
  | [] | _ :: _ :: _ => cases h

theorem f2_some {c : Word → Word → Instr} {x : Mnemonic} {i : Instr} {ops : List Word}
    (hx : ∀ a b, (c a b).mnemonic = x) (hc : ∀ a b, (c a b).operands = [a, b]) (h : f2 c ops = some i) :
    i.mnemonic = x ∧ i.operands = ops := by
  match ops with
  | [a, b] => obtain rfl := Option.some.inj h; exact ⟨hx a b, hc a b⟩
  | [] | [_] | _ :: _ :: _ :: _ => cases h

/-- `assemble` is the inverse of taking an instruction apart: one case per format F0, F1, F2 of R74. -/
theorem assemble_eq_some_iff {x : Mnemonic} {ops : List Word} {i : Instr} :
    assemble x ops = some i ↔ i.mnemonic = x ∧ i.operands = ops := by
  constructor
  · intro h
    cases x with
    | add | and | div | mod | mul | or | sub | xor | eq | ne | lt | gt | le | ge | lsl | lsr | rol | ror | cmp | neg | not
    | halt | jsr | nop | ret | swp | unlink | sth => exact f0_some rfl h
    | beq | bne | blt | bgt | ble | bge | adjs | bra | brf | brt | bsr | lda | ldaa | ldc | ldl | ldla | ldr | lds | ldsa
    | link | sta | stl | str | sts | swpr | trap | ldh | stmh => exact f1_some (fun _ => rfl) (fun _ => rfl) h
    | ldma | ldml | ldrr | ldms | stma | stml | stms | swprr | ldmh =>
      exact f2_some (fun _ _ => rfl) (fun _ _ => rfl) h
  · rintro ⟨rfl, rfl⟩
    exact assemble_operands i

/-! ### The decoder (R73, R87) -/

theorem decode_cons_illegal {m : OpcodeMap} {w : Word} (h : lookup m w = none) (ws : List Word) :
    decode m (w :: ws) = .error (.illegalOpcode w) := by
  rw [decode, h]

theorem decode_cons_eq_ok_iff {m : OpcodeMap} {w : Word} {ws rest : List Word} {i : Instr} :
    decode m (w :: ws) = .ok (i, rest) ↔
      ∃ r, lookup m w = some r ∧ assemble r.mnemonic (ws.take r.operandCount) = some i ∧
        ws.drop r.operandCount = rest := by
  cases hl : lookup m w with
  | none => simp [decode, hl]
  | some r => cases ha : assemble r.mnemonic (ws.take r.operandCount) <;> simp [decode, hl, ha]

/-- Whatever decodes is the encoding of what it decodes to, under every opcode map. -/
theorem eq_encode_of_decode {m : OpcodeMap} {ws rest : List Word} {i : Instr} (h : decode m ws = .ok (i, rest)) :
    ws = encode m i ++ rest := by
  cases ws with
  | nil => cases h
  | cons w ws =>
    obtain ⟨r, hl, ha, rfl⟩ := decode_cons_eq_ok_iff.1 h
    obtain ⟨x, rfl, rfl⟩ := lookup_some hl
    obtain ⟨hx, hops⟩ := assemble_eq_some_iff.1 ha
    have hnumber : m.number i.mnemonic = (recordOf m x).opcode := by rw [hx, recordOf_mnemonic, recordOf]
    rw [encode, hnumber, hops, List.cons_append, List.take_append_drop]

/-- An encoding decodes to its instruction, whatever words follow (R88). -/
theorem decode_encode {m : OpcodeMap} (hm : m.wellFormed = true) (i : Instr) (rest : List Word) :
    decode m (encode m i ++ rest) = .ok (i, rest) := by
  rw [encode, List.cons_append, decode_cons_eq_ok_iff]
  refine ⟨_, lookup_number hm i.mnemonic, ?_, ?_⟩
  · rw [recordOf_mnemonic, operandCount_recordOf, List.take_left, assemble_operands]
  · rw [operandCount_recordOf, List.drop_left]

end Sys2Proof.Machine
end

section
/-! PROOFS. The encoding (O1, O2, O3). -/

namespace Sys2Proof.Machine

open Sys2Proof

/-- Settles O1: what decodes is an encoding (`eq_encode_of_decode`), and an encoding decodes to its instruction
(`decode_encode`). -/
theorem decodeInvertsEncode : Obligations.DecodeInvertsEncode := by
  intro m hm ws i rest
  constructor
  · exact eq_encode_of_decode
  · rintro rfl
    exact decode_encode hm i rest

/-- Settles O2: the lookup answers the one row with the word as its number, and every number fits in bits 7:0. -/
theorem lookupComparesTheWholeWord : Obligations.LookupComparesTheWholeWord := by
  refine ⟨fun m hm => ⟨fun w r => lookup_eq_some_iff hm, fun w hw => ?_⟩, standard_wellFormed, fun x => ?_, fun w hw => ?_⟩
  · exact decode_cons_illegal (lookup_high_bits hm hw)
  · rw [← number_standard, lookup_number standard_wellFormed, recordOf_standard]
  · refine lookup_eq_none fun x hx => ?_
    obtain ⟨hne, hlt⟩ := rowOf_opcode_range x
    rw [number_standard] at hx
    subst hx
    exact hw.elim hne (Nat.not_le.2 hlt)

/-- Settles O3 by running the decoder and the TRAP map on the words written out. -/
theorem sampleWordsDecode : Obligations.SampleWordsDecode := by
  constructor
  · decide
  · decide

end Sys2Proof.Machine
end

section
/-! SUPPORT. The stack discipline of the ALU (00_scope.md R13, 40_alu.md R94, R117): some pops, then one push. `Popped` and
`Pushed` say what they did to the state, and `binop` and `unop` end as they say. -/

namespace Sys2Proof.Machine

open Sys2Proof Sys2Proof.Claims

@[simp] theorem fromTop_zero (s : State) : fromTop s 0 = topAddr s := by rw [fromTop, disp_zero, topAddr]

/-! ### Pops -/

theorem Popped.unchanged {sp : Word} {as : List Int} {s t : State} (p : Popped sp as s t) :
    Unchanged [.sp] [] [] s t where
  params := p.params
  regs r hr := p.regs r (by simpa using hr)
  cells a _ := p.cells a
  anns a _ := p.anns a
  ir := p.ir
  ops := p.ops
  ia := p.ia
  rs := p.rs
  waiting := p.waiting
  handles := p.handles
  host := p.host

theorem Popped.disp_add {j : Int} {as : List Int} {s t : State} (p : Popped (disp s .sp j) as s t) (k : Int) :
    disp t .sp k = disp s .sp (j + k) :=
  disp_disp p.sp (congrArg (fun q : Params => q.dir.toInt) p.params) k

/-- The accesses still to come are admitted after the pops as they were before them. -/
theorem Popped.admits {sp : Word} {as bs : List Int} {s t : State} (p : Popped sp as s t)
    (h : s.admits (as ++ bs) = true) : t.admits bs = true := by
  rw [admits_append, Bool.and_eq_true] at h
  rw [admits_congr (s := touchAll as s) (by simp [p.params]) (by simp [p.cap])]
  exact h.2

theorem Popped.capAfter {sp : Word} {as : List Int} {s t : State} (p : Popped sp as s t) (bs : List Int) :
    t.capAfter bs = s.capAfter (as ++ bs) := by
  rw [capAfter_append]
  exact capAfter_congr (by simp [p.params]) (by simp [p.cap]) bs

/-- One more pop. -/
theorem Popped.then_pop {as : List Int} {s t : State} (p : Popped (disp s .sp (-(as.length : Int))) as s t)
    (h : s.admits (as ++ [fromTop s (-(as.length : Int))]) = true) :
    ∃ u, pop t = .done (s.cell (fromTop s (-(as.length : Int)))) u ∧
      Popped (disp s .sp (-(as.length + 1 : Int))) (as ++ [fromTop s (-(as.length : Int))]) s u := by
  have hsp : sint (t.reg .sp) = fromTop s (-(as.length : Int)) := by rw [p.sp, fromTop]
  have hadm := p.admits h
  rw [admits_singleton, ← hsp] at hadm
  obtain ⟨u, hu, q⟩ := pop_popped hadm
  rw [hsp, p.cells] at hu
  have hdisp : disp t .sp (-1) = disp s .sp (-(as.length + 1 : Int)) := by
    rw [p.disp_add]; congr 1; ring
  refine ⟨u, hu, ?_⟩
  have frame := p.unchanged.trans q.unchanged
  constructor
  case sp => rw [q.sp, hdisp]
  case regs => intro r hr; exact frame.regs r (by simpa using hr)
  case cells => intro a; exact frame.cells a (by simp)
  case anns => intro a; exact frame.anns a (by simp)
  case cap => rw [q.cap, hsp, p.capAfter]
  case events =>
    rw [q.events, p.events, List.append_assoc, List.length_append, List.length_singleton, List.length_singleton,
      List.range_succ (n := as.length), List.map_append]
    simp [hdisp, p.sp]
  case params => exact frame.params
  case ir => exact frame.ir
  case ops => exact frame.ops
  case ia => exact frame.ia
  case rs => exact frame.rs
  case waiting => exact frame.waiting
  case handles => exact frame.handles
  case host => exact frame.host

/-- Two pops in a row. -/
theorem pop_pop {s : State} (h : s.admits [topAddr s, fromTop s (-1)] = true) :
    ∃ t u, pop s = .done (s.cell (topAddr s)) t ∧ pop t = .done (s.cell (fromTop s (-1))) u ∧
      Popped (disp s .sp (-2)) [topAddr s, fromTop s (-1)] s u := by
  obtain ⟨htop, _⟩ := Bool.and_eq_true_iff.1 ((admits_cons s _ _).symm.trans h)
  obtain ⟨t, ht, p⟩ := pop_popped htop
  obtain ⟨u, hu, q⟩ := p.then_pop (as := [topAddr s]) h
  exact ⟨t, u, ht, hu, q⟩

/-! ### A push after pops -/

/-- What popping the words at `as` and pushing `v` did, from `s` to `t`. -/
structure Pushed (v : Word) (as : List Int) (s t : State) : Prop where
  sp : t.reg .sp = disp s .sp (1 - as.length)
  cell : t.cell (fromTop s (1 - as.length)) = v
  unchanged : Unchanged [.sp] [fromTop s (1 - as.length)] [] s t
  cap : t.cap = s.capAfter (as ++ [fromTop s (1 - as.length)])
  events : t.events = s.events ++ (popsEvents s as.length ++ pushEvents s as.length)

theorem Popped.then_push {as : List Int} {s t : State} (p : Popped (disp s .sp (-(as.length : Int))) as s t) (v : Word)
    (h : s.admits (as ++ [fromTop s (1 - as.length)]) = true) :
    ∃ u, push v t = .done () u ∧ Pushed v as s u := by
  have hdisp : disp t .sp 1 = disp s .sp (1 - as.length) := by
    rw [p.disp_add]; congr 1; ring
  have haddr : sint (disp t .sp 1) = fromTop s (1 - as.length) := by rw [hdisp, fromTop]
  have hadm := p.admits h
  rw [admits_singleton, ← haddr] at hadm
  have hadm' : (adjust .sp 1 t).admitsAddr (sint (disp t .sp 1)) = true := hadm
  refine ⟨_, push_eq v hadm, ?_⟩
  constructor
  case sp => rw [written_reg, adjust_reg, if_pos rfl, hdisp]
  case cell => rw [← haddr, written_cell v hadm', if_pos rfl]
  case unchanged =>
    rw [← haddr]
    exact (p.unchanged.trans (push_unchanged v hadm)).mono (by simp) (by simp) (by simp)
  case cap =>
    rw [← p.capAfter, written_cap, capAfter_cons, capAfter_nil, haddr, touch_cap, touch_cap, adjust_params, adjust_cap]
  case events =>
    rw [written_events v hadm', adjust_events, adjust_cell, p.cells, p.events, p.sp, haddr, hdisp]
    simp [popsEvents, pushEvents, memEvent]

/-! ### BINOP -/

theorem unchanged_annotate {a : Int} (x : AnnText) (s : State) (h : 0 ≤ a) : Unchanged [] [] [a] s (annotate a x s) where
  params := rfl
  regs _ _ := rfl
  cells _ _ := rfl
  anns b hb := annotate_annotationAt_ne x h (by simpa using hb)
  ir := rfl
  ops := rfl
  ia := rfl
  rs := rfl
  waiting := rfl
  handles := rfl
  host := rfl

/-- A fault raised in `t` is the only effect beyond those from `s` to `t` (60_exceptions.md R196). -/
theorem faultTaken_of_unchanged {f : FaultInfo} {regs : List Reg} {cells : List Int} {s t : State}
    (h : Unchanged regs cells cells s t) : FaultTaken f regs cells s (enterFault f t) :=
  ⟨rfl, by rw [enterFault_host, h.host], { h with rs := rfl, host := rfl }⟩

/-- A BINOP with a result, where no access is refused (R94). -/
theorem binop_some {m : Mnemonic} {f : Word → Word → Option Word} {s : State} {v : Word}
    (h : s.admits [topAddr s, fromTop s (-1), fromTop s (-1)] = true)
    (hf : f (s.cell (fromTop s (-1))) (s.cell (topAddr s)) = some v) :
    ∃ t, binop m f s = .done () (annotate (fromTop s (-1)) (.result m (s.cell (fromTop s (-1))) (s.cell (topAddr s))) t) ∧
      Pushed v [topAddr s, fromTop s (-1)] s t := by
  obtain ⟨hpops, _⟩ := Bool.and_eq_true_iff.1 ((admits_append [topAddr s, fromTop s (-1)] _ s).symm.trans h)
  obtain ⟨t, u, ht, hu, p⟩ := pop_pop hpops
  obtain ⟨w, hw, q⟩ := p.then_push (as := [topAddr s, fromTop s (-1)]) v h
  have hsp : sint (w.reg .sp) = fromTop s (-1) := congrArg sint q.sp
  refine ⟨w, ?_, q⟩
  simp only [binop, ht, hu, hf, hw, bind_done, hsp]

/-- A BINOP without one raises after both pops (R98). -/
theorem binop_none {m : Mnemonic} {f : Word → Word → Option Word} {s : State}
    (h : s.admits [topAddr s, fromTop s (-1)] = true)
    (hf : f (s.cell (fromTop s (-1))) (s.cell (topAddr s)) = none) :
    ∃ u, binop m f s = raise (.divideByZero s.ia) u ∧ Popped (disp s .sp (-2)) [topAddr s, fromTop s (-1)] s u := by
  obtain ⟨t, u, ht, hu, p⟩ := pop_pop h
  refine ⟨u, ?_, p⟩
  simp only [binop, ht, hu, hf, bind_done, p.ia]

/-- The shape of every BINOP: its function gives a result in the relation to the operands. -/
theorem binop_of_exec {i : Instr} {m : Mnemonic} {f : State → Word → Word → Option Word} {ok : Word → Prop}
    {rel : State → Word → Word → Word → Prop} (hexec : ∀ s, exec i s = (binop m (f s) s).outcome)
    (hrel : ∀ s l r, ok r → ∃ v, f s l r = some v ∧ rel s l r v) : Binop i ok rel := by
  intro s h hok
  obtain ⟨v, hf, hv⟩ := hrel s (s.cell (fromTop s (-1))) (s.cell (topAddr s)) hok
  obtain ⟨t, ht, p⟩ := binop_some (m := m) h hf
  have hnonneg : 0 ≤ fromTop s (-1) := ((lt_capAfter h).2 _ (by simp)).1
  refine ⟨annotate _ _ t, (hexec s).trans (congrArg Res.outcome ht), p.sp, ?_, ?_, p.cap, ?_⟩
  · rw [annotate_cell]
    exact (show t.cell (fromTop s (-1)) = v from p.cell) ▸ hv
  · exact (p.unchanged.trans (unchanged_annotate _ t hnonneg)).mono (by simp) (by simp) (by simp)
  · rw [annotate_events, p.events]
    simp [popsEvents, pushEvents, regEvent, List.range_succ]

/-- The same for a function defined on all words. -/
theorem binop_of_total {i : Instr} {m : Mnemonic} {f : State → Word → Word → Word}
    {rel : State → Word → Word → Word → Prop} (hexec : ∀ s, exec i s = (binop m (fun l r => some (f s l r)) s).outcome)
    (hrel : ∀ s l r, rel s l r (f s l r)) : Binop i (fun _ => True) rel :=
  binop_of_exec hexec fun s l r _ => ⟨f s l r, rfl, hrel s l r⟩

theorem binopIs_of_exec {i : Instr} {m : Mnemonic} {f g : Word → Word → Word}
    (hexec : ∀ s, exec i s = (binop m (fun l r => some (f l r)) s).outcome) (hfun : ∀ l r, f l r = g l r) :
    BinopIs i g :=
  binop_of_total hexec fun _ => hfun

/-- A BINOP whose function has no result for the divisor on top faults after both pops. -/
theorem divideByZero_of_exec {i : Instr} {m : Mnemonic} {f : Word → Word → Option Word} {s : State}
    (hexec : exec i s = (binop m f s).outcome) (hf : ∀ l, f l 0 = none)
    (hadm : s.admits [topAddr s, fromTop s (-1)] = true) (hzero : s.cell (topAddr s) = 0) :
    ∃ t, exec i s = .next t ∧ FaultTaken (.divideByZero s.ia) [.sp] [] s t ∧ t.reg .sp = disp s .sp (-2) ∧
      t.cap = s.capAfter [topAddr s, fromTop s (-1)] ∧
      t.events = s.events ++ [regEvent s .sp (disp s .sp (-1)), .reg .sp (disp s .sp (-1)) (disp s .sp (-2))] := by
  obtain ⟨u, hu, p⟩ := binop_none (m := m) (f := f) hadm (by rw [hzero, hf])
  refine ⟨enterFault (.divideByZero s.ia) u, ?_, faultTaken_of_unchanged p.unchanged, p.sp, p.cap, ?_⟩
  · rw [hexec, hu, outcome_raise]
  · rw [enterFault_events, p.events]
    simp [regEvent, List.range_succ]

/-! ### UNOP -/

/-- The shape of every UNOP (R117): SP ends where it was. -/
theorem rewritesTop_of_exec {i : Instr} {f : Word → Word} {g : State → Word → Word}
    (hexec : ∀ s, exec i s = (unop f s).outcome) (hfun : ∀ s v, f v = g s v) : RewritesTop i g := by
  intro s h
  rw [← hfun s]
  obtain ⟨htop, _⟩ := Bool.and_eq_true_iff.1 ((admits_cons s _ _).symm.trans h)
  obtain ⟨t, ht, p⟩ := pop_popped htop
  have haddr : fromTop s (1 - ([topAddr s].length : Int)) = topAddr s := fromTop_zero s
  obtain ⟨u, hu, q⟩ := p.then_push (as := [topAddr s]) (f (s.cell (topAddr s))) (by rw [haddr]; exact h)
  obtain ⟨sp, cell, frame, cap, events⟩ := q
  rw [haddr] at cell frame cap
  refine ⟨u, ?_, cell, ?_, cap, ?_⟩
  · rw [hexec, unop, ht, bind_done]
    exact congrArg Res.outcome hu
  · refine { frame with regs := fun r _ => ?_ }
    by_cases hr : r = .sp
    · rw [hr, sp]; exact disp_zero s .sp
    · exact frame.regs r (by simpa using hr)
  · rw [events]
    simp [popsEvents, pushEvents, regEvent, List.range_succ]

end Sys2Proof.Machine
end

section
/-! SUPPORT. The functions `f(l, r)` of 40_alu.md as operations on bit vectors. -/

namespace Sys2Proof.Machine

open Sys2Proof

/-! ### Arithmetic -/

theorem word_mul (a b : Int) : word (a * b) = word a * word b := BitVec.ofInt_mul a b

theorem aluAdd_eq (l r : Word) : aluAdd l r = l + r := by rw [aluAdd, word_add, word_sint, word_sint]

theorem aluMul_eq (l r : Word) : aluMul l r = l * r := by rw [aluMul, word_mul, word_sint, word_sint]

theorem aluDiv_some {l r : Word} (h : sint r ≠ 0) : aluDiv l r = some (word ((sint l).tdiv (sint r))) := if_neg h

/-- The remainder has the sign of the dividend (R99). -/
theorem aluMod_some {l r : Word} (h : sint r ≠ 0) : aluMod l r = some (word ((sint l).tmod (sint r))) := by
  rw [aluMod, if_neg h, Int.tmod_def, mul_comm]

theorem aluDiv_zero (l : Word) : aluDiv l 0 = none := if_pos rfl

theorem aluMod_zero (l : Word) : aluMod l 0 = none := if_pos rfl

/-! ### Shifts and rotates (R103 to R107) -/

theorem word_natCast (n : Nat) : word n = BitVec.ofNat 32 n := BitVec.ofInt_natCast 32 n

/-- Multiplying by a power of two shifts zeros in from bit 0 (R104). -/
theorem word_uint_mul_two_pow (l : Word) (n : Nat) : word (uint l * 2 ^ n) = l <<< n := by
  have hcast : (uint l * 2 ^ n : Int) = (uint l * 2 ^ n : Nat) := by push_cast; rfl
  apply BitVec.eq_of_toNat_eq
  rw [hcast, word_natCast, BitVec.toNat_ofNat, BitVec.toNat_shiftLeft, Nat.shiftLeft_eq]

/-- Dividing by a power of two shifts zeros in from bit 31 (R105). -/
theorem word_uint_div_two_pow (l : Word) (n : Nat) : word (uint l / 2 ^ n) = l >>> n := by
  have hcast : (uint l / 2 ^ n : Int) = (uint l / 2 ^ n : Nat) := by push_cast; rfl
  have hlt : uint l / 2 ^ n < 2 ^ 32 := (Nat.div_le_self ..).trans_lt l.isLt
  apply BitVec.eq_of_toNat_eq
  rw [hcast, word_natCast, BitVec.toNat_ofNat, BitVec.toNat_ushiftRight, Nat.shiftRight_eq_div_pow,
    Nat.mod_eq_of_lt hlt]

/-- ROL is the rotation of the bit vector, a rotation by 0 included. -/
theorem aluRol_eq (l r : Word) : aluRol l r = l.rotateLeft (uint r) := by
  rw [aluRol, word_uint_mul_two_pow, word_uint_div_two_pow, BitVec.rotateLeft, BitVec.rotateLeftAux, shiftAmount]
  split
  next h => simp [h, BitVec.ushiftRight_eq_zero]
  next => rfl

theorem aluRor_eq (l r : Word) : aluRor l r = l.rotateRight (uint r) := by
  rw [aluRor, word_uint_mul_two_pow, word_uint_div_two_pow, BitVec.rotateRight, BitVec.rotateRightAux, shiftAmount]
  split
  next h => simp [h]
  next => rfl

/-- Bit `j` of a rotation to the left comes from `n` bits below, around the end (R106). -/
theorem getLsbD_rotateLeft_mod (l : Word) (n : Nat) {j : Nat} (hj : j < 32) :
    (l.rotateLeft n).getLsbD j = l.getLsbD (((j : Int) - n % 32) % 32).toNat := by
  have hn : n % 32 < 32 := Nat.mod_lt _ (by decide)
  rw [BitVec.getLsbD_rotateLeft]
  by_cases h : j < n % 32
  · have hindex : (((j : Int) - n % 32) % 32).toNat = 32 - n % 32 + j := by omega
    rw [hindex, decide_eq_true h, cond_true]
  · have hindex : (((j : Int) - n % 32) % 32).toNat = j - n % 32 := by omega
    rw [hindex, decide_eq_false h, cond_false, decide_eq_true hj, Bool.true_and]

/-- Bit `j` of a rotation to the right comes from `n` bits above, around the end (R107). -/
theorem getLsbD_rotateRight_mod (l : Word) (n : Nat) {j : Nat} (hj : j < 32) :
    (l.rotateRight n).getLsbD j = l.getLsbD ((j + n % 32) % 32) := by
  have hn : n % 32 < 32 := Nat.mod_lt _ (by decide)
  rw [BitVec.getLsbD_rotateRight]
  by_cases h : j < 32 - n % 32
  · have hindex : (j + n % 32) % 32 = n % 32 + j := by omega
    rw [hindex, decide_eq_true h, cond_true]
  · have hindex : (j + n % 32) % 32 = j - (32 - n % 32) := by omega
    rw [hindex, decide_eq_false h, cond_false, decide_eq_true hj, Bool.true_and]

/-! ### CMP and NOT -/

/-- Exactly one of the bits LT, EQ and GT (R116): the three cases of the signed order. -/
theorem conditionWord_eq (l r : Word) : conditionWord l r = if sint l < sint r then 1 else if l = r then 2 else 4 := by
  rcases lt_trichotomy (sint l) (sint r) with hlt | heq | hgt
  · have hne : l ≠ r := fun h => hlt.ne (congrArg sint h)
    simp [conditionWord, hlt, hlt.not_gt, hne]
  · obtain rfl := BitVec.toInt_inj.1 heq
    simp [conditionWord]
  · have hne : l ≠ r := fun h => hgt.ne' (congrArg sint h)
    simp [conditionWord, hgt, hgt.not_gt, hne]

/-- The exclusive or with ones everywhere is the complement (R119). -/
theorem aluNot_eq (v : Word) : aluNot v = ~~~v := BitVec.xor_allOnes

end Sys2Proof.Machine
end

section
/-! PROOFS. The ALU (O14 to O21): each instruction is a BINOP or a UNOP (`binop_of_exec`, `binop_of_total`,
`rewritesTop_of_exec`) of a function that the facts above describe. -/

namespace Sys2Proof.Machine

open Sys2Proof Sys2Proof.Claims

/-- Settles O14: the three functions are the model's own. -/
theorem addSubMulWrap : Obligations.AddSubMulWrap :=
  ⟨binopIs_of_exec (fun _ => rfl) fun _ _ => rfl, binopIs_of_exec (fun _ => rfl) fun _ _ => rfl,
    binopIs_of_exec (fun _ => rfl) fun _ _ => rfl⟩

/-- Settles O15: `aluDiv` and `aluMod` give a result exactly for a divisor other than 0. -/
theorem divModDivideOrFault : Obligations.DivModDivideOrFault := by
  refine ⟨⟨?_, ?_⟩, fun s i hi hadm hzero => ?_⟩
  · exact binop_of_exec (fun _ => rfl) fun _ _ _ hr => ⟨_, aluDiv_some hr, rfl⟩
  · exact binop_of_exec (fun _ => rfl) fun _ _ _ hr => ⟨_, aluMod_some hr, rfl⟩
  · rcases hi with rfl | rfl
    · exact divideByZero_of_exec rfl aluDiv_zero hadm hzero
    · exact divideByZero_of_exec rfl aluMod_zero hadm hzero

/-- Settles O16: modulo 2^32 the law is that of integer division. -/
theorem divModReconstructTheDividend : Obligations.DivModReconstructTheDividend := by
  intro l r hr
  refine ⟨_, _, aluDiv_some hr, aluMod_some hr, ?_⟩
  calc aluAdd (aluMul (word ((sint l).tdiv (sint r))) r) (word ((sint l).tmod (sint r)))
      = word ((sint l).tdiv (sint r) * sint r + (sint l).tmod (sint r)) := by
        rw [aluAdd_eq, aluMul_eq, word_add, word_mul, word_sint]
    _ = word (sint l) := by rw [mul_comm, Int.mul_tdiv_add_tmod]
    _ = l := word_sint l

/-- Settles O17: each bit of the three operations. -/
theorem logicIsBitwise : Obligations.LogicIsBitwise :=
  ⟨binop_of_total (fun _ => rfl) fun _ _ _ _ => BitVec.getLsbD_and,
    binop_of_total (fun _ => rfl) fun _ _ _ _ => BitVec.getLsbD_or,
    binop_of_total (fun _ => rfl) fun _ _ _ _ => BitVec.getLsbD_xor⟩

/-- Settles O18: the shifts are the model's own products, and the rotates are rotations of the bit vector. -/
theorem shiftsAndRotatesModulo32 : Obligations.ShiftsAndRotatesModulo32 := by
  refine ⟨⟨?_, ?_⟩, ?_, ?_⟩
  · exact binopIs_of_exec (fun _ => rfl) fun _ _ => rfl
  · exact binopIs_of_exec (fun _ => rfl) fun _ _ => rfl
  · refine binop_of_total (fun _ => rfl) fun _ l r j hj => ?_
    rw [aluRol_eq, getLsbD_rotateLeft_mod l _ hj]
  · refine binop_of_total (fun _ => rfl) fun _ l r j hj => ?_
    rw [aluRor_eq, getLsbD_rotateRight_mod l _ hj]

/-- Settles O19: each comparison is the sentinel of its relation, in the configuration of the state. -/
theorem comparisonsPushSentinels : Obligations.ComparisonsPushSentinels := by
  refine ⟨?_, ?_, ?_, ?_, ?_, ?_⟩
  all_goals exact binop_of_total (fun _ => rfl) fun _ _ _ => rfl

/-- Settles O20. -/
theorem cmpPushesOneConditionBit : Obligations.CmpPushesOneConditionBit :=
  binopIs_of_exec (fun _ => rfl) conditionWord_eq

/-- Settles O21. -/
theorem negNotReplaceTheTop : Obligations.NegNotReplaceTheTop :=
  ⟨rewritesTop_of_exec (fun _ => rfl) fun _ _ => rfl, rewritesTop_of_exec (fun _ => rfl) fun _ v => aluNot_eq v⟩

end Sys2Proof.Machine
end

section
/-! SUPPORT. Control transfer (41_control.md): a jump is one register write, a branch is a jump or nothing (R121), and a
push writes one cell. -/

namespace Sys2Proof.Machine

open Sys2Proof Sys2Proof.Claims

/-! ### One register write -/

theorem Unchanged.refl (s : State) : Unchanged [] [] [] s s := by
  constructor <;> simp

/-- The event of a register write says what the register held. -/
theorem regEvent_congr {s t : State} {r : Reg} (h : t.reg r = s.reg r) (v : Word) : regEvent t r v = regEvent s r v := by
  rw [regEvent, regEvent, h]

theorem unchanged_setReg (r : Reg) (v : Word) (s : State) : Unchanged [r] [] [] s (setReg r v s) := by
  constructor <;> simp +contextual

/-- An instruction that is one register write. -/
theorem writesOneRegister_of_exec {i : Instr} {s : State} {r : Reg} {v : Word} (hexec : exec i s = .next (setReg r v s)) :
    ∃ t, exec i s = .next t ∧ t.reg r = v ∧ Unchanged [r] [] [] s t ∧ t.cap = s.cap ∧
      t.events = s.events ++ [regEvent s r v] :=
  ⟨_, hexec, by rw [setReg_reg, if_pos rfl], unchanged_setReg r v s, setReg_cap r v s, setReg_events r v s⟩

theorem jump_reg_pc (a : Word) (s : State) : (jump a s).reg .pc = a := by rw [jump, setReg_reg, if_pos rfl]

theorem jump_reg_sp (a : Word) (s : State) : (jump a s).reg .sp = s.reg .sp := by
  rw [jump, setReg_reg, if_neg (by decide)]

theorem unchanged_jump (a : Word) (s : State) : Unchanged [.pc] [] [] s (jump a s) := unchanged_setReg .pc a s

theorem jump_events (a : Word) (s : State) : (jump a s).events = s.events ++ [regEvent s .pc a] := setReg_events .pc a s

/-! ### Pushes -/

/-- A push of `v`, where the cell above the top is admitted. -/
theorem push_pushes {s : State} (v : Word) (h : s.admits [fromTop s 1] = true) :
    ∃ t, push v s = .done () t ∧ t.reg .sp = disp s .sp 1 ∧ t.cell (fromTop s 1) = v ∧
      Unchanged [.sp] [fromTop s 1] [] s t ∧ t.cap = s.capAfter [fromTop s 1] ∧
      t.events = s.events ++ [regEvent s .sp (disp s .sp 1), memEvent s (fromTop s 1)] := by
  rw [admits_singleton] at h
  have hadm : (adjust .sp 1 s).admitsAddr (fromTop s 1) = true := h
  refine ⟨_, push_eq v h, ?_, ?_, push_unchanged v h, ?_, ?_⟩
  · rw [written_reg, adjust_reg, if_pos rfl]
  · exact (written_cell v hadm _).trans (if_pos rfl)
  · rw [written_cap, capAfter_cons, capAfter_nil, touch_cap, touch_cap, adjust_params, adjust_cap]; rfl
  · exact (written_events v hadm).trans (by rw [adjust_events, List.append_assoc]; rfl)

/-- A push right after a pop writes the popped cell, and SP ends where it was. -/
theorem Popped.push_back {s t : State} (p : Popped (disp s .sp (-1)) [topAddr s] s t) (v : Word)
    (h : s.admits [topAddr s, topAddr s] = true) :
    ∃ u, push v t = .done () u ∧ u.cell (topAddr s) = v ∧ Unchanged [] [topAddr s] [] s u ∧
      u.cap = s.capAfter [topAddr s, topAddr s] ∧
      u.events = s.events ++
        [regEvent s .sp (disp s .sp (-1)), .reg .sp (disp s .sp (-1)) (s.reg .sp), memEvent s (topAddr s)] := by
  have haddr : fromTop s (1 - ([topAddr s].length : Int)) = topAddr s := fromTop_zero s
  obtain ⟨u, hu, sp, cell, frame, cap, events⟩ := p.then_push (as := [topAddr s]) v (by rw [haddr]; exact h)
  rw [haddr] at cell frame cap
  refine ⟨u, hu, cell, { frame with regs := fun r _ => ?_ }, cap, ?_⟩
  · by_cases hr : r = .sp
    · rw [hr, sp]; exact disp_zero s .sp
    · exact frame.regs r (by simpa using hr)
  · rw [events]
    simp [popsEvents, pushEvents, regEvent, List.range_succ]

/-! ### Branches -/

theorem branchIf_reg_sp (b : Bool) (k : Word) (s : State) : (branchIf b k s).reg .sp = s.reg .sp := by
  cases b with
  | true => exact jump_reg_sp _ s
  | false => rfl

theorem branchIf_reg_pc (b : Bool) (k : Word) (s : State) :
    (branchIf b k s).reg .pc = if b then branchTarget s k else s.reg .pc := by
  cases b with
  | true => exact jump_reg_pc _ s
  | false => rfl

theorem branchIf_cap (b : Bool) (k : Word) (s : State) : (branchIf b k s).cap = s.cap := by
  cases b <;> rfl

theorem unchanged_branchIf (b : Bool) (k : Word) (s : State) : Unchanged [.pc] [] [] s (branchIf b k s) := by
  cases b with
  | true => exact unchanged_jump _ s
  | false => exact (Unchanged.refl s).mono (by simp) (by simp) (by simp)

theorem branchIf_events (b : Bool) (k : Word) (s : State) :
    (branchIf b k s).events = s.events ++ if b then [regEvent s .pc (branchTarget s k)] else [] := by
  cases b with
  | true => exact jump_events _ s
  | false => exact (List.append_nil _).symm

/-- The shape of every conditional branch: a pop, then a branch on a condition of the popped word and the
configuration. -/
theorem branchesOn_of_exec {i : Instr} {k : Word} {cond : Params → Word → Bool}
    (hexec : ∀ s, exec i s = ((pop s).bind fun w u => .done () (branchIf (cond u.params w) k u)).outcome) :
    BranchesOn i k fun s w => cond s.params w := by
  intro s h
  rw [admits_singleton] at h
  obtain ⟨u, hu, p⟩ := pop_popped h
  have hpc : u.reg .pc = s.reg .pc := p.regs .pc (by decide)
  have htarget : branchTarget u k = word (sint (s.reg .pc) + sint k) := by rw [branchTarget, hpc]
  refine ⟨branchIf (cond s.params (s.cell (topAddr s))) k u, ?_, ?_, ?_, ?_, ?_, ?_⟩
  · rw [hexec, hu, bind_done, p.params, outcome_done, topAddr]
  · rw [branchIf_reg_sp, p.sp]
  · rw [branchIf_reg_pc, htarget, hpc]
  · exact p.unchanged.trans (unchanged_branchIf _ k u)
  · rw [branchIf_cap, p.cap, topAddr]
  · rw [branchIf_events, p.events, htarget, regEvent_congr hpc]
    simp [regEvent]

/-- A popped word matches a mask iff they share a set bit (R128). -/
theorem conditionMatches_eq (w : Word) (mask : BitVec 3) :
    conditionMatches w mask = (w &&& mask.zeroExtend 32 != 0) := by
  rw [conditionMatches, bne, decide_not]
  rfl

/-- A BRCC branches on its mask as a word. -/
theorem branchesOn_mask_of_exec {i : Instr} {k mask : Word} {x : Mnemonic}
    (hexec : ∀ s, exec i s = (brcc (conditionMaskOf x) k s).outcome) (hmask : (conditionMaskOf x).zeroExtend 32 = mask) :
    BranchesOn i k fun _ w => w &&& mask != 0 := by
  simp only [← hmask, ← conditionMatches_eq]
  exact branchesOn_of_exec (cond := fun _ w => conditionMatches w (conditionMaskOf x)) hexec

/-! ### Branches on the word of CMP -/

/-- The word of CMP shares a bit with each mask of R86 exactly where the relation of that mask holds (R129 to R134). -/
theorem conditionWord_masks (l r : Word) :
    (conditionWord l r &&& 0b010 != 0) = decide (l = r) ∧ (conditionWord l r &&& 0b101 != 0) = decide (l ≠ r) ∧
      (conditionWord l r &&& 0b001 != 0) = decide (sint l < sint r) ∧
      (conditionWord l r &&& 0b100 != 0) = decide (sint l > sint r) ∧
      (conditionWord l r &&& 0b011 != 0) = decide (sint l ≤ sint r) ∧
      (conditionWord l r &&& 0b110 != 0) = decide (sint l ≥ sint r) := by
  rw [conditionWord_eq]
  rcases lt_trichotomy (sint l) (sint r) with hlt | heq | hgt
  · have hne : l ≠ r := fun h => hlt.ne (congrArg sint h)
    simp [hlt, hlt.le, hne]
  · obtain rfl := BitVec.toInt_inj.1 heq
    simp
  · have hne : l ≠ r := fun h => hgt.ne' (congrArg sint h)
    simp [hgt, hgt.not_gt, hgt.not_ge, hgt.le, hne]

/-- What CMP did, from `s` to `t`, as far as a branch that follows can see it. -/
structure Compared (s t : State) : Prop where
  sp : t.reg .sp = disp s .sp (-1)
  pc : t.reg .pc = s.reg .pc
  dir : t.dir = s.dir
  top : t.cell (topAddr t) = conditionWord (s.cell (fromTop s (-1))) (s.cell (topAddr s))
  admits : t.admits [topAddr t] = true

/-- CMP leaves its word on top, and the cell it wrote can be read. -/
theorem cmp_compared {s : State} (h : s.admits [topAddr s, fromTop s (-1), fromTop s (-1)] = true) :
    ∃ t, exec .cmp s = .next t ∧ Compared s t := by
  obtain ⟨t, ht, hsp, hcell, frame, hcap, -⟩ := binopIs_of_exec (i := .cmp) (fun _ => rfl) (fun _ _ => rfl) s h trivial
  have htop : topAddr t = fromTop s (-1) := by rw [topAddr, hsp, fromTop]
  obtain ⟨hnonneg, hlt⟩ := (lt_capAfter h).2 (fromTop s (-1)) (by simp)
  refine ⟨t, ht, hsp, frame.regs .pc (by simp), congrArg (fun q : Params => q.dir.toInt) frame.params, ?_, ?_⟩
  · rw [htop]; exact hcell
  · rw [admits_singleton, admitsAddr_iff, htop, hcap]
    omega

/-- A branch after CMP goes by the bits that its mask and CMP's word share. -/
theorem Compared.branch {s t : State} (c : Compared s t) {i : Instr} {k mask : Word} {rel : Bool}
    (hbranch : BranchesOn i k fun _ w => w &&& mask != 0)
    (hrel : (conditionWord (s.cell (fromTop s (-1))) (s.cell (topAddr s)) &&& mask != 0) = rel) :
    ∃ u, exec i t = .next u ∧ u.reg .sp = disp s .sp (-2) ∧
      u.reg .pc = if rel then word (sint (s.reg .pc) + sint k) else s.reg .pc := by
  obtain ⟨u, hu, hsp, hpc, -⟩ := hbranch t c.admits
  refine ⟨u, hu, hsp.trans (disp_disp c.sp c.dir (-1)), ?_⟩
  simp only [hpc, c.top, hrel, c.pc]

end Sys2Proof.Machine
end

section
/-! PROOFS. Control transfer (O22 to O28). -/

namespace Sys2Proof.Machine

open Sys2Proof Sys2Proof.Claims

/-- Settles O22: both are one register write. -/
theorem braAndAdjsWriteOneRegister : Obligations.BraAndAdjsWriteOneRegister :=
  ⟨fun _ _ => writesOneRegister_of_exec rfl, fun _ _ => writesOneRegister_of_exec rfl⟩

/-- Settles O23: a pop and a branch each (`branchesOn_of_exec`), with the masks of R86. -/
theorem conditionalBranchesPopAndBranch : Obligations.ConditionalBranchesPopAndBranch := by
  refine ⟨fun k => ⟨?_, ?_⟩, fun k => ⟨?_, ?_, ?_, ?_, ?_, ?_⟩⟩
  · exact branchesOn_of_exec (cond := isFalse) fun _ => rfl
  · exact branchesOn_of_exec (cond := fun p w => !isFalse p w) fun _ => rfl
  all_goals exact branchesOn_mask_of_exec (fun _ => rfl) rfl

/-- Settles O24: CMP's word is on top (`cmp_compared`), and each mask picks its relation (`conditionWord_masks`). -/
theorem cmpThenBrccBranchesOnTheRelation : Obligations.CmpThenBrccBranchesOnTheRelation := by
  intro s k h l r
  obtain ⟨t, ht, c⟩ := cmp_compared h
  obtain ⟨beq, bne, blt, bgt, ble, bge⟩ := conditionalBranchesPopAndBranch.2 k
  obtain ⟨req, rne, rlt, rgt, rle, rge⟩ := conditionWord_masks l r
  refine ⟨t, ht, ?_⟩
  simp only [List.forall_mem_cons]
  exact ⟨c.branch beq req, c.branch bne rne, c.branch blt rlt, c.branch bgt rgt, c.branch ble rle, c.branch bge rge,
    fun _ hp => absurd hp List.not_mem_nil⟩

/-- Settles O25: the push, then the jump, whose target does not see the push. -/
theorem bsrPushesNextAndJumps : Obligations.BsrPushesNextAndJumps := by
  intro s k h
  obtain ⟨t, ht, hsp, hcell, frame, hcap, hevents⟩ := push_pushes (s.reg .pc) h
  have hpc : t.reg .pc = s.reg .pc := frame.regs .pc (by simp)
  have htarget : branchTarget t k = word (sint (s.reg .pc) + sint k) := by rw [branchTarget, hpc]
  refine ⟨jump (branchTarget t k) t, ?_, ?_, ?_, hcell, ?_, hcap, ?_⟩
  · change ((push (s.reg .pc) s).bind _).outcome = _
    rw [ht, bind_done, outcome_done]
  · rw [jump_reg_pc, htarget]
  · rw [jump_reg_sp, hsp]
  · exact (frame.trans (unchanged_jump _ t)).mono (by simp) (by simp) (by simp)
  · rw [jump_events, hevents, htarget, regEvent_congr hpc, List.append_assoc]
    rfl

/-- JSR (R126): the pop, the push back into the popped cell, the jump. -/
theorem jsr_jumps {s : State} (h : s.admits [topAddr s, topAddr s] = true) :
    ∃ t, exec .jsr s = .next t ∧ t.reg .pc = s.cell (topAddr s) ∧ t.cell (topAddr s) = s.reg .pc ∧
      Unchanged [.pc] [topAddr s] [] s t ∧ t.cap = s.capAfter [topAddr s, topAddr s] ∧
      t.events = s.events ++ [regEvent s .sp (disp s .sp (-1)), .reg .sp (disp s .sp (-1)) (s.reg .sp),
        memEvent s (topAddr s), regEvent s .pc (s.cell (topAddr s))] := by
  obtain ⟨htop, -⟩ := Bool.and_eq_true_iff.1 ((admits_cons s _ _).symm.trans h)
  obtain ⟨t, ht, p⟩ := pop_popped htop
  have htpc : t.reg .pc = s.reg .pc := p.regs .pc (by decide)
  obtain ⟨u, hu, hcell, frame, hcap, hevents⟩ := p.push_back (s.reg .pc) h
  refine ⟨jump (s.cell (topAddr s)) u, ?_, jump_reg_pc _ u, hcell, ?_, hcap, ?_⟩
  · change ((pop s).bind _).outcome = _
    rw [ht, bind_done, htpc, hu, bind_done, outcome_done, topAddr]
  · exact (frame.trans (unchanged_jump _ u)).mono (by simp) (by simp) (by simp)
  · rw [jump_events, hevents, regEvent_congr (frame.regs .pc (by simp)), List.append_assoc]
    rfl

/-- RET (R127): the pop, then the jump. -/
theorem ret_jumps {s : State} (h : s.admits [topAddr s] = true) :
    ∃ t, exec .ret s = .next t ∧ t.reg .pc = s.cell (topAddr s) ∧ t.reg .sp = disp s .sp (-1) ∧
      Unchanged [.sp, .pc] [] [] s t ∧ t.cap = s.capAfter [topAddr s] ∧
      t.events = s.events ++ [regEvent s .sp (disp s .sp (-1)), regEvent s .pc (s.cell (topAddr s))] := by
  rw [admits_singleton] at h
  obtain ⟨t, ht, p⟩ := pop_popped h
  refine ⟨jump (s.cell (topAddr s)) t, ?_, jump_reg_pc _ t, (jump_reg_sp _ t).trans p.sp, ?_, p.cap, ?_⟩
  · change ((pop s).bind _).outcome = _
    rw [ht, bind_done, outcome_done, topAddr]
  · exact p.unchanged.trans (unchanged_jump _ t)
  · rw [jump_events, p.events, regEvent_congr (p.regs .pc (by decide))]
    simp [regEvent]

/-- Settles O26. -/
theorem jsrAndRetJumpToThePoppedAddress : Obligations.JsrAndRetJumpToThePoppedAddress :=
  ⟨fun _ => jsr_jumps, fun _ => ret_jumps⟩

/-- Settles O27: the RET pops the cell that the BSR pushed, and its pop undoes the push's step of SP. -/
theorem retReturnsBehindTheBsr : Obligations.RetReturnsBehindTheBsr := by
  intro s t u k hpush hbsr hparams hsp hcell hpop
  obtain ⟨t', ht, -, htsp, htcell, frame, -⟩ := bsrPushesNextAndJumps s k hpush
  obtain rfl : t' = t := Host.Outcome.next.inj (ht.symm.trans hbsr)
  obtain ⟨w, hw, hwpc, hwsp, -⟩ := ret_jumps hpop
  have htop : topAddr t' = fromTop s 1 := by rw [topAddr, htsp, fromTop]
  have hdir : u.dir = s.dir := congrArg (fun q : Params => q.dir.toInt) (hparams.trans frame.params)
  refine ⟨w, hw, ?_, ?_⟩
  · calc w.reg .pc = u.cell (topAddr t') := by rw [hwpc, topAddr, hsp, topAddr]
      _ = s.reg .pc := by rw [hcell, htop, htcell]
  · calc w.reg .sp = disp s .sp (1 + -1) := hwsp.trans (disp_disp (hsp.trans htsp) hdir (-1))
      _ = s.reg .sp := disp_zero s .sp

/-- Settles O28: NOP's next state is its own, and HALT's is `diag .halted (halt s)`. -/
theorem nopAndHalt : Obligations.NopAndHalt := by
  refine ⟨fun _ => rfl, rfl, fun s => ⟨diag .halted (halt s), rfl, halt_rs s, ⟨rfl, ?_⟩, rfl, rfl⟩⟩
  constructor <;> simp

end Sys2Proof.Machine
end

section
/-! SUPPORT. What an instruction of 42_load_store.md does before its first write to memory: `ReadPhase` says how far it
has come, and the rules under it say what a read, a pop, a register write and the first write to memory add. -/

namespace Sys2Proof.Machine

open Sys2Proof Sys2Proof.Claims

/-- From `s` to `t` an instruction made the accesses `as`, sent the events `evs`, left SP at `q`, and wrote no cell. -/
structure ReadPhase (q : Word) (as : List Int) (evs : List ChangeEvent) (s t : State) : Prop where
  sp : t.reg .sp = q
  unchanged : Unchanged [.sp] [] [] s t
  cap : t.cap = s.capAfter as
  events : t.events = s.events ++ evs

theorem ReadPhase.start (s : State) : ReadPhase (s.reg .sp) [] [] s s where
  sp := rfl
  unchanged := (Unchanged.refl s).mono (by simp) (by simp) (by simp)
  cap := rfl
  events := (List.append_nil _).symm

theorem Popped.readPhase {sp : Word} {as : List Int} {s t : State} (p : Popped sp as s t) :
    ReadPhase sp as (popsEvents s as.length) s t where
  sp := p.sp
  unchanged := p.unchanged
  cap := p.cap
  events := p.events

/-- The first of the accesses that are not refused. -/
theorem admits_of_append {s : State} {as bs : List Int} (h : s.admits (as ++ bs) = true) : s.admits as = true := by
  rw [admits_append, Bool.and_eq_true] at h
  exact h.1

/-- One pop, with its event. -/
theorem pop_readPhase {s : State} (h : s.admits [topAddr s] = true) :
    ∃ t, pop s = .done (s.cell (topAddr s)) t ∧
      ReadPhase (disp s .sp (-1)) [topAddr s] [regEvent s .sp (disp s .sp (-1))] s t := by
  rw [admits_singleton] at h
  obtain ⟨t, ht, p⟩ := pop_popped h
  have hevents : popsEvents s 1 = [regEvent s .sp (disp s .sp (-1))] := by simp [popsEvents, regEvent]
  exact ⟨t, ht, hevents ▸ p.readPhase⟩

section
variable {q : Word} {as : List Int} {evs : List ChangeEvent} {s t : State}

theorem ReadPhase.dir (p : ReadPhase q as evs s t) : t.dir = s.dir :=
  congrArg (fun x : Params => x.dir.toInt) p.unchanged.params

theorem ReadPhase.cells (p : ReadPhase q as evs s t) : t.cell = s.cell :=
  funext fun a => p.unchanged.cells a List.not_mem_nil

/-- The accesses still to come are refused or not as they were before the ones made. -/
theorem ReadPhase.admits_append (p : ReadPhase q as evs s t) (bs : List Int) :
    s.admits (as ++ bs) = (s.admits as && t.admits bs) := by
  have hafter : t.admits bs = (Machine.touchAll as s).admits bs :=
    admits_congr (by simp [p.unchanged.params]) (by simp [p.cap]) bs
  rw [Machine.admits_append, hafter]

theorem ReadPhase.admits (p : ReadPhase q as evs s t) {bs : List Int} (h : s.admits (as ++ bs) = true) :
    t.admits bs = true := by
  rw [p.admits_append, Bool.and_eq_true] at h
  exact h.2

/-- After accesses that are not refused, the next one is where the accesses with it are. -/
theorem ReadPhase.refused (p : ReadPhase q as evs s t) {a : Int} (h : s.admits as = true)
    (hr : s.admits (as ++ [a]) = false) : t.admitsAddr a = false := by
  rwa [p.admits_append, h, Bool.true_and, admits_singleton] at hr

theorem ReadPhase.capAfter (p : ReadPhase q as evs s t) (bs : List Int) : t.capAfter bs = s.capAfter (as ++ bs) := by
  rw [capAfter_append]
  exact capAfter_congr (by simp [p.unchanged.params]) (by simp [p.cap]) bs

/-! ### What reads and register writes add -/

theorem ReadPhase.touchAll (p : ReadPhase q as evs s t) (bs : List Int) :
    ReadPhase q (as ++ bs) evs s (touchAll bs t) where
  sp := by rw [touchAll_reg, p.sp]
  unchanged := by
    have htouch : Unchanged [] [] [] t (Machine.touchAll bs t) := by constructor <;> simp
    exact p.unchanged.trans htouch
  cap := by rw [touchAll_cap, p.capAfter]
  events := by rw [touchAll_events, p.events]

theorem ReadPhase.setSp (p : ReadPhase q as evs s t) (v : Word) :
    ReadPhase v as (evs ++ [.reg .sp q v]) s (setReg .sp v t) where
  sp := by rw [setReg_reg, if_pos rfl]
  unchanged := (p.unchanged.trans (unchanged_setReg .sp v t)).mono (by simp) (by simp) (by simp)
  cap := by rw [setReg_cap, p.cap]
  events := by rw [setReg_events, p.events, p.sp, List.append_assoc]

/-- `MemRead`, where it is not refused. -/
theorem ReadPhase.memRead (p : ReadPhase q as evs s t) {a : Int} (h : s.admits (as ++ [a]) = true) :
    ∃ u, memRead a t = .done (s.cell a) u ∧ ReadPhase q (as ++ [a]) evs s u := by
  have hadm := p.admits h
  rw [admits_singleton] at hadm
  exact ⟨touch a t, by rw [memRead_eq hadm, p.cells], p.touchAll [a]⟩

/-! ### The first write to memory -/

/-- `MemWrite`, where it is not refused. -/
theorem ReadPhase.memWrite (p : ReadPhase q as evs s t) {a : Int} (v : Word) (h : s.admits (as ++ [a]) = true) :
    ∃ u, memWrite a v t = .done () u ∧ u.reg .sp = q ∧ u.cell a = v ∧ Unchanged [.sp] [a] [] s u ∧
      u.cap = s.capAfter (as ++ [a]) ∧ u.events = s.events ++ (evs ++ [memEvent s a]) := by
  have hadm := p.admits h
  rw [admits_singleton] at hadm
  refine ⟨written a v t, memWrite_eq v hadm, ?_, ?_, ?_, ?_, ?_⟩
  · rw [written_reg, p.sp]
  · rw [written_cell v hadm, if_pos rfl]
  · exact p.unchanged.trans (unchanged_written v hadm)
  · rw [← p.capAfter, capAfter_cons, capAfter_nil, written_cap]
  · rw [written_events v hadm, p.events, p.cells, List.append_assoc, memEvent]

/-- `Push(v)`, where SP is at a displaced address: SP moves one word on and the word is written there. -/
theorem ReadPhase.push {j : Int} (p : ReadPhase (disp s .sp j) as evs s t) (v : Word)
    (h : s.admits (as ++ [fromTop s (j + 1)]) = true) :
    ∃ u, push v t = .done () u ∧ u.reg .sp = disp s .sp (j + 1) ∧ u.cell (fromTop s (j + 1)) = v ∧
      Unchanged [.sp] [fromTop s (j + 1)] [] s u ∧ u.cap = s.capAfter (as ++ [fromTop s (j + 1)]) ∧
      u.events = s.events ++
        (evs ++ [.reg .sp (disp s .sp j) (disp s .sp (j + 1))] ++ [memEvent s (fromTop s (j + 1))]) := by
  have hdisp : disp t .sp 1 = disp s .sp (j + 1) := disp_disp p.sp p.dir 1
  have moved := p.setSp (disp s .sp (j + 1))
  have hpush : Machine.push v t = Machine.memWrite (fromTop s (j + 1)) v (setReg .sp (disp s .sp (j + 1)) t) := by
    rw [Machine.push, adjust, hdisp, moved.sp, fromTop]
  rw [hpush]
  exact moved.memWrite v h

/-- What writing the words `vs` at `dst` added to a read phase. -/
structure BlockStored (q : Word) (as dst : List Int) (vs : List Word) (evs : List ChangeEvent) (s u : State) :
    Prop where
  sp : u.reg .sp = q
  stored : ∀ i (h : i < dst.length) (h' : i < vs.length), u.cell dst[i] = vs[i]
  unchanged : Unchanged [.sp] dst dst s u
  cap : u.cap = s.capAfter (as ++ dst)
  events : u.events = s.events ++ (evs ++ dst.map (memEvent s))

theorem Wrote.unchanged {dst : List Int} {vs : List Word} (w : Wrote dst vs s t) : Unchanged [] dst dst s t where
  params := w.params
  regs r _ := congrArg (regsGet · r) w.regs
  cells := w.others
  anns := w.anns
  ir := w.ir
  ops := w.ops
  ia := w.ia
  rs := w.rs
  waiting := w.waiting
  handles := w.handles
  host := w.host

theorem ReadPhase.wrote (p : ReadPhase q as evs s t) {u : State} {dst : List Int} {vs : List Word}
    (w : Wrote dst vs t u) : BlockStored q as dst vs evs s u where
  sp := (w.unchanged.regs .sp List.not_mem_nil).trans p.sp
  stored := w.stored
  unchanged := p.unchanged.trans w.unchanged
  cap := by rw [w.cap, p.capAfter]
  events := by
    rw [w.events, p.events, p.cells, List.append_assoc]
    rfl

end

end Sys2Proof.Machine
end

section
/-! PROOFS. Loads and stores of one word (O29, O30, O31). -/

namespace Sys2Proof.Machine

open Sys2Proof Sys2Proof.Claims

/-- The shape of LDC, LDSA and LDLA: one push of a word of the state before it. -/
theorem pushesWord_of_exec {i : Instr} {v : State → Word} (hexec : ∀ s, exec i s = (push (v s) s).outcome) :
    PushesWord i v := by
  intro s h
  obtain ⟨t, ht, hsp, hcell, frame, hcap, hevents⟩ := push_pushes (v s) h
  rw [admits_singleton] at h
  have hwritten : t = written (fromTop s 1) (v s) (adjust .sp 1 s) := by
    have := ht.symm.trans (push_eq (v s) h)
    cases this
    rfl
  refine ⟨t, by rw [hexec, ht, outcome_done], hsp, hcell, frame, hcap, hevents, ?_⟩
  rw [hwritten]
  exact push_views (fromTop s 1) (v s) s

/-- The shape of LDS and LDL: a read, then the push of the word read. -/
theorem pushesCell_of_exec {i : Instr} {src : State → Int}
    (hexec : ∀ s, exec i s = ((memRead (src s) s).bind fun v u => push v u).outcome) : PushesCell i src := by
  intro s h
  have start := ReadPhase.start s
  rw [← disp_zero s .sp] at start
  obtain ⟨u, hu, p⟩ := start.memRead (admits_of_append (as := [src s]) h)
  obtain ⟨t, ht, hsp, hcell, frame, hcap, hevents⟩ := p.push (s.cell (src s)) h
  refine ⟨t, by rw [hexec, hu, bind_done, ht, outcome_done], hsp, hcell, frame, hcap, ?_⟩
  rw [hevents, disp_zero]
  rfl

/-- Settles O29: each is one push (`pushesWord_of_exec`) or a read and a push (`pushesCell_of_exec`). -/
theorem constantAndCellLoadsPush : Obligations.ConstantAndCellLoadsPush := by
  refine ⟨fun k => ⟨pushesWord_of_exec fun s => ?_, ?_, ?_⟩, fun k => ⟨?_, ?_⟩⟩
  · change (push (word (sint k)) s).outcome = _
    rw [word_sint]
  · exact pushesWord_of_exec fun _ => rfl
  · exact pushesWord_of_exec fun _ => rfl
  · exact pushesCell_of_exec fun _ => rfl
  · exact pushesCell_of_exec fun _ => rfl

/-- The shape of STS and STL: a pop, then the write at an address computed before it. -/
theorem popsInto_of_exec {i : Instr} {dst : State → Int}
    (hexec : ∀ s, exec i s = ((pop s).bind fun v u => memWrite (dst s) v u).outcome) : PopsInto i dst := by
  intro s h
  obtain ⟨t, ht, p⟩ := pop_readPhase (admits_of_append h)
  obtain ⟨u, hu, stored⟩ := p.memWrite (s.cell (topAddr s)) h
  exact ⟨u, by rw [hexec, ht, bind_done, hu, outcome_done], stored⟩

/-- STA (R152): two pops, then the write at the address popped first, displaced. -/
theorem sta_stores {s : State} {k : Word}
    (h : s.admits [topAddr s, fromTop s (-1), addr (sint (s.cell (topAddr s)) + sint k * s.dir)] = true) :
    ∃ u, exec (.sta k) s = .next u ∧ u.reg .sp = disp s .sp (-2) ∧
      u.cell (addr (sint (s.cell (topAddr s)) + sint k * s.dir)) = s.cell (fromTop s (-1)) ∧
      Unchanged [.sp] [addr (sint (s.cell (topAddr s)) + sint k * s.dir)] [] s u ∧
      u.cap = s.capAfter [topAddr s, fromTop s (-1), addr (sint (s.cell (topAddr s)) + sint k * s.dir)] ∧
      u.events = s.events ++ [regEvent s .sp (disp s .sp (-1)), .reg .sp (disp s .sp (-1)) (disp s .sp (-2)),
        memEvent s (addr (sint (s.cell (topAddr s)) + sint k * s.dir))] := by
  obtain ⟨t, t', ht, ht', popped⟩ := pop_pop (admits_of_append (as := [topAddr s, fromTop s (-1)]) h)
  have p := popped.readPhase
  obtain ⟨u, hu, hsp, hcell, frame, hcap, hevents⟩ := p.memWrite (s.cell (fromTop s (-1))) h
  refine ⟨u, ?_, hsp, hcell, frame, hcap, ?_⟩
  · change ((pop s).bind _).outcome = _
    rw [ht, bind_done, ht', bind_done, p.dir, hu, outcome_done]
  · rw [hevents]
    simp [popsEvents, regEvent, List.range_succ]

/-- Settles O30: one pop and one write (`popsInto_of_exec`), and STA's two pops before the write (`sta_stores`). -/
theorem singleWordStoresPopIntoTheCell : Obligations.SingleWordStoresPopIntoTheCell :=
  ⟨fun _ => ⟨popsInto_of_exec fun _ => rfl, popsInto_of_exec fun _ => rfl⟩, fun _ _ => sta_stores⟩

/-- The shape of LDA and LDH: a pop, a read through the popped word, and the push back of the word read. -/
theorem loadsThroughTop_of_exec {i : Instr} {src : State → Word → Int}
    (hexec : ∀ s, exec i s = ((pop s).bind fun a u => (memRead (src u a) u).bind fun v u => push v u).outcome)
    (hsrc : ∀ s u a, u.dir = s.dir → src u a = src s a) : LoadsThroughTop i src := by
  intro s h
  have haddr : fromTop s (-1 + 1) = topAddr s := fromTop_zero s
  have hread := admits_of_append (as := [topAddr s, src s (s.cell (topAddr s))]) h
  obtain ⟨t, ht, p⟩ := pop_readPhase (admits_of_append hread)
  obtain ⟨t', ht', p'⟩ := p.memRead hread
  obtain ⟨u, hu, hsp, hcell, frame, hcap, hevents⟩ :=
    p'.push (s.cell (src s (s.cell (topAddr s)))) (by rw [haddr]; exact h)
  rw [haddr] at hcell frame hcap hevents
  have hsp : u.reg .sp = s.reg .sp := hsp.trans (disp_zero s .sp)
  refine ⟨u, ?_, hcell, { frame with regs := fun r _ => ?_ }, hcap, ?_⟩
  · rw [hexec, ht, bind_done, hsrc s t _ p.dir, ht', bind_done, hu, outcome_done]
  · by_cases hr : r = .sp
    · rw [hr, hsp]
    · exact frame.regs r (by simpa using hr)
  · rw [hevents, show disp s .sp (-1 + 1) = s.reg .sp from disp_zero s .sp]
    rfl

/-- LDAA (R154): the pop, and the push back of the displaced address. -/
theorem ldaa_rewritesTop (k : Word) : RewritesTop (.ldaa k) fun s a => word (sint a + sint k * s.dir) := by
  intro s h
  obtain ⟨t, ht, p⟩ := pop_popped ((admits_singleton s _).symm.trans (admits_of_append (as := [topAddr s]) h))
  obtain ⟨u, hu, pushed⟩ := p.push_back (word (sint (s.cell (topAddr s)) + sint k * s.dir)) h
  refine ⟨u, ?_, pushed⟩
  change ((pop s).bind _).outcome = _
  rw [ht, bind_done, p.readPhase.dir]
  exact congrArg Res.outcome hu

/-- Settles O31: a pop and a push back, with a read between them in LDA and LDH. -/
theorem loadsThroughTheTopReplaceIt : Obligations.LoadsThroughTheTopReplaceIt := by
  refine ⟨fun k => ⟨?_, ?_⟩, ldaa_rewritesTop⟩
  · exact loadsThroughTop_of_exec (fun _ => rfl) fun s u a hdir => by rw [hdir]
  · exact loadsThroughTop_of_exec (fun _ => rfl) fun _ _ _ _ => rfl

end Sys2Proof.Machine
end

section
/-! SUPPORT. Block copies (42_load_store.md R139): `LoadMulti` and `StoreMulti` are one copy, which reads a block, moves
SP once, and writes the block elsewhere; what it does where no access is refused and where one is. -/

namespace Sys2Proof.Machine

open Sys2Proof Sys2Proof.Claims

/-- Reads `n` words from `src` on, `stride` apart, moves SP to `sp`, and writes the words from `dst` on, one step of DIR
apart. -/
def copyBlock (src stride dst : Int) (sp : Word) (n : Nat) (m : Mnemonic) (s : State) : Res Unit :=
  (readBlock src stride n s).bind fun vs u => writeBlock dst s.dir (some (.copied m)) vs (setReg .sp sp u)

/-! ### The two block operations are copies -/

/-- Reading a block reads all its words, or it is refused. -/
theorem readBlock_cases (b stride : Int) (n : Nat) (s : State) :
    readBlock b stride n s = .done ((blockAddrs b stride n).map s.cell) (touchAll (blockAddrs b stride n) s) ∨
      ∃ t, readBlock b stride n s = .stopped t := by
  induction n generalizing b s with
  | zero => exact .inl (readBlock_eq (admits_nil s))
  | succ n ih =>
    cases h : s.admitsAddr (addr b) with
    | false => exact .inr ⟨_, by rw [readBlock, memRead_refused h, bind_raise]; rfl⟩
    | true =>
      rw [readBlock, memRead_eq h, bind_done, blockAddrs_succ]
      rcases ih (b + stride) (touch (addr b) s) with hread | ⟨t, hstop⟩
      · rw [hread]
        exact .inl (by simp)
      · rw [hstop]
        exact .inr ⟨t, rfl⟩

theorem loadMulti_eq_copyBlock {n : Word} (hn : 0 ≤ sint n) (b stride : Int) (m : Mnemonic) (s : State) :
    loadMulti b stride n m s =
      copyBlock b stride (sint (s.reg .sp) + s.dir) (word (sint (s.reg .sp) + sint n * s.dir)) (sint n).toNat m s := by
  unfold loadMulti copyBlock
  rcases readBlock_cases b stride (sint n).toNat s with h | ⟨t, h⟩
  · simp [h, putBlock, Int.toNat_of_nonneg hn]
  · rw [h, bind_stopped, bind_stopped]

theorem storeMulti_eq_copyBlock (b : Int) (n : Word) (m : Mnemonic) (s : State) :
    storeMulti b n m s =
      copyBlock (sint (s.reg .sp) - (sint n - 1) * s.dir) s.dir b (word (sint (s.reg .sp) - sint n * s.dir))
        (sint n).toNat m s := by
  unfold storeMulti copyBlock takeBlock
  rcases readBlock_cases (sint (s.reg .sp) - (sint n - 1) * s.dir) s.dir (sint n).toNat s with h | ⟨t, h⟩
  · simp [h]
  · simp [h]

/-! ### A copy after a read phase -/

theorem take_blockAddrs (b stride : Int) {j n : Nat} (h : j ≤ n) :
    (blockAddrs b stride n).take j = blockAddrs b stride j := by
  rw [blockAddrs, ← List.map_take, List.take_range, min_eq_left h, blockAddrs]

section
variable {q sp : Word} {as : List Int} {evs : List ChangeEvent} {s t : State} {src stride dst : Int} {m : Mnemonic}

/-- The copied words stand in the cells written, as they were before. -/
theorem BlockStored.copied {n : Nat} {step : Int}
    (w : BlockStored q as (blockAddrs dst step n) ((blockAddrs src stride n).map s.cell) evs s t) {j : Nat}
    (hj : j < n) : t.cell (addr (dst + j * step)) = s.cell (addr (src + j * stride)) := by
  have hstored := w.stored j (by simpa using hj) (by simpa using hj)
  rwa [List.getElem_map, getElem_blockAddrs, getElem_blockAddrs] at hstored

/-- The words read, SP moved, and the words not yet written. -/
theorem ReadPhase.blockRead (p : ReadPhase q as evs s t) {n : Nat}
    (h : s.admits (as ++ blockAddrs src stride n) = true) :
    ∃ u, copyBlock src stride dst sp n m t =
        writeBlock dst s.dir (some (.copied m)) ((blockAddrs src stride n).map s.cell) u ∧
      ReadPhase sp (as ++ blockAddrs src stride n) (evs ++ [.reg .sp q sp]) s u :=
  ⟨_, by rw [copyBlock, readBlock_eq (p.admits h), bind_done, p.cells, p.dir], (p.touchAll _).setSp sp⟩

theorem ReadPhase.copyBlock (p : ReadPhase q as evs s t) {n : Nat} (hn : n ≤ 2 ^ 32)
    (h : s.admits (as ++ blockAddrs src stride n ++ blockAddrs dst s.dir n) = true) :
    ∃ u, copyBlock src stride dst sp n m t = .done () u ∧
      BlockStored sp (as ++ blockAddrs src stride n) (blockAddrs dst s.dir n) ((blockAddrs src stride n).map s.cell)
        (evs ++ [.reg .sp q sp]) s u := by
  obtain ⟨v, hv, p'⟩ := p.blockRead (dst := dst) (sp := sp) (m := m) (admits_of_append h)
  have hlength : ((blockAddrs src stride n).map s.cell).length = n := by simp
  obtain ⟨u, hu, w⟩ := writeBlock_wrote (b := dst) (stride := s.dir) (x := some (.copied m))
    (vs := (blockAddrs src stride n).map s.cell) (s := v) (by rw [hlength]; exact p'.admits h)
    (by rw [hlength]; exact blockAddrs_nodup (dir_eq _) hn)
  rw [hlength] at w
  exact ⟨u, hv.trans hu, p'.wrote w⟩

/-- Where the read of word `j` is refused, the copy stops in the read phase. -/
theorem ReadPhase.copyBlock_readRefused (p : ReadPhase q as evs s t) {j n : Nat} (hj : j < n)
    (h : s.admits (as ++ blockAddrs src stride j) = true)
    (hr : s.admits (as ++ blockAddrs src stride j ++ [addr (src + j * stride)]) = false) :
    ∃ u, Machine.copyBlock src stride dst sp n m t = raise (.addressFault (addr (src + j * stride)) s.ia) u ∧
      ReadPhase q (as ++ blockAddrs src stride j) evs s u := by
  have p' := p.touchAll (blockAddrs src stride j)
  refine ⟨_, ?_, p'⟩
  rw [Machine.copyBlock, readBlock_refused hj (p.admits h) (p'.refused h hr), bind_raise, p.unchanged.ia]

/-- Where the write of word `j` is refused, the words before it are copied. -/
theorem ReadPhase.copyBlock_writeRefused (p : ReadPhase q as evs s t) {j n : Nat} (hj : j < n) (hn : n ≤ 2 ^ 32)
    (h : s.admits (as ++ blockAddrs src stride n ++ blockAddrs dst s.dir j) = true)
    (hr : s.admits (as ++ blockAddrs src stride n ++ blockAddrs dst s.dir j ++ [addr (dst + j * s.dir)]) = false) :
    ∃ u, Machine.copyBlock src stride dst sp n m t = raise (.addressFault (addr (dst + j * s.dir)) s.ia) u ∧
      BlockStored sp (as ++ blockAddrs src stride n) (blockAddrs dst s.dir j) ((blockAddrs src stride j).map s.cell)
        (evs ++ [.reg .sp q sp]) s u := by
  obtain ⟨v, hv, p'⟩ := p.blockRead (dst := dst) (sp := sp) (m := m) (admits_of_append h)
  obtain ⟨u, hu, w⟩ := writeBlock_refused (b := dst) (stride := s.dir) (x := some (.copied m))
    (vs := (blockAddrs src stride n).map s.cell) (s := v) (by simpa using hj) (p'.admits h)
    (blockAddrs_nodup (dir_eq _) (by omega)) ((p'.touchAll _).refused h hr)
  rw [← List.map_take, take_blockAddrs src stride hj.le] at w
  exact ⟨u, by rw [hv, hu, p'.unchanged.ia], p'.wrote w⟩

end

/-! ### The instructions that copy a block -/

/-- For a count of at least 0 the instruction goes on, after a pop if `popped`, with `rest`, which may look back at the
state before the pop. -/
def StartsBlock (i : Instr) (popped : Bool) (n : Word) (rest : State → State → Res Unit) : Prop :=
  ∀ s : State, 0 ≤ sint n → s.admits (popAccess popped s) = true →
    ∃ t, ReadPhase (spAfterPop popped s) (popAccess popped s) (popEvents popped s) s t ∧
      exec i s = (rest s t).outcome

/-- The same, where the rest is a copy; all it copies from and to is said of the state before the pop. -/
def CopiesBlock (i : Instr) (popped : Bool) (src stride dst : State → Int) (sp : State → Word) (n : Word)
    (m : Mnemonic) : Prop :=
  StartsBlock i popped n fun s t => copyBlock (src s) (stride s) (dst s) (sp s) (sint n).toNat m t

section
variable {i : Instr} {n : Word} {popped : Bool} {m : Mnemonic}

theorem startsBlock_of_exec {rest : State → State → Res Unit}
    (hexec : ∀ s, exec i s = ((checkCount 0 n s).bind fun _ u => rest u u).outcome) : StartsBlock i false n rest :=
  fun s hn _ => ⟨s, .start s, by rw [hexec, checkCount_ok s hn, bind_done]⟩

theorem startsBlock_of_exec_pop {next : Word → State → Res Unit} {rest : State → State → Res Unit}
    (hexec : ∀ s, exec i s = ((checkCount 0 n s).bind fun _ u => (pop u).bind next).outcome)
    (hrest : ∀ s t, t.dir = s.dir → next (s.cell (topAddr s)) t = rest s t) : StartsBlock i true n rest := by
  intro s hn h
  obtain ⟨t, ht, p⟩ := pop_readPhase h
  exact ⟨t, p, by rw [hexec, checkCount_ok s hn, bind_done, ht, bind_done, hrest s t p.dir]⟩

/-- The rest may be written in any way that agrees where SP and the direction are as after the pop. -/
theorem StartsBlock.congr {rest rest' : State → State → Res Unit} (h : StartsBlock i popped n rest)
    (hrest : ∀ s t, 0 ≤ sint n → t.reg .sp = spAfterPop popped s → t.dir = s.dir → rest s t = rest' s t) :
    StartsBlock i popped n rest' := by
  intro s hn hadm
  obtain ⟨t, p, hexec⟩ := h s hn hadm
  exact ⟨t, p, hrest s t hn p.sp p.dir ▸ hexec⟩

theorem StartsBlock.loads {base stride : State → Int}
    (h : StartsBlock i popped n fun s t => loadMulti (base s) (stride s) n m t) :
    CopiesBlock i popped base stride (fun s => sint (spAfterPop popped s) + s.dir)
      (fun s => word (sint (spAfterPop popped s) + sint n * s.dir)) n m :=
  h.congr fun _ _ hn hsp hdir => by rw [loadMulti_eq_copyBlock hn, hsp, hdir]

theorem StartsBlock.stores {base : State → Int} (h : StartsBlock i popped n fun s t => storeMulti (base s) n m t) :
    CopiesBlock i popped (fun s => sint (spAfterPop popped s) - (sint n - 1) * s.dir) State.dir base
      (fun s => word (sint (spAfterPop popped s) - sint n * s.dir)) n m :=
  h.congr fun _ _ _ hsp hdir => by rw [storeMulti_eq_copyBlock, hsp, hdir]

variable {src stride dst : State → Int} {sp : State → Word}

/-- The copy where no access is refused. -/
theorem CopiesBlock.copies (c : CopiesBlock i popped src stride dst sp n m) {s : State} (hn : 0 ≤ sint n)
    (h : s.admits (popAccess popped s ++ blockAddrs (src s) (stride s) (sint n).toNat ++
      blockAddrs (dst s) s.dir (sint n).toNat) = true) :
    ∃ u, exec i s = .next u ∧
      BlockStored (sp s) (popAccess popped s ++ blockAddrs (src s) (stride s) (sint n).toNat)
        (blockAddrs (dst s) s.dir (sint n).toNat) ((blockAddrs (src s) (stride s) (sint n).toNat).map s.cell)
        (popEvents popped s ++ [.reg .sp (spAfterPop popped s) (sp s)]) s u := by
  have hrange := sint_range n
  obtain ⟨t, p, hexec⟩ := c s hn (admits_of_append (admits_of_append h))
  obtain ⟨u, hu, w⟩ := p.copyBlock (sp := sp s) (m := m) (by omega) h
  exact ⟨u, hexec.trans (congrArg Res.outcome hu), w⟩

/-- A refused read: no word is written, and SP is as after the pop (60_exceptions.md R196). -/
theorem CopiesBlock.readStops (c : CopiesBlock i popped src stride dst sp n m) :
    BlockReadStops i popped src stride n := by
  intro s j hj h hr
  obtain ⟨t, p, hexec⟩ := c s (by omega) (admits_of_append h)
  obtain ⟨u, hu, p'⟩ := p.copyBlock_readRefused (dst := dst s) (sp := sp s) (m := m) hj h hr
  exact ⟨_, hexec.trans (congrArg Res.outcome hu), faultTaken_of_unchanged p'.unchanged, p'.sp, p'.cap, p'.events⟩

/-- A refused write: SP stays moved, and the words before it stay written (R196). -/
theorem CopiesBlock.writeStops (c : CopiesBlock i popped src stride dst sp n m) :
    BlockWriteStops i popped src stride dst State.dir sp n := by
  intro s j hj done a h hr
  have hrange := sint_range n
  obtain ⟨t, p, hexec⟩ := c s (by omega) (admits_of_append (admits_of_append h))
  obtain ⟨u, hu, w⟩ := p.copyBlock_writeRefused (sp := sp s) (m := m) hj (by omega) h hr
  refine ⟨_, hexec.trans (congrArg Res.outcome hu), faultTaken_of_unchanged w.unchanged, w.sp,
    fun k hk => w.copied hk, w.cap, _, w.events, ?_⟩
  rw [List.append_assoc]
  exact .refl _

theorem CopiesBlock.stops (c : CopiesBlock i popped src stride dst sp n m) :
    BlockReadStops i popped src stride n ∧ BlockWriteStops i popped src stride dst State.dir sp n :=
  ⟨c.readStops, c.writeStops⟩

/-- A copy onto the stack is the shape of the block loads. -/
theorem CopiesBlock.loadsBlock
    (c : CopiesBlock i popped src stride (fun s => sint (spAfterPop popped s) + s.dir)
      (fun s => word (sint (spAfterPop popped s) + sint n * s.dir)) n m) : LoadsBlock i popped src stride n := by
  intro s hn q srcAddrs dstAddrs h
  obtain ⟨u, hu, w⟩ := c.copies hn h
  refine ⟨u, hu, w.sp, fun j hj => w.copied hj, w.unchanged, w.cap, _, w.events, ?_⟩
  rw [List.append_assoc]
  exact .refl _

/-- A copy from the stack is the shape of the block stores. -/
theorem CopiesBlock.storesBlock
    (c : CopiesBlock i popped (fun s => sint (spAfterPop popped s) - (sint n - 1) * s.dir) State.dir dst
      (fun s => word (sint (spAfterPop popped s) - sint n * s.dir)) n m) : StoresBlock i popped dst n := by
  intro s hn q srcAddrs dstAddrs h
  obtain ⟨u, hu, w⟩ := c.copies hn h
  refine ⟨u, hu, w.sp, fun j hj => ?_, w.unchanged, w.cap, _, w.events, ?_⟩
  · have hsource : sint q - (sint n - 1 - j) * s.dir = sint q - (sint n - 1) * s.dir + j * s.dir := by ring
    rw [hsource]
    exact w.copied hj
  · rw [List.append_assoc]
    exact .refl _

end

end Sys2Proof.Machine
end

section
/-! PROOFS. Block loads and block stores (O32, O33): each instruction is `LoadMulti` or `StoreMulti` behind its count
check and its pop, hence a copy of a block. -/

namespace Sys2Proof.Machine

open Sys2Proof Sys2Proof.Claims

theorem ldms_starts (k n : Word) :
    StartsBlock (.ldms k n) false n fun s t => loadMulti (sint (disp s .sp (sint k))) s.dir n .ldms t :=
  startsBlock_of_exec fun _ => rfl

theorem ldml_starts (k n : Word) :
    StartsBlock (.ldml k n) false n fun s t => loadMulti (sint (disp s .mp (sint k))) s.dir n .ldml t :=
  startsBlock_of_exec fun _ => rfl

theorem ldma_starts (k n : Word) :
    StartsBlock (.ldma k n) true n fun s t =>
      loadMulti (sint (s.cell (topAddr s)) + sint k * s.dir) s.dir n .ldma t :=
  startsBlock_of_exec_pop (fun _ => rfl) fun _ _ hdir => by rw [hdir]

theorem ldmh_starts (k n : Word) :
    StartsBlock (.ldmh k n) true n fun s t => loadMulti (sint (s.cell (topAddr s)) + sint k) 1 n .ldmh t :=
  startsBlock_of_exec_pop (fun _ => rfl) fun _ _ _ => rfl

theorem stms_starts (k n : Word) :
    StartsBlock (.stms k n) false n fun s t => storeMulti (sint (disp s .sp (sint k))) n .stms t :=
  startsBlock_of_exec fun _ => rfl

theorem stml_starts (k n : Word) :
    StartsBlock (.stml k n) false n fun s t => storeMulti (sint (disp s .mp (sint k))) n .stml t :=
  startsBlock_of_exec fun _ => rfl

theorem stma_starts (k n : Word) :
    StartsBlock (.stma k n) true n fun s t => storeMulti (sint (s.cell (topAddr s)) + sint k * s.dir) n .stma t :=
  startsBlock_of_exec_pop (fun _ => rfl) fun _ _ hdir => by rw [hdir]

/-- Settles O32: each of the four is a copy onto the stack (`StartsBlock.loads`). -/
theorem blockLoadsCopyOntoTheStack : Obligations.BlockLoadsCopyOntoTheStack := by
  refine ⟨fun k n => ⟨(ldms_starts k n).loads.loadsBlock, (ldml_starts k n).loads.loadsBlock⟩,
    fun k n => ⟨(ldma_starts k n).loads.loadsBlock, (ldmh_starts k n).loads.loadsBlock⟩, fun k n => ?_⟩
  simp only [List.forall_mem_cons]
  exact ⟨(ldms_starts k n).loads.stops, (ldml_starts k n).loads.stops, (ldma_starts k n).loads.stops,
    (ldmh_starts k n).loads.stops, fun _ hp => absurd hp List.not_mem_nil⟩

/-- Settles O33: each of the three is a copy from the stack (`StartsBlock.stores`). -/
theorem stmsStmlStmaMoveABlock : Obligations.StmsStmlStmaMoveABlock := by
  refine fun k n => ⟨(stms_starts k n).stores.storesBlock, (stml_starts k n).stores.storesBlock,
    (stma_starts k n).stores.storesBlock, ?_⟩
  simp only [List.forall_mem_cons]
  exact ⟨(stms_starts k n).stores.stops, (stml_starts k n).stores.stops, (stma_starts k n).stores.stops,
    fun _ hp => absurd hp List.not_mem_nil⟩

end Sys2Proof.Machine
end

section
/-! SUPPORT. Register moves, swaps and frames (43_register_frame.md): the pseudocode behind the register checks, frames in
which SP moves and comes back, and accesses behind other accesses. -/

namespace Sys2Proof.Machine

open Sys2Proof Sys2Proof.Claims

/-! ### The instructions, where their operands name registers -/

theorem exec_ldr (x : Reg) (s : State) : exec (.ldr (regWord x)) s = (push (s.reg x) s).outcome :=
  congrArg Res.outcome (checkReg_regWord_bind x s _)

theorem exec_str (x : Reg) (s : State) :
    exec (.str (regWord x)) s = ((pop s).bind fun v u => .done () (setReg x v u)).outcome :=
  congrArg Res.outcome (checkReg_regWord_bind x s _)

theorem exec_swpr (x : Reg) (s : State) :
    exec (.swpr (regWord x)) s = ((memRead (topAddr s) s).bind fun w t =>
      (memWrite (topAddr t) (t.reg x) t).bind fun _ u => .done () (setReg x w u)).outcome :=
  congrArg Res.outcome (checkReg_regWord_bind x s _)

theorem exec_ldrr (x y : Reg) (s : State) : exec (.ldrr (regWord x) (regWord y)) s = .next (setReg x (s.reg y) s) := by
  change ((checkReg (regWord x) s).bind _).outcome = _
  rw [checkReg_regWord_bind, checkReg_regWord_bind, outcome_done]

theorem exec_swprr (x y : Reg) (s : State) :
    exec (.swprr (regWord x) (regWord y)) s = .next (setReg y (s.reg x) (setReg x (s.reg y) s)) := by
  change ((checkReg (regWord x) s).bind _).outcome = _
  rw [checkReg_regWord_bind, checkReg_regWord_bind, outcome_done]

/-- The address expression of SWP's second word is the word under the top. -/
theorem addr_topAddr_sub_dir (s : State) : addr (topAddr s - s.dir) = fromTop s (-1) := by
  rw [fromTop, disp, neg_one_mul, ← sub_eq_add_neg]
  rfl

theorem exec_swp (s : State) :
    exec .swp s = ((memRead (topAddr s) s).bind fun v t => (memRead (fromTop s (-1)) t).bind fun w u =>
      (memWrite (topAddr s) w u).bind fun _ u' => memWrite (fromTop s (-1)) v u').outcome := by
  rw [← addr_topAddr_sub_dir]
  rfl

/-! ### SP and the displaced addresses -/

theorem ReadPhase.reg {q : Word} {as : List Int} {evs : List ChangeEvent} {s t : State} (p : ReadPhase q as evs s t)
    (x : Reg) : t.reg x = if x = .sp then q else s.reg x := by
  split_ifs with hx
  · rw [hx, p.sp]
  · exact p.unchanged.regs x (by simpa using hx)

/-- Registers that end as they were need no mention in a frame. -/
theorem Unchanged.of_regs_eq {regs : List Reg} {cells anns : List Int} {s t : State} (h : Unchanged regs cells anns s t)
    (hregs : ∀ r ∈ regs, t.reg r = s.reg r) : Unchanged [] cells anns s t :=
  { h with regs := fun r _ => (Decidable.em (r ∈ regs)).elim (hregs r) (h.regs r) }

theorem Unchanged.dir {regs : List Reg} {cells anns : List Int} {s t : State} (h : Unchanged regs cells anns s t) :
    t.dir = s.dir := congrArg (fun q : Params => q.dir.toInt) h.params

/-- A register write moves the displaced addresses of its own register only. -/
theorem disp_setReg_of_ne {r x : Reg} (h : x ≠ r) (v : Word) (s : State) (k : Int) :
    disp (setReg r v s) x k = disp s x k :=
  disp_congr (by rw [setReg_reg, if_neg h]) (setReg_dir r v s) k

/-- One pop more, where it is not refused. -/
theorem ReadPhase.pop {q : Word} {as : List Int} {evs : List ChangeEvent} {s t : State} (p : ReadPhase q as evs s t)
    (h : s.admits (as ++ [sint q]) = true) :
    ∃ u, pop t = .done (s.cell (sint q)) u ∧
      ReadPhase (word (sint q + -1 * s.dir)) (as ++ [sint q]) (evs ++ [.reg .sp q (word (sint q + -1 * s.dir))]) s u := by
  obtain ⟨u, hu, p'⟩ := p.memRead h
  have hdisp : disp u .sp (-1) = word (sint q + -1 * s.dir) := by rw [disp, p'.sp, p'.dir]
  refine ⟨_, ?_, p'.setSp _⟩
  rw [Machine.pop, p.sp, hu, bind_done, adjust, hdisp]

/-! ### Accesses behind others -/

/-- What is admitted behind the accesses `as` is admitted in any state whose capacity they left. -/
theorem admits_of_capAfter {as bs : List Int} {s t : State} (h : s.admits (as ++ bs) = true) (hp : t.params = s.params)
    (hc : t.cap = s.capAfter as) : t.admits bs = true := by
  rw [admits_append, Bool.and_eq_true] at h
  rw [admits_congr (s := touchAll as s) (by simp [hp]) (by simp [hc])]
  exact h.2

/-- What was accessed can be accessed again. -/
theorem admits_again {as bs : List Int} {s t : State} (h : s.admits as = true) (hc : t.cap = s.capAfter as)
    (hbs : bs ⊆ as) : t.admits bs = true :=
  (touchAll_of_lt fun a ha => hc ▸ (lt_capAfter h).2 a (hbs ha)).1

/-- The two top words stand in different cells, in either direction of growth. -/
theorem fromTop_neg_one_ne_topAddr (s : State) : fromTop s (-1) ≠ topAddr s := by
  intro h
  have htop : topAddr s = addr (sint (s.reg .sp)) := (addr_sint_add _).symm
  have hdir : s.dir = 1 ∨ s.dir = -1 := dir_eq s.params.dir
  have hclose : |sint (s.reg .sp) + -1 * s.dir - sint (s.reg .sp)| < 2 ^ 32 := by
    rcases hdir with hd | hd <;> rw [hd] <;> norm_num
  have := addr_inj_of_close (h.trans htop) hclose
  omega

end Sys2Proof.Machine
end

section
/-! PROOFS. Register moves and swaps (O34, O35, O36). -/

namespace Sys2Proof.Machine

open Sys2Proof Sys2Proof.Claims

/-- Settles O34: LDR is one push, LDRR one register write, SWPRR two; the event of the second write gives what `y` held
at first, also where the first write was to `y`. -/
theorem ldrLdrrSwprrMoveRegisters : Obligations.LdrLdrrSwprrMoveRegisters := by
  refine ⟨fun x => pushesWord_of_exec (exec_ldr x), fun s x y => ⟨writesOneRegister_of_exec (exec_ldrr x y s), ?_⟩⟩
  have hold : (setReg x (s.reg y) s).reg y = s.reg y := by rw [setReg_reg, ite_self]
  refine ⟨_, exec_swprr x y s, ?_, ?_, (unchanged_setReg x _ s).trans (unchanged_setReg y _ _), rfl, ?_⟩
  · rw [setReg_reg, setReg_reg, if_pos rfl]
    split_ifs with hxy
    · rw [hxy]
    · rfl
  · rw [setReg_reg, if_pos rfl]
  · rw [setReg_events, setReg_events, hold, List.append_assoc]
    rfl

/-- STR (R161): the pop, then the register write, which is the last word on SP too. -/
theorem str_pops {s : State} (x : Reg) (h : s.admits [topAddr s] = true) :
    ∃ t, exec (.str (regWord x)) s = .next t ∧ t.reg x = s.cell (topAddr s) ∧
      (x ≠ .sp → t.reg .sp = disp s .sp (-1)) ∧ Unchanged [.sp, x] [] [] s t ∧ t.cap = s.capAfter [topAddr s] ∧
      t.events = s.events ++ [regEvent s .sp (disp s .sp (-1)),
        .reg x (if x = .sp then disp s .sp (-1) else s.reg x) (s.cell (topAddr s))] := by
  obtain ⟨t, ht, p⟩ := pop_readPhase h
  refine ⟨setReg x (s.cell (topAddr s)) t, ?_, ?_, fun hx => ?_, p.unchanged.trans (unchanged_setReg x _ t), p.cap, ?_⟩
  · rw [exec_str, ht, bind_done, outcome_done]
  · rw [setReg_reg, if_pos rfl]
  · rw [setReg_reg, if_neg hx.symm, p.sp]
  · rw [setReg_events, p.events, p.reg, List.append_assoc]
    rfl

/-- SWPR (R163): a read and a write of the top cell, then the register write. -/
theorem swpr_exchanges {s : State} (x : Reg) (h : s.admits [topAddr s, topAddr s] = true) :
    ∃ t, exec (.swpr (regWord x)) s = .next t ∧ t.reg x = s.cell (topAddr s) ∧ t.cell (topAddr s) = s.reg x ∧
      Unchanged [x] [topAddr s] [] s t ∧ t.cap = s.capAfter [topAddr s, topAddr s] ∧
      t.events = s.events ++ [memEvent s (topAddr s), regEvent s x (s.cell (topAddr s))] := by
  obtain ⟨t, ht, p⟩ := (ReadPhase.start s).memRead (admits_of_append (as := [topAddr s]) h)
  have hx : t.reg x = s.reg x := (p.unchanged.of_regs_eq (List.forall_mem_singleton.2 p.sp)).regs x List.not_mem_nil
  have htop : topAddr t = topAddr s := congrArg sint p.sp
  obtain ⟨u, hu, hsp, hcell, frame, hcap, hevents⟩ := p.memWrite (s.reg x) h
  have frame := frame.of_regs_eq (List.forall_mem_singleton.2 hsp)
  refine ⟨setReg x (s.cell (topAddr s)) u, ?_, ?_, hcell, frame.trans (unchanged_setReg x _ u), hcap, ?_⟩
  · rw [exec_swpr, ht, bind_done, htop, hx, hu, bind_done, outcome_done]
  · rw [setReg_reg, if_pos rfl]
  · rw [setReg_events, hevents, frame.regs x List.not_mem_nil, List.append_assoc]
    rfl

/-- Settles O35: STR and SWPR end in the register write of the old top word (`str_pops`, `swpr_exchanges`). -/
theorem strSwprMoveTheTopWord : Obligations.StrSwprMoveTheTopWord :=
  fun _ x => ⟨str_pops x, swpr_exchanges x⟩

/-- SWP (R162): two reads, then two writes; the second write meets its cell as it was, since the cells differ. -/
theorem swp_exchanges {s : State} (h : s.admits [topAddr s, fromTop s (-1), topAddr s, fromTop s (-1)] = true) :
    ∃ t, exec .swp s = .next t ∧ t.cell (topAddr s) = s.cell (fromTop s (-1)) ∧
      t.cell (fromTop s (-1)) = s.cell (topAddr s) ∧ Unchanged [] [topAddr s, fromTop s (-1)] [] s t ∧
      t.cap = s.capAfter [topAddr s, fromTop s (-1), topAddr s, fromTop s (-1)] ∧
      t.events = s.events ++ [memEvent s (topAddr s), memEvent s (fromTop s (-1))] := by
  have hne := fromTop_neg_one_ne_topAddr s
  have h3 := admits_of_append (as := [topAddr s, fromTop s (-1), topAddr s]) h
  have h2 := admits_of_append (as := [topAddr s, fromTop s (-1)]) h3
  obtain ⟨t₁, ht₁, p₁⟩ := (ReadPhase.start s).memRead (admits_of_append (as := [topAddr s]) h2)
  obtain ⟨t₂, ht₂, p₂⟩ := p₁.memRead h2
  obtain ⟨u, hu, hsp, hcell, frame, hcap, hevents⟩ := p₂.memWrite (s.cell (fromTop s (-1))) h3
  have frame := frame.of_regs_eq (List.forall_mem_singleton.2 hsp)
  have hkept : u.cell (fromTop s (-1)) = s.cell (fromTop s (-1)) := frame.cells _ (by simpa using hne)
  have hadm := admits_of_capAfter h frame.params hcap
  rw [admits_singleton] at hadm
  refine ⟨written (fromTop s (-1)) (s.cell (topAddr s)) u, ?_, ?_, ?_, frame.trans (unchanged_written _ hadm), ?_, ?_⟩
  · rw [exec_swp, ht₁, bind_done, ht₂, bind_done, hu, bind_done, memWrite_eq _ hadm, outcome_done]
  · rw [written_cell _ hadm, if_neg hne.symm, hcell]
  · rw [written_cell _ hadm, if_pos rfl]
  · rw [written_cap, touch_cap, frame.params, hcap]
    rfl
  · rw [written_events _ hadm, hevents, hkept, List.append_assoc]
    rfl

/-- Settles O36: the first SWP's accesses are admitted again, and the second exchanges the same two cells. -/
theorem swpExchangesTheTopWords : Obligations.SwpExchangesTheTopWords := by
  intro s h
  obtain ⟨t, ht, htop, hsecond, frame, hcap, hevents⟩ := swp_exchanges h
  have htopAddr : topAddr t = topAddr s := congrArg sint (frame.regs .sp List.not_mem_nil)
  have hsecondAddr : fromTop t (-1) = fromTop s (-1) :=
    congrArg sint (disp_congr (frame.regs .sp List.not_mem_nil) frame.dir (-1))
  have hagain := admits_again h hcap (List.Subset.refl _)
  rw [← htopAddr, ← hsecondAddr] at hagain
  obtain ⟨u, hu, hutop, husecond, uframe, -⟩ := swp_exchanges hagain
  rw [htopAddr, hsecondAddr] at hutop husecond uframe
  refine ⟨t, ht, htop, hsecond, frame, hcap, hevents, u, hu, fun a => ?_⟩
  by_cases ha : a = topAddr s
  · rw [ha, hutop, hsecond]
  · by_cases hb : a = fromTop s (-1)
    · rw [hb, husecond, htop]
    · have hother : a ∉ [topAddr s, fromTop s (-1)] := by simp [ha, hb]
      rw [uframe.cells a hother, frame.cells a hother]

end Sys2Proof.Machine
end

section
/-! PROOFS. Frame linkage (O37, O38). -/

namespace Sys2Proof.Machine

open Sys2Proof Sys2Proof.Claims

/-- LINK (R165): the push of MP, then two register writes, the second from the SP that the push left. -/
theorem link_builds {s : State} (n : Word) (h : s.admits [fromTop s 1] = true) :
    ∃ t, exec (.link n) s = .next t ∧ t.cell (fromTop s 1) = s.reg .mp ∧ t.reg .mp = disp s .sp 1 ∧
      t.reg .sp = word (sint (disp s .sp 1) + sint n * s.dir) ∧ Unchanged [.sp, .mp] [fromTop s 1] [] s t ∧
      t.cap = s.capAfter [fromTop s 1] ∧
      t.events = s.events ++ [regEvent s .sp (disp s .sp 1), memEvent s (fromTop s 1), regEvent s .mp (disp s .sp 1),
        .reg .sp (disp s .sp 1) (word (sint (disp s .sp 1) + sint n * s.dir))] := by
  obtain ⟨t, ht, hsp, hcell, frame, hcap, hevents⟩ := push_pushes (s.reg .mp) h
  have hdisp : disp (setReg .mp (disp s .sp 1) t) .sp (sint n) = word (sint (disp s .sp 1) + sint n * s.dir) := by
    rw [disp_setReg_of_ne (by decide), disp, hsp, frame.dir]
  refine ⟨adjust .sp (sint n) (setReg .mp (disp s .sp 1) t), ?_, hcell, ?_, ?_, ?_, hcap, ?_⟩
  · change ((push (s.reg .mp) s).bind _).outcome = _
    rw [ht, bind_done, hsp, outcome_done]
  · rw [adjust_reg, if_neg (by decide), setReg_reg, if_pos rfl]
  · rw [adjust_reg, if_pos rfl, hdisp]
  · exact ((frame.trans (unchanged_setReg .mp _ t)).trans (unchanged_setReg .sp _ _)).mono (by simp) (by simp) (by simp)
  · rw [adjust_events, hdisp, setReg_events, hevents, setReg_reg, if_neg (by decide), hsp, frame.regs .mp (by decide),
      List.append_assoc, List.append_assoc]
    rfl

/-- UNLINK (R166): SP goes to MP, the pop there, and MP takes the popped word. -/
theorem unlink_drops {s : State} (h : s.admits [sint (s.reg .mp)] = true) :
    ∃ t, exec .unlink s = .next t ∧ t.reg .mp = s.cell (sint (s.reg .mp)) ∧ t.reg .sp = disp s .mp (-1) ∧
      Unchanged [.sp, .mp] [] [] s t ∧ t.cap = s.capAfter [sint (s.reg .mp)] ∧
      t.events = s.events ++ [regEvent s .sp (s.reg .mp), .reg .sp (s.reg .mp) (disp s .mp (-1)),
        regEvent s .mp (s.cell (sint (s.reg .mp)))] := by
  obtain ⟨t, ht, p⟩ := ((ReadPhase.start s).setSp (s.reg .mp)).pop h
  refine ⟨setReg .mp (s.cell (sint (s.reg .mp))) t, ?_, ?_, ?_, p.unchanged.trans (unchanged_setReg .mp _ t), p.cap, ?_⟩
  · change ((pop (setReg .sp (s.reg .mp) s)).bind _).outcome = _
    rw [ht, bind_done, outcome_done]
  · rw [setReg_reg, if_pos rfl]
  · rw [setReg_reg, if_neg (by decide), p.sp, disp]
  · rw [setReg_events, p.events, p.unchanged.regs .mp (by decide), List.append_assoc]
    rfl

/-- Settles O37 (`link_builds`, `unlink_drops`). -/
theorem linkBuildsAndUnlinkDropsAFrame : Obligations.LinkBuildsAndUnlinkDropsAFrame :=
  ⟨fun _ n => link_builds n, fun _ => unlink_drops⟩

/-- Settles O38: LINK leaves MP at the cell it wrote, so that UNLINK pops the old MP there and steps SP back from there,
wherever the locals moved SP. -/
theorem linkThenUnlinkRestores : Obligations.LinkThenUnlinkRestores := by
  intro s n h
  obtain ⟨t, ht, htcell, htmp, -, tframe, htcap, -⟩ := link_builds n h
  have haddr : sint (t.reg .mp) = fromTop s 1 := by rw [htmp, fromTop]
  obtain ⟨u, hu, hump, husp, uframe, -⟩ := unlink_drops (admits_again h htcap (by rw [haddr]; exact List.Subset.refl _))
  have hmp : u.reg .mp = s.reg .mp := by rw [hump, haddr, htcell]
  have hsp : u.reg .sp = s.reg .sp := by rw [husp, disp_disp htmp tframe.dir, add_neg_cancel, disp_zero]
  have hregs : ∀ r ∈ [Reg.sp, .mp] ++ [.sp, .mp], u.reg r = s.reg r := by simp [hsp, hmp]
  exact ⟨t, u, ht, hu, by rw [uframe.cells _ List.not_mem_nil, htcell], (tframe.trans uframe).of_regs_eq hregs⟩

end Sys2Proof.Machine
end

section
/-! SUPPORT. Heap allocation (44_heap.md): how STH and STMH end, what writing a block adds to a read phase, and how STMH
takes its words from the stack. -/

namespace Sys2Proof.Machine

open Sys2Proof Sys2Proof.Claims

/-! ### Events -/

/-- The event of a register write, by what the register held. -/
theorem regEvent_eq {s : State} {r : Reg} {q : Word} (h : s.reg r = q) (v : Word) : regEvent s r v = .reg r q v := by
  rw [regEvent, h]

/-- The event of a write to a cell says what the cell held. -/
theorem memEvent_congr {s t : State} {a : Int} (h : t.cell a = s.cell a) : memEvent t a = memEvent s a := by
  rw [memEvent, memEvent, h]

/-! ### The end of an allocation (R169, R170) -/

/-- The block of `n` words from `h` is marked, and HP moves behind it. -/
def claimed (h n : Int) (s : State) : State := setReg .hp (word (h + n)) (markBlock h n s)

/-- STH and STMH end alike: the block is claimed, and its last address is pushed. -/
def publish (h n : Int) (s : State) : Res Unit := push (word (h + n - 1)) (claimed h n s)

theorem exec_sth (s : State) :
    exec .sth s = ((pop s).bind fun v t => (memWrite (sint (t.reg .hp)) v t).bind fun _ u =>
      publish (sint (t.reg .hp)) 1 u).outcome := by
  simp only [publish, claimed, markBlock, add_sub_cancel_right]
  rfl

theorem exec_stmh {n : Word} (hn : 1 ≤ sint n) (s : State) :
    exec (.stmh n) s = ((takeBlock n s).bind fun us t => (writeBlock (sint (s.reg .hp)) 1 none us t).bind fun _ u =>
      publish (sint (s.reg .hp)) (sint n) u).outcome := by
  change ((checkCount 1 n s).bind _).outcome = _
  rw [checkCount_ok s hn, bind_done]
  rfl

/-- The markers stand on the first and the last cell of the block. -/
theorem unchanged_markBlock {h n : Int} {block : List Int} (s : State) (hfirst : h ∈ block)
    (hlast : addr (h + n - 1) ∈ block) (hpos : ∀ a ∈ block, 0 ≤ a) :
    Unchanged [] [] block s (markBlock h n s) := by
  unfold markBlock
  split
  · exact (unchanged_annotate _ s (hpos _ hfirst)).mono (by simp) (by simp) (by simpa using hfirst)
  · exact ((unchanged_annotate _ s (hpos _ hfirst)).trans (unchanged_annotate _ _ (hpos _ hlast))).mono (by simp)
      (by simp) (by simp [hfirst, hlast])

theorem unchanged_claimed {h n : Int} {block : List Int} (s : State) (hfirst : h ∈ block)
    (hlast : addr (h + n - 1) ∈ block) (hpos : ∀ a ∈ block, 0 ≤ a) : Unchanged [.hp] [] block s (claimed h n s) :=
  ((unchanged_markBlock s hfirst hlast hpos).trans (unchanged_setReg .hp _ _)).mono (by simp) (by simp) (by simp)

@[simp] theorem claimed_reg_hp (h n : Int) (s : State) : (claimed h n s).reg .hp = word (h + n) := by
  rw [claimed, setReg_reg, if_pos rfl]

@[simp] theorem claimed_cap (h n : Int) (s : State) : (claimed h n s).cap = s.cap := by
  unfold claimed markBlock; split <;> rfl

@[simp] theorem claimed_events (h n : Int) (s : State) :
    (claimed h n s).events = s.events ++ [regEvent s .hp (word (h + n))] := by
  unfold claimed markBlock; split <;> rfl

/-- The end of an allocation where the push is not refused. -/
theorem publish_pushes {h n : Int} {block : List Int} {s : State} (hfirst : h ∈ block)
    (hlast : addr (h + n - 1) ∈ block) (hpos : ∀ a ∈ block, 0 ≤ a) (hadm : s.admits [fromTop s 1] = true) :
    ∃ t, publish h n s = .done () t ∧ t.reg .hp = word (h + n) ∧ t.reg .sp = disp s .sp 1 ∧
      t.cell (fromTop s 1) = word (h + n - 1) ∧ Unchanged [.sp, .hp] [fromTop s 1] block s t ∧
      t.cap = s.capAfter [fromTop s 1] ∧
      t.events = s.events ++
        [regEvent s .hp (word (h + n)), regEvent s .sp (disp s .sp 1), memEvent s (fromTop s 1)] := by
  have frame := unchanged_claimed s hfirst hlast hpos
  have hcap := claimed_cap h n s
  have hsp : (claimed h n s).reg .sp = s.reg .sp := frame.regs .sp (by decide)
  have hdisp := disp_congr hsp frame.dir 1
  have htop : fromTop (claimed h n s) 1 = fromTop s 1 := congrArg sint hdisp
  obtain ⟨t, ht, htsp, hcell, pushed, htcap, hevents⟩ := push_pushes (word (h + n - 1)) (s := claimed h n s)
    (by rwa [htop, admits_congr frame.params hcap])
  rw [htop] at hcell pushed htcap hevents
  rw [hdisp] at htsp hevents
  refine ⟨t, ht, ?_, htsp, hcell, (frame.trans pushed).mono (by simp) (by simp) (by simp), ?_, ?_⟩
  · rw [pushed.regs .hp (by decide), claimed_reg_hp]
  · rw [htcap, capAfter_congr frame.params hcap]
  · rw [hevents, claimed_events, regEvent_congr hsp, memEvent_congr (frame.cells _ List.not_mem_nil), List.append_assoc]
    rfl

/-! ### Accesses behind others -/

theorem capAfter_of_capAfter {as : List Int} {s t : State} (hp : t.params = s.params) (hc : t.cap = s.capAfter as)
    (bs : List Int) : t.capAfter bs = s.capAfter (as ++ bs) := by
  rw [capAfter_append, capAfter_congr (s := touchAll as s) (by simp [hp]) (by simp [hc])]

/-! ### Writing a block after a read phase -/

section
variable {q : Word} {as : List Int} {evs : List ChangeEvent} {s t : State} {b stride : Int} {x : Option AnnText}
  {vs : List Word}

/-- `ReadPhase.memWrite` for a block. -/
theorem ReadPhase.writeBlock (p : ReadPhase q as evs s t) {n : Nat} (hlength : vs.length = n) (hn : n ≤ 2 ^ 32)
    (hstride : stride = 1 ∨ stride = -1) (h : s.admits (as ++ blockAddrs b stride n) = true) :
    ∃ u, writeBlock b stride x vs t = .done () u ∧ BlockStored q as (blockAddrs b stride n) vs evs s u := by
  subst hlength
  obtain ⟨u, hu, w⟩ := writeBlock_wrote (x := x) (p.admits h) (blockAddrs_nodup hstride hn)
  exact ⟨u, hu, p.wrote w⟩

/-- Where the write of word `j` is refused, the words before it are written (60_exceptions.md R196). -/
theorem ReadPhase.writeBlock_refused (p : ReadPhase q as evs s t) {j : Nat} (hj : j < vs.length) (hn : j ≤ 2 ^ 32)
    (hstride : stride = 1 ∨ stride = -1) (h : s.admits (as ++ blockAddrs b stride j) = true)
    (hr : s.admits (as ++ blockAddrs b stride j ++ [addr (b + j * stride)]) = false) :
    ∃ u, Machine.writeBlock b stride x vs t = raise (.addressFault (addr (b + j * stride)) s.ia) u ∧
      BlockStored q as (blockAddrs b stride j) (vs.take j) evs s u := by
  obtain ⟨u, hu, w⟩ := Machine.writeBlock_refused (x := x) hj (p.admits h) (blockAddrs_nodup hstride hn)
    ((p.touchAll _).refused h hr)
  exact ⟨u, by rw [hu, p.unchanged.ia], p.wrote w⟩

end

/-! ### The block on the heap and the words on the stack -/

theorem first_mem_heapBlock {n : Word} {s : State} (hn : 1 ≤ sint n) :
    sint (s.reg .hp) ∈ blockAddrs (sint (s.reg .hp)) 1 (sint n).toNat :=
  mem_blockAddrs.2 ⟨0, by omega, by simp⟩

theorem last_mem_heapBlock {n : Word} {s : State} (hn : 1 ≤ sint n) :
    addr (sint (s.reg .hp) + sint n - 1) ∈ blockAddrs (sint (s.reg .hp)) 1 (sint n).toNat :=
  mem_blockAddrs.2 ⟨(sint n).toNat - 1, by omega, by congr 1; omega⟩

/-! ### Taking the words off the stack -/

/-- The address expression of the deepest of the top `n` stack words. -/
def deepest (n : Word) (s : State) : Int := topAddr s - (sint n - 1) * s.dir

/-- SP behind the top `n` stack words. -/
def spBehind (n : Word) (s : State) : Word := word (topAddr s - sint n * s.dir)

theorem deepest_add (n : Word) (s : State) (j : Int) :
    deepest n s + j * s.dir = topAddr s - (sint n - 1 - j) * s.dir := by
  rw [deepest]
  ring

/-- Where no read is refused, the words are read and SP is behind them. -/
theorem takeBlock_readPhase {n : Word} {s : State}
    (h : s.admits (blockAddrs (deepest n s) s.dir (sint n).toNat) = true) :
    ∃ t, takeBlock n s = .done ((blockAddrs (deepest n s) s.dir (sint n).toNat).map s.cell) t ∧
      ReadPhase (spBehind n s) (blockAddrs (deepest n s) s.dir (sint n).toNat) [regEvent s .sp (spBehind n s)] s t :=
  ⟨_, takeBlock_eq h, ((ReadPhase.start s).touchAll _).setSp _⟩

/-- Where the read of word `j` is refused, the taking stops in the read phase. -/
theorem takeBlock_readRefused {n : Word} {s : State} {j : Nat} (hj : j < (sint n).toNat)
    (h : s.admits (blockAddrs (deepest n s) s.dir j) = true)
    (hr : s.admits (blockAddrs (deepest n s) s.dir j ++ [addr (deepest n s + j * s.dir)]) = false) :
    ∃ t, takeBlock n s = raise (.addressFault (addr (deepest n s + j * s.dir)) s.ia) t ∧
      ReadPhase (s.reg .sp) (blockAddrs (deepest n s) s.dir j) [] s t := by
  have p := (ReadPhase.start s).touchAll (blockAddrs (deepest n s) s.dir j)
  refine ⟨_, ?_, p⟩
  have hread := readBlock_refused hj h (p.refused h hr)
  rw [deepest, topAddr] at hread ⊢
  rw [takeBlock, hread, bind_raise]

/-- One word on from SP behind the top words is the place of the deepest one. -/
theorem word_spBehind_add (n : Word) (s : State) : word (sint (spBehind n s) + s.dir) = word (deepest n s) := by
  rw [spBehind, word_sint_word_add, deepest]
  congr 1
  ring

theorem disp_of_spBehind {n : Word} {s t : State} (hsp : t.reg .sp = spBehind n s) (hdir : t.dir = s.dir) :
    disp t .sp 1 = word (deepest n s) := by
  rw [disp, hsp, hdir, one_mul, word_spBehind_add]

/-- `n` words on from SP behind the top `n` words is SP. -/
theorem word_spBehind_add_block (n : Word) (s : State) : word (sint (spBehind n s) + sint n * s.dir) = s.reg .sp := by
  rw [spBehind, word_sint_word_add, sub_add_cancel, topAddr, word_sint]

/-- One word back from the place of the deepest word SP is behind the top words. -/
theorem disp_of_deepest {n : Word} {s t : State} (hsp : t.reg .sp = word (deepest n s)) (hdir : t.dir = s.dir) :
    disp t .sp (-1) = spBehind n s := by
  rw [disp, hsp, hdir, word_sint_word_add, deepest, spBehind]
  congr 1
  ring

end Sys2Proof.Machine
end

section
/-! PROOFS. The heap (O39, O40, O41). -/

namespace Sys2Proof.Machine

open Sys2Proof Sys2Proof.Claims

/-- Settles O39: the pop and the write (`ReadPhase.memWrite`), then the end of every allocation (`publish_pushes`); the
old top word is still in its cell at the push, also where that cell is the one written. -/
theorem sthAllocatesOneWord : Obligations.SthAllocatesOneWord := by
  intro s h hadm
  have hwrite := admits_of_append (as := [topAddr s, h]) hadm
  obtain ⟨t, ht, p⟩ := pop_readPhase (admits_of_append (as := [topAddr s]) hwrite)
  have hthp : t.reg .hp = s.reg .hp := p.unchanged.regs .hp (by decide)
  obtain ⟨u, hu, husp, hucell, uframe, hucap, huevents⟩ := p.memWrite (s.cell (topAddr s)) hwrite
  have huhp : u.reg .hp = s.reg .hp := uframe.regs .hp (by decide)
  have hdisp : disp u .sp 1 = s.reg .sp := (disp_disp husp uframe.dir 1).trans (disp_zero s .sp)
  have htop : fromTop u 1 = topAddr s := congrArg sint hdisp
  have hkept : u.cell (topAddr s) = s.cell (topAddr s) := by
    by_cases ha : topAddr s = h
    · exact (congrArg u.cell ha).trans hucell
    · exact uframe.cells _ (by simpa using ha)
  have hlast : addr (h + 1 - 1) = h := by rw [add_sub_cancel_right, addr_sint_add]
  have hpos : 0 ≤ h := ((lt_capAfter hadm).2 h (by simp)).1
  obtain ⟨w, hw, hwhp, hwsp, hwcell, wframe, hwcap, hwevents⟩ :=
    publish_pushes (h := h) (n := 1) (block := [h]) (s := u) (by simp) (List.mem_singleton.2 hlast) (by simpa using hpos)
      (by rw [htop]; exact admits_of_capAfter hadm uframe.params hucap)
  rw [htop] at hwcell wframe hwcap hwevents
  rw [hdisp] at hwsp hwevents
  refine ⟨w, ?_, hwhp, ?_, fun hne => ?_, ?_, ?_, ?_⟩
  · rw [exec_sth, ht, bind_done, hthp, hu, bind_done, hw, outcome_done]
  · rw [hwcell, add_sub_cancel_right, word_sint]
  · rw [wframe.cells h (by simpa using hne), hucell]
  · have frame := (uframe.trans wframe).mono (r' := [.sp, .hp]) (c' := [h, topAddr s]) (n' := [h]) (by simp) (by simp)
      (by simp)
    refine { frame with regs := fun r hr => ?_ }
    by_cases hrsp : r = .sp
    · rw [hrsp, hwsp]
    · exact frame.regs r (by simpa [hrsp] using hr)
  · rw [hwcap, capAfter_of_capAfter uframe.params hucap]
    rfl
  · rw [hwevents, huevents, regEvent_congr huhp, regEvent_eq husp, memEvent_congr hkept, List.append_assoc]
    rfl

/-- STMH (R170) where no access is refused: the words are taken and written (`ReadPhase.writeBlock`), then the end of
every allocation (`publish_pushes`), whose push writes the place of the deepest word. -/
theorem stmh_allocates {s : State} {n : Word} (hn : 1 ≤ sint n)
    (h : s.admits (blockAddrs (deepest n s) s.dir (sint n).toNat ++ blockAddrs (sint (s.reg .hp)) 1 (sint n).toNat ++
      [addr (deepest n s)]) = true) :
    ∃ t, exec (.stmh n) s = .next t ∧ t.reg .hp = word (sint (s.reg .hp) + sint n) ∧
      sint (t.reg .sp) = addr (deepest n s) ∧ t.cell (addr (deepest n s)) = word (sint (s.reg .hp) + sint n - 1) ∧
      (∀ j, (hj : j < (sint n).toNat) → addr (sint (s.reg .hp) + j) ≠ addr (deepest n s) →
        t.cell (addr (sint (s.reg .hp) + j)) = s.cell (addr (topAddr s - (sint n - 1 - j) * s.dir))) ∧
      Unchanged [.sp, .hp] (addr (deepest n s) :: blockAddrs (sint (s.reg .hp)) 1 (sint n).toNat)
        (blockAddrs (sint (s.reg .hp)) 1 (sint n).toNat) s t ∧
      t.cap = s.capAfter (blockAddrs (deepest n s) s.dir (sint n).toNat ++
        blockAddrs (sint (s.reg .hp)) 1 (sint n).toNat ++ [addr (deepest n s)]) ∧
      ∃ evs, t.events = s.events ++ evs ∧ evs.length = (sint n).toNat + 4 := by
  have hrange := sint_range n
  have hwrite := admits_of_append h
  obtain ⟨t, ht, p⟩ := takeBlock_readPhase (admits_of_append hwrite)
  obtain ⟨u, hu, w⟩ := p.writeBlock (b := sint (s.reg .hp)) (x := none)
    (vs := (blockAddrs (deepest n s) s.dir (sint n).toNat).map s.cell) (by simp) (by omega) (.inl rfl) hwrite
  have hdisp := disp_of_spBehind w.sp w.unchanged.dir
  have htop : fromTop u 1 = addr (deepest n s) := congrArg sint hdisp
  have hpos : ∀ a ∈ blockAddrs (sint (s.reg .hp)) 1 (sint n).toNat, 0 ≤ a := fun a ha =>
    ((lt_capAfter h).2 a (by simp [ha])).1
  obtain ⟨v, hv, hvhp, hvsp, hvcell, vframe, hvcap, hvevents⟩ :=
    publish_pushes (s := u) (first_mem_heapBlock hn) (last_mem_heapBlock hn) hpos
      (by rw [htop]; exact admits_of_capAfter h w.unchanged.params w.cap)
  rw [htop] at hvcell vframe hvcap
  rw [w.events, List.append_assoc] at hvevents
  refine ⟨v, ?_, hvhp, ?_, hvcell, fun j hj hne => ?_, ?_, ?_, _, hvevents, ?_⟩
  · rw [exec_stmh hn, ht, bind_done, hu, bind_done, hv, outcome_done]
  · rw [hvsp, hdisp]
    rfl
  · have hcopied := w.copied hj
    rw [mul_one, deepest_add] at hcopied
    rw [vframe.cells _ (by simpa using hne), hcopied]
  · exact (w.unchanged.trans vframe).mono (by simp) (by simp) (by simp)
  · rw [hvcap, capAfter_of_capAfter w.unchanged.params w.cap]
  · simp

/-- A refused read of STMH leaves everything but the capacity as it was (60_exceptions.md R196). -/
theorem stmh_readStops (n : Word) : BlockReadStops (.stmh n) false (deepest n) State.dir n := by
  intro s j hj h hr
  obtain ⟨t, ht, p⟩ := takeBlock_readRefused hj h hr
  refine ⟨enterFault _ t, ?_, faultTaken_of_unchanged p.unchanged, p.sp, p.cap, p.events⟩
  rw [exec_stmh (by omega), ht, bind_raise, outcome_raise]

/-- A refused write of STMH leaves SP moved, the words before it written, and HP as it was (R196). -/
theorem stmh_writeStops (n : Word) :
    BlockWriteStops (.stmh n) false (deepest n) State.dir (fun s => sint (s.reg .hp)) (fun _ => 1) (spBehind n) n := by
  intro s j hj done a h hr
  have hrange := sint_range n
  obtain ⟨t, ht, p⟩ := takeBlock_readPhase (admits_of_append h)
  obtain ⟨u, hu, w⟩ := p.writeBlock_refused (x := none)
    (vs := (blockAddrs (deepest n s) s.dir (sint n).toNat).map s.cell) (by simpa using hj) (by omega) (.inl rfl) h hr
  rw [← List.map_take, take_blockAddrs _ _ hj.le] at w
  refine ⟨enterFault _ u, ?_, faultTaken_of_unchanged w.unchanged, w.sp, fun m hm => w.copied hm, w.cap, _, w.events,
    .refl _⟩
  rw [exec_stmh (by omega), ht, bind_done, hu, bind_raise, outcome_raise]

/-- Settles O40 (`stmh_allocates`, `stmh_readStops`, `stmh_writeStops`). -/
theorem stmhAllocatesABlock : Obligations.StmhAllocatesABlock :=
  ⟨fun _ _ hn => stmh_allocates hn, fun n => ⟨stmh_readStops n, stmh_writeStops n⟩⟩

/-- LDMH's offset leads from the block's last address back to its first. -/
theorem word_last_add_offset (h n : Int) : word (sint (word (h + n - 1)) + sint (word (1 - n))) = word h := by
  rw [word_sint_word_add, word_add, word_sint, ← word_add]
  congr 1
  ring

/-- LDMH (R172), where `h` names the block's first cell and `b` the cell that the popped address stood in. -/
theorem ldmh_copies {s : State} {k n : Word} {h b : Int} (hn : 0 ≤ sint n)
    (hsource : word (sint (s.cell (topAddr s)) + sint k) = word h)
    (htarget : word (sint (disp s .sp (-1)) + s.dir) = word b)
    (hadm : s.admits ([topAddr s] ++ blockAddrs h 1 (sint n).toNat ++ blockAddrs b s.dir (sint n).toNat) = true) :
    ∃ t, exec (.ldmh k n) s = .next t ∧ t.reg .sp = word (sint (disp s .sp (-1)) + sint n * s.dir) ∧
      (∀ j : Nat, j < (sint n).toNat → t.cell (addr (b + j * s.dir)) = s.cell (addr (h + j))) ∧
      t.reg .hp = s.reg .hp := by
  rw [← blockAddrs_congr hsource, ← blockAddrs_congr htarget] at hadm
  obtain ⟨t, ht, hsp, hcells, frame, -⟩ := (ldmh_starts k n).loads.loadsBlock s hn hadm
  refine ⟨t, ht, hsp, fun j hj => ?_, frame.regs .hp (by decide)⟩
  have hcopied := hcells j hj
  rw [mul_one, addr_congr hsource] at hcopied
  rw [← addr_congr htarget, ← hcopied]
  rfl

/-- Settles O41: every access is to a cell below the capacity, so none is refused. STMH leaves the block's last address in
the place of the deepest word (`stmh_allocates`), so that LDMH pops it, reads the block from its first word on, and writes
where the words were (`ldmh_copies`). -/
theorem ldmhRebuildsWhatStmhStored : Obligations.LdmhRebuildsWhatStmhStored := by
  intro s n hn h src dst hsrc hdst
  have hdeepest : addr (deepest n s) ∈ src := mem_blockAddrs.2 ⟨0, by omega, by simp [deepest]⟩
  have hdstBelow : ∀ a ∈ dst, 0 ≤ a ∧ a < s.cap := fun a ha => by
    obtain ⟨hnonneg, hbelow, -⟩ := hdst a ha
    exact ⟨hnonneg, hbelow⟩
  obtain ⟨hadm, -⟩ := touchAll_of_lt (s := s) (as := src ++ dst ++ [addr (deepest n s)])
    (List.forall_mem_append.2 ⟨List.forall_mem_append.2 ⟨hsrc, hdstBelow⟩,
      List.forall_mem_singleton.2 (hsrc _ hdeepest)⟩)
  obtain ⟨t, ht, hthp, htsp, httop, htcells, tframe, htcap, -⟩ := stmh_allocates hn hadm
  have htop : topAddr t = addr (deepest n s) := htsp
  have hpopped : disp t .sp (-1) = spBehind n s := disp_of_deepest (BitVec.toInt_inj.1 htsp) tframe.dir
  have hagain : [topAddr t] ++ dst ++ src ⊆ src ++ dst ++ [addr (deepest n s)] := by
    rw [htop]
    intro a ha
    simpa only [List.mem_append, or_comm, or_left_comm] using ha
  obtain ⟨u, hu, husp, hucells, huhp⟩ := ldmh_copies (s := t) (k := word (1 - sint n)) (n := n) (h := h)
    (b := deepest n s) (by omega) (by rw [htop, httop, word_last_add_offset])
    (by rw [hpopped, tframe.dir, word_spBehind_add]) (by rw [tframe.dir]; exact admits_again hadm htcap hagain)
  refine ⟨t, u, ht, hu, ?_, fun a ha => ?_, huhp.trans hthp⟩
  · rw [husp, hpopped, tframe.dir, word_spBehind_add_block]
  · obtain ⟨j, hj, rfl⟩ := mem_blockAddrs.1 ha
    have hapart : addr (h + j) ≠ addr (deepest n s) := by
      obtain ⟨-, -, hnot⟩ := hdst (addr (h + j)) (mem_blockAddrs.2 ⟨j, hj, by rw [mul_one]⟩)
      exact fun e => hnot (e ▸ hdeepest)
    calc u.cell (addr (deepest n s + j * s.dir)) = t.cell (addr (h + j)) := by rw [← tframe.dir, hucells j hj]
      _ = s.cell (addr (deepest n s + j * s.dir)) := by rw [htcells j hj hapart, deepest_add]

end Sys2Proof.Machine
end

section
/-! SUPPORT. The services of TRAP (45_trap.md): each pops its arguments, acts on the host side and the open handles, and
then pushes a result, sends a diagnostic, or does neither. `Served` says what that did to the state; every sub-operation
has one equation per way it can go on behind its pops. -/

namespace Sys2Proof.Machine

open Sys2Proof Sys2Proof.Claims

/-! ### Behind the pops -/

theorem exec_trap {s : State} {t : Word} {o : TrapOp} (h : trapOf s.params.traps t = some o) :
    exec (.trap t) s = (trapOp o s).outcome := execTrap_some h

/-- The top word popped, where its cell is admitted. -/
theorem pop_top {s : State} (h : s.admits [topAddr s] = true) :
    ∃ t, pop s = .done (s.cell (topAddr s)) t ∧ Popped (disp s .sp (-1)) [topAddr s] s t :=
  pop_popped ((admits_singleton s _).symm.trans h)

/-- `s` with the host side and the open handles given: all that a service changes but for the stack. -/
def State.outside (h : HostState) (hs : List (Nat × Stream)) (s : State) : State := { s with host := h, handles := hs }

/-- The host side after a call that left the file `n` with the bytes `bs`. -/
def storedHost (n : FileName) (bs : List Byte) (s : State) : HostState :=
  { calledHost s with files := filePut s.host.files n bs }

/-- From `s` to `u` a service made the accesses `as`, sent the events `evs`, left SP at `sp`, the host side `h` and the
handles `hs`, wrote the cells `cells`, and did nothing else. -/
structure Served (sp : Word) (cells as : List Int) (evs : List ChangeEvent) (h : HostState) (hs : List (Nat × Stream))
    (s u : State) : Prop where
  sp : u.reg .sp = sp
  host : u.host = h
  handles : u.handles = hs
  unchanged : Unchanged [.sp] cells [] s { u with host := s.host, handles := s.handles }
  cap : u.cap = s.capAfter as
  events : u.events = s.events ++ evs

/-- A service that leaves the handles as they were. -/
theorem Served.unchanged_handles {sp : Word} {cells as : List Int} {evs : List ChangeEvent} {h : HostState} {s u : State}
    (v : Served sp cells as evs h s.handles s u) : Unchanged [.sp] cells [] s { u with host := s.host } :=
  { v.unchanged with handles := v.handles }

section
variable {sp : Word} {as : List Int} {s t : State}

theorem Popped.outside (p : Popped sp as s t) (h : HostState) (hs : List (Nat × Stream)) :
    Popped sp as (s.outside h hs) (t.outside h hs) :=
  { p with host := rfl, handles := rfl }

/-- A service that pushes nothing. -/
theorem Popped.served (p : Popped sp as s t) (h : HostState) (hs : List (Nat × Stream)) :
    Served sp [] as (popsEvents s as.length) h hs s (t.outside h hs) where
  sp := p.sp
  host := rfl
  handles := rfl
  unchanged := { p.unchanged with host := rfl, handles := rfl }
  cap := p.cap
  events := p.events

/-- A service that pushes `v` after `n` pops. -/
theorem Popped.served_push {n : Nat} (p : Popped (disp s .sp (-(n : Int))) as s t) (hn : as.length = n) (v : Word)
    (h : HostState) (hs : List (Nat × Stream)) (hadm : s.admits (as ++ [fromTop s (1 - n)]) = true) :
    ∃ u, push v (t.outside h hs) = .done () u ∧ u.cell (fromTop s (1 - n)) = v ∧
      Served (disp s .sp (1 - n)) [fromTop s (1 - n)] (as ++ [fromTop s (1 - n)])
        (popsEvents s n ++ pushEvents s n) h hs s u := by
  subst hn
  obtain ⟨u, hu, q⟩ := Popped.then_push (s := s.outside h hs) (p.outside h hs) v hadm
  exact ⟨u, hu, q.cell,
    { sp := q.sp, host := q.unchanged.host, handles := q.unchanged.handles, cap := q.cap, events := q.events
      unchanged := { q.unchanged with host := rfl, handles := rfl } }⟩

/-! What pops leave as it was. -/

theorem Popped.stream (p : Popped sp as s t) (w : Word) : t.stream w = s.stream w := by
  rw [State.stream, State.stream, p.handles]

theorem Popped.fileServiceFails (p : Popped sp as s t) : t.fileServiceFails = s.fileServiceFails := by
  rw [State.fileServiceFails, State.fileServiceFails, p.host]

theorem Popped.calledHost (p : Popped sp as s t) : calledHost t = calledHost s := by
  rw [Claims.calledHost, Claims.calledHost, p.host]

/-- A diagnostic behind the pops is all that is left of a service that failed. -/
theorem Popped.diagnosed (p : Popped sp as s t) (d : Diag) :
    Served sp [] as (popsEvents s as.length) { s.host with diags := s.host.diags ++ [d] } s.handles s (diag d t) := by
  rw [← p.host, ← p.handles]
  exact p.served _ _

/-- The same where the failed service was a call of the host's file store. -/
theorem Popped.diagnosed_call (p : Popped sp as s t) (d : Diag) :
    Served sp [] as (popsEvents s as.length) { Claims.calledHost s with diags := s.host.diags ++ [d] } s.handles s
      (diag d (afterFileCall t)) := by
  rw [← p.calledHost, ← p.host, ← p.handles]
  exact p.served _ _

/-! ### FILE_READ, FILE_WRITE and FILE_CLOSE (R186, R187, R188) -/

section
variable {r t' : State} {w v : Word} {n : FileName} {pos : Nat} {st : Stream}

theorem readHandle_of_none (hpop : pop r = .done w t) (p : Popped sp as s t) (hst : s.stream w = none) :
    readHandle r = .done () (diag (.invalidHandle w) t) := by
  simp only [readHandle, hpop, bind_done, p.stream, hst]

theorem readHandle_of_writer (hpop : pop r = .done w t) (p : Popped sp as s t) (hst : s.stream w = some (.writer n)) :
    readHandle r = .done () (diag (.ioError w) t) := by
  simp only [readHandle, hpop, bind_done, p.stream, hst]

theorem readHandle_of_fails (hpop : pop r = .done w t) (p : Popped sp as s t)
    (hst : s.stream w = some (.reader n pos)) (hf : s.fileServiceFails = true) :
    readHandle r = .done () (diag (.ioError w) (afterFileCall t)) := by
  simp only [readHandle, hpop, bind_done, p.stream, hst, p.fileServiceFails, hf, if_true]

theorem readHandle_of_reader (hpop : pop r = .done w t) (p : Popped sp as s t)
    (hst : s.stream w = some (.reader n pos)) (hf : s.fileServiceFails = false) :
    readHandle r = push (readWord ((fileGet s.host.files n).getD []) pos) (t.outside (calledHost s)
      (sparseSet s.handles (sint w).toNat (.reader n (nextPosition ((fileGet s.host.files n).getD []) pos)))) := by
  rw [← p.calledHost, ← p.handles, ← p.host]
  simp only [readHandle, hpop, bind_done, p.stream, hst, p.fileServiceFails, hf]
  rfl

theorem writeHandle_of_none (hpop : pop r = .done w t') (hpop' : pop t' = .done v t) (p : Popped sp as s t)
    (hst : s.stream w = none) : writeHandle r = .done () (diag (.invalidHandle w) t) := by
  simp only [writeHandle, hpop, hpop', bind_done, p.stream, hst]

theorem writeHandle_of_reader (hpop : pop r = .done w t') (hpop' : pop t' = .done v t) (p : Popped sp as s t)
    (hst : s.stream w = some (.reader n pos)) : writeHandle r = .done () (diag (.ioError w) t) := by
  simp only [writeHandle, hpop, hpop', bind_done, p.stream, hst]

theorem writeHandle_of_fails (hpop : pop r = .done w t') (hpop' : pop t' = .done v t) (p : Popped sp as s t)
    (hst : s.stream w = some (.writer n)) (hf : s.fileServiceFails = true) :
    writeHandle r = .done () (diag (.ioError w) (afterFileCall t)) := by
  simp only [writeHandle, hpop, hpop', bind_done, p.stream, hst, p.fileServiceFails, hf, if_true]

theorem writeHandle_of_writer (hpop : pop r = .done w t') (hpop' : pop t' = .done v t) (p : Popped sp as s t)
    (hst : s.stream w = some (.writer n)) (hf : s.fileServiceFails = false) :
    writeHandle r =
      push 0 (t.outside (storedHost n ((fileGet s.host.files n).getD [] ++ [v.truncate 8]) s) s.handles) := by
  rw [storedHost, ← p.calledHost, ← p.handles, ← p.host]
  simp only [writeHandle, hpop, hpop', bind_done, p.stream, hst, p.fileServiceFails, hf]
  rfl

theorem closeHandle_of_none (hpop : pop r = .done w t) (p : Popped sp as s t) (hst : s.stream w = none) :
    closeHandle r = .done () (diag (.invalidHandle w) t) := by
  simp only [closeHandle, hpop, bind_done, p.stream, hst]

theorem closeHandle_of_some (hpop : pop r = .done w t) (p : Popped sp as s t) (hst : s.stream w = some st) :
    closeHandle r = .done () (t.outside
      { calledHost s with diags := s.host.diags ++ if s.fileServiceFails then [.ioError w] else [] }
      (sparseErase s.handles (sint w).toNat)) := by
  rw [← p.calledHost, ← p.handles, ← p.host]
  simp only [closeHandle, hpop, bind_done, p.stream, hst, p.fileServiceFails]
  cases s.fileServiceFails with
  | true => rfl
  | false => simp only [List.append_nil, Bool.false_eq_true, if_false]; rfl

end

end

end Sys2Proof.Machine
end

section
/-! SUPPORT. File names and opens (45_trap.md R183 to R185, 10_state.md R42). -/

namespace Sys2Proof.Machine

open Sys2Proof Sys2Proof.Claims

/-! ### Popping a name -/

/-- Displaced addresses come round after 2^32 words. -/
theorem disp_add_pow (s : State) (r : Reg) (k : Int) : disp s r (k + 2 ^ 32) = disp s r k := by
  have hround : word (2 ^ 32 * s.dir) = 0 := by
    rcases dir_eq s.params.dir with h | h <;> rw [State.dir, h] <;> rfl
  rw [disp_eq, disp_eq, add_mul, word_add, hround, add_zero]

/-- A name with its 0 has room on the stack: after 2^32 words its 0 would stand on one of its codes. -/
theorem length_lt_of_nameOnStack {s : State} {cs : List Word} (h : NameOnStack s cs) : cs.length < 2 ^ 32 := by
  obtain ⟨hne, hcodes, hzero⟩ := h
  by_contra hlong
  obtain ⟨j, hlength⟩ : ∃ j, cs.length = j + 2 ^ 32 := ⟨cs.length - 2 ^ 32, by omega⟩
  have hj : j < cs.length := by omega
  have hsame : fromTop s (-(j : Int)) = fromTop s (-(cs.length : Int)) := by
    have hback : -(j : Int) = -(cs.length : Int) + 2 ^ 32 := by omega
    rw [fromTop, fromTop, hback, disp_add_pow]
  exact hne _ (List.getElem_mem hj) ((hcodes j hj).symm.trans ((congrArg s.cell hsame).trans hzero))

theorem nameAddrs_length (s : State) (m : Nat) : (nameAddrs s m).length = m + 1 := by
  rw [nameAddrs, List.length_map, List.length_range]

/-- `PopString()` on a name that stands on the stack, where no access is refused. -/
theorem popString_popped {s : State} {cs : List Word} (h : NameOnStack s cs)
    (hadm : s.admits (nameAddrs s cs.length) = true) :
    ∃ t, popString s = .done cs t ∧ Popped (disp s .sp (-(cs.length + 1 : Int))) (nameAddrs s cs.length) s t :=
  by
  have hlength := length_lt_of_nameOnStack h
  obtain ⟨hne, hcodes, hzero⟩ := h
  exact popStringUpTo_popped hlength hne hcodes hzero hadm

/-! ### The search for the 0 ends -/

/-- How many pops from `s` on it takes at most until one faults: SP goes down to 0, or up to 2^31 - 1, and the pop at the
next address, which is negative, is refused. -/
def popsLeft (s : State) : Nat :=
  if sint (s.reg .sp) < 0 then 1
  else match s.params.dir with
    | .up => (sint (s.reg .sp)).toNat + 2
    | .down => (2 ^ 31 - sint (s.reg .sp)).toNat + 1

theorem popsLeft_pos (s : State) : 0 < popsLeft s := by
  rw [popsLeft]
  split
  · omega
  · split <;> omega

theorem popsLeft_le (s : State) : popsLeft s ≤ 2 ^ 31 + 1 := by
  have hrange := sint_range (s.reg .sp)
  rw [popsLeft]
  split
  · omega
  · split <;> omega

/-- Every pop that is not refused leaves fewer. -/
theorem Popped.popsLeft_lt {as : List Int} {s t : State} (p : Popped (disp s .sp (-1)) as s t)
    (h : s.admitsAddr (sint (s.reg .sp)) = true) : popsLeft t < popsLeft s := by
  obtain ⟨hnonneg, -⟩ := (admitsAddr_iff s _).1 h
  have hrange := sint_range (s.reg .sp)
  rw [popsLeft, popsLeft, if_neg (not_lt.2 hnonneg), p.sp, p.params, disp, State.dir]
  cases s.params.dir with
  | up =>
    have hnext : sint (word (sint (s.reg .sp) + -1 * Dir.up.toInt)) = sint (s.reg .sp) - 1 :=
      sint_word_of_range (by simp only [Dir.toInt]; omega) (by simp only [Dir.toInt]; omega)
    rw [hnext]
    dsimp only
    split <;> omega
  | down =>
    by_cases hlast : sint (s.reg .sp) = 2 ^ 31 - 1
    · rw [hlast]
      decide
    · have hnext : sint (word (sint (s.reg .sp) + -1 * Dir.down.toInt)) = sint (s.reg .sp) + 1 :=
        sint_word_of_range (by simp only [Dir.toInt]; omega) (by simp only [Dir.toInt]; omega)
      rw [hnext]
      dsimp only
      split <;> omega

/-- A bound that the pops cannot reach makes no difference. -/
theorem popStringUpTo_eq_of_popsLeft_le {m n : Nat} {s : State} (hm : popsLeft s ≤ m) (hn : popsLeft s ≤ n) :
    popStringUpTo m s = popStringUpTo n s := by
  have hpos := popsLeft_pos s
  induction m generalizing n s with
  | zero => omega
  | succ m ih =>
    obtain ⟨n, rfl⟩ : ∃ k, n = k + 1 := ⟨n - 1, by omega⟩
    rw [popStringUpTo_succ, popStringUpTo_succ]
    cases h : s.admitsAddr (sint (s.reg .sp)) with
    | false => rw [pop_refused h, bind_raise, bind_raise]
    | true =>
      obtain ⟨t, ht, p⟩ := pop_popped h
      have hless := p.popsLeft_lt h
      rw [ht, bind_done, bind_done, ih (s := t) (n := n) (by omega) (by omega) (popsLeft_pos t)]

/-! ### The smallest free handle -/

theorem mem_keys_of_sparseGet {α : Type} {m : List (Nat × α)} {k : Nat} (h : (sparseGet m k).isSome) :
    k ∈ m.map Prod.fst := by
  obtain ⟨v, hv⟩ := Option.isSome_iff_exists.1 h
  exact List.mem_map_of_mem (sparseGet_eq_some_mem hv)

/-- A table of `n` entries does not have all of `0, …, n` as keys. -/
theorem exists_free {α : Type} (m : List (Nat × α)) : ∃ k ∈ List.range (m.length + 1), sparseGet m k = none := by
  by_contra! hall
  have hsub : List.range (m.length + 1) ⊆ m.map Prod.fst := fun k hk =>
    mem_keys_of_sparseGet (Option.isSome_iff_ne_none.2 (hall k hk))
  have hle := (List.subperm_of_subset List.nodup_range hsub).length_le
  rw [List.length_range, List.length_map] at hle
  omega

/-- `firstFree` is no key, and every smaller number is one (R42). -/
theorem firstFree_spec (hs : List (Nat × Stream)) :
    sparseGet hs (firstFree hs) = none ∧ ∀ j < firstFree hs, (sparseGet hs j).isSome := by
  rw [firstFree]
  cases hfind : (List.range (hs.length + 1)).find? fun n => (sparseGet hs n).isNone with
  | none =>
    obtain ⟨k, hk, hfree⟩ := exists_free hs
    exact absurd (Option.isNone_iff_eq_none.2 hfree) (List.find?_eq_none.1 hfind k hk)
  | some k =>
    obtain ⟨hfree, -, hbelow⟩ := List.find?_range_eq_some.1 hfind
    exact ⟨Option.isNone_iff_eq_none.1 hfree, fun j hj => by simpa [Option.isSome_iff_ne_none] using hbelow j hj⟩

/-! ### The open of a file (R184, R185) -/

section
variable {sp : Word} {as : List Int} {r s t : State} {n : FileName}

/-- Neither open enters a handle where the host's file store reports an error (R189). -/
theorem openHandle_of_fails {m : Mode} (hpop : popString r = .done n t) (p : Popped sp as s t)
    (hf : s.fileServiceFails = true) : openHandle m r = .done () (diag (.fileNotFound n) (afterFileCall t)) := by
  simp only [openHandle, openFile, hpop, bind_done, p.fileServiceFails, hf, if_true]

theorem openHandle_read_missing (hpop : popString r = .done n t) (p : Popped sp as s t)
    (hmissing : fileGet s.host.files n = none) :
    openHandle .read r = .done () (diag (.fileNotFound n) (afterFileCall t)) := by
  cases hf : s.fileServiceFails with
  | true => exact openHandle_of_fails hpop p hf
  | false =>
    simp only [openHandle, openFile, hpop, bind_done, p.fileServiceFails, hf, p.host, hmissing]
    rfl

theorem openHandle_read (hpop : popString r = .done n t) (p : Popped sp as s t) (hf : s.fileServiceFails = false)
    (hfile : (fileGet s.host.files n).isSome) :
    openHandle .read r = push (word (firstFree s.handles))
      (t.outside (calledHost s) (sparseSet s.handles (firstFree s.handles) (.reader n 0))) := by
  rw [← p.host] at hfile
  rw [← p.calledHost, ← p.handles]
  simp only [openHandle, openFile, hpop, bind_done, p.fileServiceFails, hf, hfile]
  rfl

theorem openHandle_write (hpop : popString r = .done n t) (p : Popped sp as s t) (hf : s.fileServiceFails = false) :
    openHandle .write r = push (word (firstFree s.handles))
      (t.outside (storedHost n [] s) (sparseSet s.handles (firstFree s.handles) (.writer n))) := by
  rw [storedHost, ← p.calledHost, ← p.handles, ← p.host]
  simp only [openHandle, openFile, hpop, bind_done, p.fileServiceFails, hf]
  rfl

end

end Sys2Proof.Machine
end

section
/-! PROOFS. TRAP: the console (O42, O43, O44, O8) and unknown numbers (O50). -/

namespace Sys2Proof.Machine

open Sys2Proof Sys2Proof.Claims

/-- PR_INT and PR_CHAR (R177, R178) as one: a pop, then one console event. -/
theorem print_served {o : TrapOp} {e : Word → ConsoleEvent} {s : State} {t : Word}
    (hop : trapOp o s = (pop s).bind fun v u => .done () (print (e v) u)) (ht : trapOf s.params.traps t = some o)
    (h : s.admits [topAddr s] = true) :
    ∃ u, exec (.trap t) s = .next u ∧ Served (disp s .sp (-1)) [] [topAddr s] (popsEvents s 1)
      { s.host with console := s.host.console ++ [e (s.cell (topAddr s))] } s.handles s u := by
  obtain ⟨u, hu, p⟩ := pop_top h
  refine ⟨print (e (s.cell (topAddr s))) u, ?_, ?_⟩
  · rw [exec_trap ht, hop, hu, bind_done]
    rfl
  · rw [← p.host, ← p.handles]
    exact p.served _ _

/-- Settles O42 (`print_served`). -/
theorem printTrapsSendOneEvent : Obligations.PrintTrapsSendOneEvent := by
  intro s t h p hp ht
  obtain ⟨u, hu, v⟩ : ∃ u, exec (.trap t) s = .next u ∧ Served (disp s .sp (-1)) [] [topAddr s] (popsEvents s 1)
      { s.host with console := s.host.console ++ [p.2] } s.handles s u := by
    rcases List.mem_pair.1 hp with rfl | rfl
    · exact print_served (e := .outInt) rfl ht h
    · exact print_served (e := .outChar) rfl ht h
  exact ⟨u, hu, v.sp, v.host, v.unchanged_handles, v.cap, v.events⟩

/-! ### Prompts: with an answer in the queue and without (R179 to R182) -/

theorem promptInt_of_answer {s : State} {v : Word} {rest : List Word} (h : s.host.intAnswers = v :: rest) :
    promptInt s = push v (answered { s.host with intAnswers := rest } s) := by
  rw [promptInt, h]

theorem promptInt_of_nil {s : State} (h : s.host.intAnswers = []) : promptInt s = awaitPrompt .int s := by
  rw [promptInt, h]

theorem promptChar_of_answer {s : State} {v : Word} {rest : List Word} (h : s.host.charAnswers = v :: rest) :
    promptChar s = push v (answered { s.host with charAnswers := rest } s) := by
  rw [promptChar, h]

theorem promptChar_of_nil {s : State} (h : s.host.charAnswers = []) : promptChar s = awaitPrompt .char s := by
  rw [promptChar, h]

theorem promptCharArray_of_answer {s : State} {cs : List Word} {rest : List (List Word)}
    (h : s.host.textAnswers = cs :: rest) :
    promptCharArray s = pushAll (0 :: cs.reverse) (answered { s.host with textAnswers := rest } s) := by
  rw [promptCharArray, h]

theorem promptCharArray_of_nil {s : State} (h : s.host.textAnswers = []) :
    promptCharArray s = awaitPrompt .charArray s := by
  rw [promptCharArray, h]

/-- IN_INT and IN_CHAR (R179, R180) as one, with `host` left of the host side: the push of the answer, refused or not. -/
theorem prompt_pushes {o : TrapOp} {host : HostState} {s : State} {t v : Word}
    (hop : trapOp o s = push v (answered host s)) (ht : trapOf s.params.traps t = some o) :
    (s.admits [fromTop s 1] = true →
      ∃ u, exec (.trap t) s = .next u ∧ u.reg .sp = disp s .sp 1 ∧ u.cell (fromTop s 1) = v ∧
        u.host = host ∧ u.waiting = none ∧
        Unchanged [.sp] [fromTop s 1] [] s { u with host := s.host, waiting := s.waiting } ∧
        u.cap = s.capAfter [fromTop s 1] ∧ u.events = s.events ++ pushEvents s 0) ∧
    (s.admits [fromTop s 1] = false →
      ∃ u, exec (.trap t) s = .next u ∧ u.reg .sp = disp s .sp 1 ∧
        FaultTaken (.addressFault (fromTop s 1) s.ia) [.sp] [] { s with host := host, waiting := none } u ∧
        u.cap = s.cap ∧ u.events = s.events ++ [regEvent s .sp (disp s .sp 1)]) := by
  rw [exec_trap ht, hop]
  constructor
  · intro h
    obtain ⟨u, hu, hsp, hcell, frame, hcap, hevents⟩ := push_pushes (s := answered host s) v h
    refine ⟨u, by rw [hu, outcome_done], hsp, hcell, frame.host, frame.waiting,
      { frame with host := rfl, waiting := rfl }, hcap, ?_⟩
    rw [hevents, pushEvents, neg_zero, disp_zero, sub_zero]
    rfl
  · intro h
    rw [admits_singleton] at h
    have moved := unchanged_setReg .sp (disp s .sp 1) (answered host s)
    refine ⟨enterFault (.addressFault (fromTop s 1) s.ia) (adjust .sp 1 (answered host s)), ?_, ?_,
      faultTaken_of_unchanged moved, rfl, rfl⟩
    · exact congrArg Res.outcome (push_refused (s := answered host s) v h)
    · rw [enterFault_reg, adjust_reg, if_pos rfl, disp_answered]

/-- Settles O43 (`prompt_pushes`). -/
theorem promptTrapsPushTheAnswer : Obligations.PromptTrapsPushTheAnswer := by
  intro s t v rest p hp ht hanswer
  rcases List.mem_pair.1 hp with rfl | rfl
  · exact prompt_pushes (o := .inInt) (promptInt_of_answer hanswer) ht
  · exact prompt_pushes (o := .inChar) (promptChar_of_answer hanswer) ht

/-- The place of the word pushed `j`th, counted from 0. -/
theorem addr_pushed (s : State) (j : Int) : addr (sint (s.reg .sp) + s.dir + j * s.dir) = fromTop s (j + 1) := by
  rw [fromTop, disp, addr]
  congr 2
  ring

/-- The events of the push `j`th in turn, counted from 0. -/
theorem pushEvents_neg (s : State) (j : Nat) : pushEvents s (-(j : Int)) =
    [.reg .sp (disp s .sp j) (disp s .sp (j + 1)), memEvent s (fromTop s (j + 1))] := by
  rw [pushEvents, neg_neg, sub_neg_eq_add, add_comm 1]

/-- Settles O44: the answer is pushed by `pushAll`, whose word `j` ends in the `j + 1`st cell above the old top, which is
the `cs.length - j`th below the new one. -/
theorem charArrayPromptPushesTheString : Obligations.CharArrayPromptPushesTheString := by
  intro s t cs rest ht hanswer hlength dst hadm
  have hwords : (0 :: cs.reverse).length = cs.length + 1 := by rw [List.length_cons, List.length_reverse]
  obtain ⟨u, hu, hsp, hcells, frame, hcap, hevents⟩ :=
    pushAll_wrote (vs := 0 :: cs.reverse) (s := answered { s.host with textAnswers := rest } s) (by omega)
      (by rw [hwords]; exact hadm)
  rw [hwords] at hsp frame hcap hevents
  simp only [answered_reg, answered_dir, addr_pushed] at hcells
  have hdisp : u.reg .sp = disp s .sp (cs.length + 1) := by rw [hsp, disp_answered, Nat.cast_succ]
  refine ⟨u, ?_, hdisp, ?_, fun j hj => ?_, frame.host, frame.waiting, { frame with host := rfl, waiting := rfl }, hcap, ?_⟩
  · rw [exec_trap ht, trapOp, promptCharArray_of_answer hanswer]
    exact congrArg Res.outcome hu
  · simpa using hcells 0 (by omega)
  · have hplace : fromTop u (-(j : Int)) = fromTop s (((cs.length - 1 - j + 1 : Nat) : Int) + 1) := by
      have hdir : u.dir = s.dir := frame.dir
      rw [fromTop, fromTop, disp_disp hdisp hdir]
      congr 2
      omega
    rw [hplace, hcells _ (by omega), List.getElem_cons_succ, List.getElem_reverse]
    congr 1
    omega
  · rw [hevents]
    congr 1
    exact List.flatMap_congr fun j _ => (pushEvents_neg s j).symm

/-- A prompt's TRAP is the meaning of the step that waits at it; where that waits on, TRAP waits and the step stays. -/
theorem prompt_waits {o : TrapOp} {p : Prompt} {s : State} {t : Word} {noAnswer : Prop} (hrun : s.rs = .running)
    (hop : (trapOp o s).outcome = .next (resume p s)) (hwait : noAnswer → resume p s = { s with waiting := some p })
    (ht : trapOf s.params.traps t = some o) :
    (noAnswer → exec (.trap t) s = .next { s with waiting := some p } ∧ (s.waiting = some p → step s = .next s)) ∧
      (s.waiting = some p → step s = exec (.trap t) s) := by
  rw [exec_trap ht, hop]
  refine ⟨fun h => ⟨by rw [hwait h], fun hw => ?_⟩, step_of_waiting hrun⟩
  rw [step_of_waiting hrun hw, hwait h, ← hw]

/-- Settles O8 (`prompt_waits`). -/
theorem promptWaitsForTheHost : Obligations.PromptWaitsForTheHost := by
  intro s t hrun
  exact ⟨prompt_waits hrun rfl fun h => congrArg Res.state (promptInt_of_nil h),
    prompt_waits hrun rfl fun h => congrArg Res.state (promptChar_of_nil h),
    prompt_waits hrun rfl fun h => congrArg Res.state (promptCharArray_of_nil h)⟩

theorem trapOf_eq_none_iff {m : TrapMap} {t : Word} : trapOf m t = none ↔ sint t ∉ allTrapOps.map m.number := by
  simp [trapOf, List.find?_eq_none]

/-- Settles O50: a number is unknown iff it is not one of those the map gives (`trapOf_eq_none_iff`). -/
theorem unknownTrapIsDiagnosed : Obligations.UnknownTrapIsDiagnosed := by
  refine ⟨fun s t h => ⟨_, execTrap_none h, ⟨rfl, ?_⟩, rfl, rfl⟩, fun t => trapOf_eq_none_iff⟩
  exact { Unchanged.refl s with }

end Sys2Proof.Machine
end

section
/-! PROOFS. TRAP: the file service (O45 to O49, O51). -/

namespace Sys2Proof.Machine

open Sys2Proof Sys2Proof.Claims

/-- Settles O51: neither bound can be reached (`popsLeft_le`). -/
theorem popStringAlwaysEnds : Obligations.PopStringAlwaysEnds := by
  intro s extra
  have hle := popsLeft_le s
  exact popStringUpTo_eq_of_popsLeft_le (by omega) (by omega)

/-- Either open, where the host opens the file: the store it leaves, and the push of the handle entered. -/
theorem trapOp_open {sp : Word} {as : List Int} {r s t : State} {cs : FileName} {p : TrapOp × Stream}
    (hp : p ∈ [(TrapOp.fileOpenRead, Stream.reader cs 0), (.fileOpenWrite, .writer cs)])
    (hpop : popString r = .done cs t) (popped : Popped sp as s t) (hf : s.fileServiceFails = false)
    (hfile : p.1 = .fileOpenRead → (fileGet s.host.files cs).isSome) :
    ∃ host : HostState,
      trapOp p.1 r = push (word (firstFree s.handles))
        (t.outside host (sparseSet s.handles (firstFree s.handles) p.2)) ∧
      fileGet host.files cs = (if p.1 = .fileOpenWrite then some [] else fileGet s.host.files cs) ∧
      (∀ n, n ≠ cs → fileGet host.files n = fileGet s.host.files n) ∧
      { host with files := s.host.files } = calledHost s := by
  rcases List.mem_pair.1 hp with rfl | rfl
  · exact ⟨calledHost s, openHandle_read hpop popped hf (hfile rfl), rfl, fun _ _ => rfl, rfl⟩
  · refine ⟨storedHost cs [] s, openHandle_write hpop popped hf, ?_, fun n hn => ?_, rfl⟩
    · rw [storedHost, fileGet_filePut, if_pos rfl, if_pos rfl]
    · rw [storedHost, fileGet_filePut, if_neg hn]

/-- Settles O45: the name is popped (`popString_popped`), then the smallest free handle (`firstFree_spec`) is entered and pushed
(`trapOp_open`). -/
theorem fileOpenPushesTheSmallestFreeHandle : Obligations.FileOpenPushesTheSmallestFreeHandle := by
  intro s t cs hname hadm hf
  obtain ⟨hfree, hbelow⟩ := firstFree_spec s.handles
  refine ⟨firstFree s.handles, hfree, hbelow, fun p hp ht hfile => ?_⟩
  obtain ⟨r, hr, popped⟩ := popString_popped hname (admits_of_append hadm)
  have hplace : (1 : Int) - (cs.length + 1 : Nat) = -(cs.length : Int) := by omega
  obtain ⟨host, hop, hcs, hothers, hcalled⟩ := trapOp_open hp hr popped hf hfile
  obtain ⟨u, hu, hcell, v⟩ := popped.served_push (n := cs.length + 1) (nameAddrs_length ..) (word (firstFree s.handles))
    host (sparseSet s.handles (firstFree s.handles) p.2) (by rw [hplace]; exact hadm)
  rw [hplace] at hcell v
  refine ⟨u, by rw [exec_trap ht, hop, hu, outcome_done], v.sp, ?_, ?_, fun j hj => ?_, ?_, ?_, ?_, v.unchanged, v.cap, ?_⟩
  · rw [topAddr, v.sp]
    exact hcell
  · rw [v.handles, sparseGet_sparseSet, if_pos rfl]
  · rw [v.handles, sparseGet_sparseSet, if_neg hj]
  · rw [v.host, hcs]
  · rw [v.host]
    exact hothers
  · rw [v.host, hcalled]
  · rw [v.events, List.append_assoc, Nat.cast_succ]

theorem readWord_of_some {bs : List Byte} {pos : Nat} {b : Byte} (h : bs[pos]? = some b) :
    readWord bs pos = b.zeroExtend 32 ∧ nextPosition bs pos = pos + 1 := by
  obtain ⟨hlt, -⟩ := List.getElem?_eq_some_iff.1 h
  rw [readWord, h, nextPosition, if_pos hlt]
  exact ⟨rfl, rfl⟩

theorem readWord_of_none {bs : List Byte} {pos : Nat} (h : bs[pos]? = none) :
    readWord bs pos = 0xFFFFFFFF ∧ nextPosition bs pos = pos := by
  have hle := List.getElem?_eq_none_iff.1 h
  rw [readWord, h, nextPosition, if_neg (not_lt.2 hle)]
  exact ⟨rfl, rfl⟩

/-- Settles O46: one pop, and the push in its place of what the stream gives. -/
theorem fileReadPushesTheNextByte : Obligations.FileReadPushesTheNextByte := by
  intro s t name pos ht hadm hst hf bs h
  obtain ⟨r, hr, popped⟩ := pop_top (admits_of_append (as := [topAddr s]) hadm)
  have hplace : fromTop s (1 - ((1 : Nat) : Int)) = topAddr s := fromTop_zero s
  obtain ⟨u, hu, hcell, v⟩ := popped.served_push (n := 1) rfl (readWord bs pos) (calledHost s)
    (sparseSet s.handles h (.reader name (nextPosition bs pos))) (by rw [hplace]; exact hadm)
  rw [hplace] at hcell v
  have hhandle : sparseGet u.handles h = some (.reader name (nextPosition bs pos)) := by
    rw [v.handles, sparseGet_sparseSet, if_pos rfl]
  have hsp : u.reg .sp = s.reg .sp := v.sp.trans (disp_zero s .sp)
  refine ⟨u, ?_, fun b hb => ?_, fun hend => ?_, fun j hj => ?_, v.host, v.unchanged.of_regs_eq ?_, v.cap, ?_⟩
  · rw [exec_trap ht, trapOp, readHandle_of_reader hr popped hst hf, hu, outcome_done]
  · obtain ⟨hword, hnext⟩ := readWord_of_some hb
    exact ⟨hcell.trans hword, by rw [hhandle, hnext]⟩
  · obtain ⟨hword, hnext⟩ := readWord_of_none hend
    exact ⟨hcell.trans hword, by rw [hhandle, hnext]⟩
  · rw [v.handles, sparseGet_sparseSet, if_neg hj]
  · rw [List.forall_mem_singleton]
    exact hsp
  · rw [v.events, List.append_assoc]
    rfl

/-- The low 8 bits of a word. -/
theorem truncate_eight (w : Word) : w.truncate 8 = BitVec.ofNat 8 (uint w % 256) := by
  apply BitVec.eq_of_toNat_eq
  simp

/-- Settles O47: two pops, then the push of the status. -/
theorem fileWriteAppendsOneByte : Obligations.FileWriteAppendsOneByte := by
  intro s t name ht hadm hst hf
  obtain ⟨q, r, hq, hr, popped⟩ := pop_pop (admits_of_append (as := [topAddr s, fromTop s (-1)]) hadm)
  obtain ⟨u, hu, hcell, v⟩ := popped.served_push (n := 2) rfl 0
    (storedHost name ((fileGet s.host.files name).getD [] ++ [(s.cell (fromTop s (-1))).truncate 8]) s) s.handles hadm
  refine ⟨u, ?_, v.sp, hcell, ?_, fun n hn => ?_, ?_, v.unchanged_handles, v.cap, ?_⟩
  · rw [exec_trap ht, trapOp, writeHandle_of_writer hq hr popped hst hf, hu, outcome_done]
  · rw [v.host, storedHost, fileGet_filePut, if_pos rfl, truncate_eight]
  · rw [v.host, storedHost, fileGet_filePut, if_neg hn]
  · rw [v.host]
    rfl
  · rw [v.events, List.append_assoc]
    rfl

/-- Settles O48: the pop, and the handle erased whatever the host reports. -/
theorem fileCloseRemovesTheHandle : Obligations.FileCloseRemovesTheHandle := by
  intro s t st ht hadm hst
  obtain ⟨r, hr, popped⟩ := pop_top hadm
  have v := popped.served
    { calledHost s with diags := s.host.diags ++ if s.fileServiceFails then [.ioError (s.cell (topAddr s))] else [] }
    (sparseErase s.handles (sint (s.cell (topAddr s))).toNat)
  refine ⟨_, ?_, v.sp, ?_, fun j hj => ?_, v.host, v.unchanged, v.cap, v.events⟩
  · rw [exec_trap ht, trapOp, closeHandle_of_some hr popped hst, outcome_done]
  · rw [State.stream, v.handles, sparseGet_sparseErase, if_pos rfl, ite_self]
  · rw [v.handles, sparseGet_sparseErase, if_neg hj]

/-- A service that ends in a diagnostic is a file error as O49 says it. -/
theorem fileError_of_served {t sp : Word} {as : List Int} {evs : List ChangeEvent} {host : HostState} {o : TrapOp}
    {s u : State} (ht : trapOf s.params.traps t = some o) (hop : trapOp o s = .done () u)
    (v : Served sp [] as evs host s.handles s u) :
    ∃ u, exec (.trap t) s = .next u ∧ u.reg .sp = sp ∧ u.host = host ∧ Unchanged [.sp] [] [] s { u with host := s.host } ∧
      u.cap = s.capAfter as ∧ u.events = s.events ++ evs :=
  ⟨u, by rw [exec_trap ht, hop, outcome_done], v.sp, v.host, v.unchanged_handles, v.cap, v.events⟩

/-- Settles O49: behind its pops each failed service is one diagnostic (`Popped.diagnosed`, `Popped.diagnosed_call`). -/
theorem fileErrorsAreDiagnosed : Obligations.FileErrorsAreDiagnosed := by
  refine ⟨fun s t => ⟨fun hadm => ?_, fun hadm ht => ?_⟩, fun s t cs hname hadm hfails => ?_⟩
  · obtain ⟨r, hr, p⟩ := pop_top hadm
    refine ⟨fun ht hst => ?_, fun n ht hst => ?_, fun n pos ht hst hf => ?_⟩
    · rcases ht with ht | ht
      · exact fileError_of_served ht (readHandle_of_none hr p hst) (p.diagnosed _)
      · exact fileError_of_served ht (closeHandle_of_none hr p hst) (p.diagnosed _)
    · exact fileError_of_served ht (readHandle_of_writer hr p hst) (p.diagnosed _)
    · exact fileError_of_served ht (readHandle_of_fails hr p hst hf) (p.diagnosed_call _)
  · obtain ⟨q, r, hq, hr, p⟩ := pop_pop hadm
    refine ⟨fun hst => ?_, fun n pos hst => ?_, fun n hst hf => ?_⟩
    · exact fileError_of_served ht (writeHandle_of_none hq hr p hst) (p.diagnosed _)
    · exact fileError_of_served ht (writeHandle_of_reader hq hr p hst) (p.diagnosed _)
    · exact fileError_of_served ht (writeHandle_of_fails hq hr p hst hf) (p.diagnosed_call _)
  · obtain ⟨r, hr, p⟩ := popString_popped hname hadm
    have v := p.diagnosed_call (.fileNotFound cs)
    rw [nameAddrs_length] at v
    rcases hfails with ⟨ht, hf | hmissing⟩ | ⟨ht, hf⟩
    · exact fileError_of_served ht (openHandle_of_fails hr p hf) v
    · exact fileError_of_served ht (openHandle_read_missing hr p hmissing) v
    · exact fileError_of_served ht (openHandle_of_fails hr p hf) v

end Sys2Proof.Machine
end

section
/-! SUPPORT. Refused accesses (60_exceptions.md R195, R196): `RefusedAt` says that a stretch of pseudocode ends at one
behind a read phase, with one rule for each operation that makes an access. -/

namespace Sys2Proof.Machine

open Sys2Proof Sys2Proof.Claims

/-- The stretch `r` ends at a refused access to `a`; before it there was a read phase from `s` on. -/
def RefusedAt {α : Type} (r : Res α) (a : Int) (q : Word) (as : List Int) (evs : List ChangeEvent) (s : State) : Prop :=
  ∃ t, r = raise (.addressFault a s.ia) t ∧ ReadPhase q as evs s t

section
variable {q : Word} {as : List Int} {evs : List ChangeEvent} {s t : State} {a : Int}

/-- What would come after a refused access does not run. -/
theorem RefusedAt.bind {α β : Type} {r : Res α} (h : RefusedAt r a q as evs s) (k : α → State → Res β) :
    RefusedAt (r.bind k) a q as evs s := by
  obtain ⟨t, hr, p⟩ := h
  exact ⟨t, by rw [hr, bind_raise], p⟩

theorem ReadPhase.memRead_refused (p : ReadPhase q as evs s t) (h : s.admits as = true)
    (hr : s.admits (as ++ [a]) = false) : RefusedAt (Machine.memRead a t) a q as evs s :=
  ⟨t, by rw [Machine.memRead_refused (p.refused h hr), p.unchanged.ia], p⟩

theorem ReadPhase.memWrite_refused (p : ReadPhase q as evs s t) (v : Word) (h : s.admits as = true)
    (hr : s.admits (as ++ [a]) = false) : RefusedAt (Machine.memWrite a v t) a q as evs s :=
  ⟨t, by rw [Machine.memWrite_refused v (p.refused h hr), p.unchanged.ia], p⟩

theorem ReadPhase.pop_refused (p : ReadPhase q as evs s t) (h : s.admits as = true)
    (hr : s.admits (as ++ [sint q]) = false) : RefusedAt (Machine.pop t) (sint q) q as evs s := by
  rw [Machine.pop, p.sp]
  exact (p.memRead_refused h hr).bind _

/-- A refused push has moved SP. -/
theorem ReadPhase.push_refused (p : ReadPhase (s.reg .sp) as evs s t) (v : Word) (h : s.admits as = true)
    (hr : s.admits (as ++ [fromTop s 1]) = false) :
    RefusedAt (Machine.push v t) (fromTop s 1) (disp s .sp 1) as (evs ++ [regEvent s .sp (disp s .sp 1)]) s := by
  have moved := p.setSp (disp s .sp 1)
  have hpush : Machine.push v t = Machine.memWrite (fromTop s 1) v (setReg .sp (disp s .sp 1) t) := by
    rw [Machine.push, adjust, disp_congr p.sp p.dir, moved.sp, fromTop]
  rw [hpush]
  exact moved.memWrite_refused v h hr

variable {i : Instr}

/-- An instruction that ends at a refused access leaves the effects before it. -/
theorem stopsAfter_of_refusedAt {r : Res Unit} (hexec : exec i s = r.outcome)
    (hr : s.admits as = true → s.admits (as ++ [a]) = false → RefusedAt r a q as evs s) : StopsAfter i s as a q evs := by
  intro hdone hrefused
  obtain ⟨t, hraise, p⟩ := hr hdone hrefused
  exact ⟨_, by rw [hexec, hraise, outcome_raise], faultTaken_of_unchanged p.unchanged, p.sp, p.cap, p.events⟩

/-- The same behind a pop. -/
theorem stopsAfter_pop {k : Word → State → Res Unit} (hexec : exec i s = ((pop s).bind k).outcome)
    (hr : ∀ t, ReadPhase (disp s .sp (-1)) [topAddr s] [regEvent s .sp (disp s .sp (-1))] s t →
      s.admits [topAddr s] = true → s.admits [topAddr s, a] = false →
      RefusedAt (k (s.cell (topAddr s)) t) a (disp s .sp (-1)) [topAddr s] [regEvent s .sp (disp s .sp (-1))] s) :
    StopsAfter i s [topAddr s] a (disp s .sp (-1)) [regEvent s .sp (disp s .sp (-1))] := by
  refine stopsAfter_of_refusedAt hexec fun hdone hrefused => ?_
  obtain ⟨t, ht, p⟩ := pop_readPhase hdone
  rw [ht, bind_done]
  exact hr t p hdone hrefused

/-- An instruction that begins with a refused access to the top word faults at once (R202). -/
theorem faultsAtOnce_of_refusedTop {α : Type} {r : Res α} {k : α → State → Res Unit}
    (hr : r = raise (.addressFault (topAddr s) s.ia) s) (hexec : exec i s = (r.bind k).outcome) :
    FaultsAtOnce i s (.addressFault (topAddr s) s.ia) :=
  faultsAtOnce_of_raise (by rw [hexec, hr, bind_raise, outcome_raise])

/-- A count that is not refused is no effect. -/
theorem checkCount_bind_ok {β : Type} {least : Int} {n : Word} (h : least ≤ sint n) (s : State)
    (k : Unit → State → Res β) : (checkCount least n s).bind k = k () s := by
  rw [checkCount_ok s h, bind_done]

end

end Sys2Proof.Machine
end

section
/-! PROOFS. Instructions that meet a refused access (O11, O12). -/

namespace Sys2Proof.Machine

open Sys2Proof Sys2Proof.Claims

/-- Settles O11: each instruction's pseudocode begins with a pop, with a pop behind a count check, or with a read of the top
word, and FILE_OPEN with the pop of a name (`faultsAtOnce_of_refusedTop`). -/
theorem refusedTopFaultsAtOnce : Obligations.RefusedTopFaultsAtOnce := by
  intro s k n x hrefused hn
  rw [admits_singleton] at hrefused
  have pops {i : Instr} {next : Word → State → Res Unit} (hexec : exec i s = ((pop s).bind next).outcome) :
      FaultsAtOnce i s (.addressFault (topAddr s) s.ia) :=
    faultsAtOnce_of_refusedTop (pop_refused hrefused) hexec
  have counts {i : Instr} {next : Word → State → Res Unit}
      (hexec : exec i s = ((checkCount 0 n s).bind fun _ t => (pop t).bind next).outcome) :
      FaultsAtOnce i s (.addressFault (topAddr s) s.ia) :=
    pops (hexec.trans (congrArg Res.outcome (checkCount_bind_ok hn s _)))
  have reads {i : Instr} {next : Word → State → Res Unit}
      (hexec : exec i s = ((memRead (topAddr s) s).bind next).outcome) :
      FaultsAtOnce i s (.addressFault (topAddr s) s.ia) :=
    faultsAtOnce_of_refusedTop (memRead_refused hrefused) hexec
  refine ⟨?_, fun t ht => ?_⟩
  · simp only [List.forall_mem_cons]
    exact ⟨pops rfl, pops rfl, pops rfl, pops rfl, pops rfl, pops rfl, pops rfl, pops rfl, pops rfl, pops rfl, pops rfl,
      pops rfl, pops rfl, pops rfl, pops rfl, pops rfl, pops rfl, pops rfl, pops rfl,
      pops rfl, pops rfl, pops rfl, pops rfl, pops rfl, pops rfl, pops rfl, pops rfl, pops rfl, pops rfl, pops rfl,
      pops rfl, pops rfl, pops rfl, pops rfl,
      counts rfl, pops rfl, counts rfl, pops rfl, pops (exec_str x s), reads (exec_swp s), reads (exec_swpr x s), pops rfl,
      pops rfl, counts rfl, List.forall_mem_nil _⟩
  · have names {m : Mode} (hexec : exec (.trap t) s = (openHandle m s).outcome) :
        FaultsAtOnce (.trap t) s (.addressFault (topAddr s) s.ia) :=
      faultsAtOnce_of_refusedTop (popString_refused hrefused) hexec
    simp only [List.mem_cons, List.not_mem_nil, or_false] at ht
    rcases ht with ht | ht | ht | ht | ht | ht | ht
    · exact pops (exec_trap ht)
    · exact pops (exec_trap ht)
    · exact names (exec_trap ht)
    · exact names (exec_trap ht)
    · exact pops (exec_trap ht)
    · exact pops (exec_trap ht)
    · exact pops (exec_trap ht)

/-- The second pop (00_scope.md R13). -/
theorem secondPop_stops {i : Instr} {s : State} {k : Word → Word → State → Res Unit}
    (hexec : exec i s = ((pop s).bind fun w t => (pop t).bind (k w)).outcome) :
    StopsAfter i s [topAddr s] (fromTop s (-1)) (disp s .sp (-1)) [regEvent s .sp (disp s .sp (-1))] :=
  stopsAfter_pop hexec fun _ p h hr => (p.pop_refused h hr).bind _

/-- The second read of SWP (R162): SP is where it was. -/
theorem swp_stops (s : State) : StopsAfter .swp s [topAddr s] (fromTop s (-1)) (s.reg .sp) [] := by
  refine stopsAfter_of_refusedAt (exec_swp s) fun h hr => ?_
  obtain ⟨t, ht, p⟩ := (ReadPhase.start s).memRead h
  rw [ht, bind_done]
  exact (p.memRead_refused h hr).bind _

/-- The read of LDA and LDH through the popped word (R150, R171). -/
theorem loadThroughTop_stops {i : Instr} {s : State} {src : State → Word → Int}
    (hexec : exec i s = ((pop s).bind fun w t => (memRead (src t w) t).bind fun v u => push v u).outcome)
    (hsrc : ∀ t w, t.dir = s.dir → src t w = src s w) :
    StopsAfter i s [topAddr s] (src s (s.cell (topAddr s))) (disp s .sp (-1)) [regEvent s .sp (disp s .sp (-1))] := by
  refine stopsAfter_pop hexec fun t p h hr => ?_
  rw [hsrc t _ p.dir]
  exact (p.memRead_refused h hr).bind _

/-- The write of STS and STL behind the pop (R144, R148). -/
theorem popInto_stops {i : Instr} {s : State} {dst : Int}
    (hexec : exec i s = ((pop s).bind fun v t => memWrite dst v t).outcome) :
    StopsAfter i s [topAddr s] dst (disp s .sp (-1)) [regEvent s .sp (disp s .sp (-1))] :=
  stopsAfter_pop hexec fun _ p h hr => p.memWrite_refused _ h hr

/-- The write of STA behind both pops (R152). -/
theorem sta_stops (k : Word) (s : State) :
    StopsAfter (.sta k) s [topAddr s, fromTop s (-1)] (addr (sint (s.cell (topAddr s)) + sint k * s.dir)) (disp s .sp (-2))
      [regEvent s .sp (disp s .sp (-1)), .reg .sp (disp s .sp (-1)) (disp s .sp (-2))] := by
  have hexec : exec (.sta k) s = ((pop s).bind fun w t => (pop t).bind fun v u =>
      memWrite (addr (sint w + sint k * u.dir)) v u).outcome := rfl
  refine stopsAfter_of_refusedAt hexec fun h hr => ?_
  obtain ⟨t, u, ht, hu, popped⟩ := pop_pop h
  have p := popped.readPhase
  have hevents : popsEvents s 2 =
      [regEvent s .sp (disp s .sp (-1)), .reg .sp (disp s .sp (-1)) (disp s .sp (-2))] := by
    simp [popsEvents, regEvent, List.range_succ]
  rw [ht, bind_done, hu, bind_done, p.dir, ← hevents]
  exact p.memWrite_refused _ h hr

/-- The write of STH to the heap behind the pop (R169). -/
theorem sth_stops (s : State) :
    StopsAfter .sth s [topAddr s] (sint (s.reg .hp)) (disp s .sp (-1)) [regEvent s .sp (disp s .sp (-1))] := by
  refine stopsAfter_pop (exec_sth s) fun t p h hr => ?_
  rw [p.unchanged.regs .hp (by decide)]
  exact (p.memWrite_refused _ h hr).bind _

/-- The source read of LDS and LDL, and the push behind it (R142, R146). -/
theorem pushCell_stops {i : Instr} {s : State} {src : Int}
    (hexec : exec i s = ((memRead src s).bind fun v t => push v t).outcome) :
    StopsAfter i s [] src (s.reg .sp) [] ∧
      StopsAfter i s [src] (fromTop s 1) (disp s .sp 1) [regEvent s .sp (disp s .sp 1)] := by
  have start := ReadPhase.start s
  refine ⟨stopsAfter_of_refusedAt hexec fun h hr => (start.memRead_refused h hr).bind _,
    stopsAfter_of_refusedAt hexec fun h hr => ?_⟩
  obtain ⟨t, ht, p⟩ := start.memRead h
  rw [ht, bind_done]
  exact p.push_refused _ h hr

/-- The pop of UNLINK: SP has moved to MP (R166). -/
theorem unlink_stops (s : State) :
    StopsAfter .unlink s [] (sint (s.reg .mp)) (s.reg .mp) [regEvent s .sp (s.reg .mp)] := by
  have hexec : exec .unlink s =
      ((pop (setReg .sp (s.reg .mp) s)).bind fun v t => .done () (setReg .mp v t)).outcome := rfl
  exact stopsAfter_of_refusedAt hexec fun h hr => (((ReadPhase.start s).setSp (s.reg .mp)).pop_refused h hr).bind _

/-- Settles O12: one of the shapes above for each instruction, or a push at the start. -/
theorem refusedAccessLeavesPartialEffects : Obligations.RefusedAccessLeavesPartialEffects := by
  intro s k x pop1 pop2 src
  have pushed (v : Word) (h : s.admits [] = true) (hr : s.admits [fromTop s 1] = false) :
      RefusedAt (push v s) (fromTop s 1) (disp s .sp 1) [] [regEvent s .sp (disp s .sp 1)] s :=
    (ReadPhase.start s).push_refused v h hr
  refine ⟨?_, ?_, swp_stops s, ?_, ?_, popInto_stops rfl, popInto_stops rfl, sta_stops k s, sth_stops s, ?_,
    unlink_stops s, fun t ht => secondPop_stops (exec_trap ht)⟩
  · simp only [List.forall_mem_cons]
    exact ⟨stopsAfter_of_refusedAt rfl (pushed _), stopsAfter_of_refusedAt rfl (pushed _),
      stopsAfter_of_refusedAt rfl (pushed _), stopsAfter_of_refusedAt (exec_ldr x s) (pushed _),
      stopsAfter_of_refusedAt rfl fun h hr => (pushed _ h hr).bind _,
      stopsAfter_of_refusedAt rfl fun h hr => (pushed _ h hr).bind _, List.forall_mem_nil _⟩
  · intro i hi
    simp only [List.mem_cons, List.not_mem_nil, or_false] at hi
    rcases hi with rfl | rfl | rfl | rfl | rfl | rfl | rfl | rfl | rfl | rfl | rfl | rfl | rfl | rfl | rfl | rfl | rfl |
      rfl | rfl | rfl
    all_goals exact secondPop_stops rfl
  · exact loadThroughTop_stops (src := fun t w => addr (sint w + sint k * t.dir)) rfl fun t w hdir => by rw [hdir]
  · exact loadThroughTop_stops (src := fun _ w => addr (sint w + sint k)) rfl fun _ _ _ => rfl
  · intro p hp
    rcases List.mem_pair.1 hp with rfl | rfl
    · exact pushCell_stops rfl
    · exact pushCell_stops rfl

end Sys2Proof.Machine
end

section
/-! SUPPORT. FETCH and OPERANDS (10_state.md R47) as far as they come: behind the opcode word, and up to a refused operand
word. -/

namespace Sys2Proof.Machine

open Sys2Proof Sys2Proof.Claims

/-- Reading words from PC on moves PC only. -/
theorem unchanged_advanced (n : Nat) (vs : List View) (s : State) : Unchanged [.pc] [] [] s (advanced n vs s) where
  params := advanced_params n vs s
  regs r hr := regsGet_regsSet s.regs .pc r _ |>.trans (if_neg (by simpa using hr))
  cells a _ := congrFun (advanced_cell n vs s) a
  anns a _ := touchAll_annotationAt (blockAddrs (sint (s.reg .pc)) 1 n) s a
  ir := touchAll_ir _ s
  ops := touchAll_ops _ s
  ia := touchAll_ia _ s
  rs := touchAll_rs _ s
  waiting := touchAll_waiting _ s
  handles := touchAll_handles _ s
  host := touchAll_host _ s

/-- What reading `n` words from PC on did, from `s` to `t`, latches and listeners apart. -/
structure ReadCode (n : Nat) (s t : State) : Prop where
  pc : t.reg .pc = word (sint (s.reg .pc) + n)
  unchanged : Unchanged [.pc] [] [] s t
  cap : t.cap = s.capAfter (blockAddrs (sint (s.reg .pc)) 1 n)
  events : t.events = s.events ++ (List.range n).map fun (j : Nat) =>
    .reg .pc (word (sint (s.reg .pc) + j)) (word (sint (s.reg .pc) + j + 1))

theorem advanced_readCode (n : Nat) (vs : List View) (s : State) : ReadCode n s (advanced n vs s) where
  pc := rfl
  unchanged := unchanged_advanced n vs s
  cap := advanced_cap n vs s
  events := rfl

/-- Where the opcode word is admitted, PC is one on, and the record found decides how the fetch goes on. -/
theorem fetch_of_lookup_none {s : State} (h : s.admits [sint (s.reg .pc)] = true)
    (hl : lookup s.params.opcodes (s.cell (sint (s.reg .pc))) = none) :
    ∃ v, fetch s =
      .stopped (substituteHalt (sint (s.reg .pc)) (s.cell (sint (s.reg .pc))) (advanced 1 [v] s)) := by
  rw [admits_singleton] at h
  obtain ⟨v, hv, -⟩ := advancePc_touch s
  exact ⟨v, by simp only [fetch, memRead_eq h, bind_done, hv, advanced_params, hl]⟩

theorem fetch_of_lookup_some {s : State} {r : InstrRecord} (h : s.admits [sint (s.reg .pc)] = true)
    (hl : lookup s.params.opcodes (s.cell (sint (s.reg .pc))) = some r) :
    ∃ v, fetch s = (fetchOperands r.operandCount (latch r (sint (s.reg .pc)) (advanced 1 [v] s))).bind fun _ t =>
      .done (assemble r.mnemonic t.ops) t := by
  rw [admits_singleton] at h
  obtain ⟨v, hv, -⟩ := advancePc_touch s
  exact ⟨v, by simp only [fetch, memRead_eq h, bind_done, hv, advanced_params, hl]⟩

theorem Res.bind_assoc {α β γ : Type} (r : Res α) (k : α → State → Res β) (l : β → State → Res γ) :
    (r.bind k).bind l = r.bind fun a t => (k a t).bind l := by
  cases r with
  | done a s => rfl
  | stopped s => rfl

/-- OPERANDS takes its words one after the other. -/
theorem fetchOperands_add (j m : Nat) (s : State) :
    fetchOperands (j + m) s = (fetchOperands j s).bind fun _ t => fetchOperands m t := by
  induction j generalizing s with
  | zero => rw [Nat.zero_add, fetchOperands, bind_done]
  | succ j ih =>
    rw [Nat.succ_add, fetchOperands, fetchOperands, Res.bind_assoc]
    congr 1
    funext w t
    exact ih _

theorem blockAddrs_succ_last (b stride : Int) (n : Nat) :
    blockAddrs b stride (n + 1) = blockAddrs b stride n ++ [addr (b + n * stride)] := by
  simp [blockAddrs, List.range_succ]

/-- Accesses in two parts, where `t` has the capacity that the first part left. -/
theorem admits_append_of_capAfter {as : List Int} {s t : State} (hp : t.params = s.params) (hc : t.cap = s.capAfter as)
    (bs : List Int) : s.admits (as ++ bs) = (s.admits as && t.admits bs) := by
  rw [admits_append, admits_congr (s := touchAll as s) (t := t) (by simp [hp]) (by simp [hc])]

/-- The words of the code: the opcode word, then the words behind it. -/
theorem codeAddrs_eq_append (w : View) (s : State) (n : Nat) :
    codeAddrs s n = [sint (s.reg .pc)] ++ blockAddrs (sint ((advanced 1 [w] s).reg .pc)) 1 n := by
  rw [codeAddrs, blockAddrs_succ, addr_sint_add, blockAddrs_advanced_one, List.singleton_append]

theorem admits_codeAddrs (w : View) (s : State) (n : Nat) :
    s.admits (codeAddrs s n) =
      (s.admits [sint (s.reg .pc)] && (advanced 1 [w] s).admits (blockAddrs (sint ((advanced 1 [w] s).reg .pc)) 1 n)) := by
  rw [codeAddrs_eq_append w]
  refine admits_append_of_capAfter (advanced_params 1 [w] s) ?_ _
  rw [advanced_cap, blockAddrs_succ, addr_sint_add, blockAddrs_zero]

/-- OPERANDS where operand word `j` is the first that is refused: the words before it are latched. -/
theorem fetchOperands_refused {j n : Nat} {s : State} (hj : j < n)
    (h : s.admits (blockAddrs (sint (s.reg .pc)) 1 j) = true)
    (hr : s.admits (blockAddrs (sint (s.reg .pc)) 1 (j + 1)) = false) :
    ∃ vs, fetchOperands n s = raise (.addressFault (addr (sint (s.reg .pc) + j)) s.ia)
      (withOps (s.ops ++ (blockAddrs (sint (s.reg .pc)) 1 j).map s.cell) (advanced j vs s)) := by
  obtain ⟨m, rfl⟩ := Nat.exists_eq_add_of_lt hj
  obtain ⟨vs, -, hfetch⟩ := fetchOperands_eq h
  refine ⟨vs, ?_⟩
  rw [Nat.add_assoc, fetchOperands_add, hfetch, bind_done, fetchOperands]
  generalize hu : withOps (s.ops ++ (blockAddrs (sint (s.reg .pc)) 1 j).map s.cell) (advanced j vs s) = u
  have hpc : sint (u.reg .pc) = addr (sint (s.reg .pc) + j) := hu ▸ rfl
  have hia : u.ia = s.ia := hu ▸ (unchanged_advanced j vs s).ia
  have hrefused : u.admitsAddr (addr (sint (s.reg .pc) + j)) = false := by
    rw [blockAddrs_succ_last, mul_one,
      admits_append_of_capAfter (t := u) (hu ▸ advanced_params j vs s) (hu ▸ advanced_cap j vs s), h, Bool.true_and,
      admits_singleton] at hr
    exact hr
  rw [hpc, memRead_refused hrefused, hia, bind_raise]

/-- FETCH where operand word `j` of a known opcode is the first that is refused. -/
theorem fetch_refusedOperand {s : State} {r : InstrRecord} {j : Nat} (hj : j < r.operandCount)
    (h : s.admits (codeAddrs s j) = true) (hl : lookup s.params.opcodes (s.cell (sint (s.reg .pc))) = some r)
    (hr : s.admits (codeAddrs s (j + 1)) = false) :
    ∃ vs, fetch s = .stopped (enterFault (.addressFault (addr (sint (s.reg .pc) + 1 + j)) (sint (s.reg .pc)))
      (withOps ((codeAddrs s j).tail.map s.cell) (latch r (sint (s.reg .pc)) (advanced (j + 1) vs s)))) := by
  have hopcode : s.admits [sint (s.reg .pc)] = true := by
    rw [codeAddrs, blockAddrs_succ, addr_sint_add] at h
    exact admits_of_append (as := [_]) h
  obtain ⟨v, hfetch⟩ := fetch_of_lookup_some hopcode hl
  rw [admits_codeAddrs v, hopcode, Bool.true_and] at h hr
  obtain ⟨vs, hoperands⟩ :=
    fetchOperands_refused (s := latch r (sint (s.reg .pc)) (advanced 1 [v] s)) hj h hr
  have haddr : addr (sint ((advanced 1 [v] s).reg .pc) + j) = addr (sint (s.reg .pc) + 1 + j) :=
    congrArg sint (word_sint_word_add _ _)
  refine ⟨v :: vs, ?_⟩
  rw [hfetch, hoperands, bind_raise, latch_reg, latch_ia, latch_ops, latch_cells, advanced_cell, haddr, advanced_latch,
    ← advanced_succ, codeAddrs_eq_append v]
  rfl

theorem diag_host_of_eq {s t : State} (d : Diag) (h : t.host = s.host) :
    (diag d t).host = { s.host with diags := s.host.diags ++ [d] } := by
  rw [diag_host, h]

/-- A step whose fetch stops ends there. -/
theorem step_of_fetch_stopped {s t : State} (hready : Ready s) (h : fetch s = .stopped t) : step s = .next t := by
  rw [step_of_ready hready.1 hready.2, withFetched, h]

end Sys2Proof.Machine
end

section
/-! PROOFS. A fetch that does not end in an instruction (O5, O7). -/

namespace Sys2Proof.Machine

open Sys2Proof Sys2Proof.Claims

/-- Settles O5: the fetch stops behind the opcode word, in `substituteHalt`. -/
theorem illegalOpcodeHaltsWithOneDiagnostic : Obligations.IllegalOpcodeHaltsWithOneDiagnostic := by
  intro s hready hadm hl
  obtain ⟨v, hfetch⟩ := fetch_of_lookup_none hadm hl
  obtain ⟨hpc, frame, hcap, hevents⟩ := advanced_readCode 1 [v] s
  generalize advanced 1 [v] s = t at hfetch hpc frame hcap hevents
  rw [blockAddrs_succ, addr_sint_add, blockAddrs_zero] at hcap
  refine ⟨_, step_of_fetch_stopped hready hfetch, rfl, hpc, diag_host_of_eq _ frame.host, ?_, rfl, rfl, hcap, ?_,
    { frame with ir := rfl, ops := rfl, ia := rfl, rs := rfl, host := rfl }⟩
  · exact congrArg (fun p : Params => some (recordOf p.opcodes .halt)) frame.params
  · exact hevents.trans (by simp [regEvent])

/-- Settles O7: the opcode word's access is the step's first, and `fetch_refusedOperand` gives the end state for an operand
word. -/
theorem refusedFetchFaults : Obligations.RefusedFetchFaults := by
  refine ⟨fun s hready hrefused => ?_, fun s r j hready hj hadm hl hrefused => ?_⟩
  · rw [admits_singleton] at hrefused
    have hfetch : fetch s = .stopped (enterFault (.addressFault (sint (s.reg .pc)) s.ia) s) := by
      rw [fetch, memRead_refused hrefused]
      rfl
    exact ⟨_, step_of_fetch_stopped hready hfetch, faultTaken_enterFault _ s, rfl, rfl⟩
  · obtain ⟨vs, hfetch⟩ := fetch_refusedOperand hj hadm hl hrefused
    obtain ⟨hpc, frame, hcap, hevents⟩ := advanced_readCode (j + 1) vs s
    generalize advanced (j + 1) vs s = t at hfetch hpc frame hcap hevents
    rw [Nat.cast_succ, add_comm (j : Int), ← add_assoc] at hpc
    exact ⟨_, step_of_fetch_stopped hready hfetch, hpc, rfl, rfl, rfl, hcap, hevents, rfl, diag_host_of_eq _ frame.host,
      { frame with ir := rfl, ops := rfl, ia := rfl, rs := rfl, host := rfl }⟩

end Sys2Proof.Machine
end

section
/-! PROOFS. The host between steps (O54). -/

namespace Sys2Proof.Machine

open Sys2Proof Sys2Proof.Claims

theorem betweenStepsOnly_of_waiting {α : Type} {s : State} (h : s.waiting ≠ none) (r : Option α) :
    betweenStepsOnly s r = none := by
  rw [betweenStepsOnly, State.betweenSteps, Option.isNone_eq_false_iff.2 (Option.isSome_iff_ne_none.2 h)]
  rfl

theorem betweenStepsOnly_of_idle {α : Type} {s : State} (h : s.waiting = none) (r : Option α) :
    betweenStepsOnly s r = r := by
  rw [betweenStepsOnly, State.betweenSteps, h]
  rfl

section
variable {s : State}

theorem hostSetReg_of_idle (h : s.waiting = none) (x : Reg) (v : Word) : hostSetReg x v s = some (setReg x v s) :=
  betweenStepsOnly_of_idle h _

/-- The state with one listener more, who has received no event yet. -/
def subscribed (s : State) : State :=
  { s with host := { s.host with subscribers := s.host.subscribers ++ [s.events.length] } }

theorem hostSubscribe_of_idle (h : s.waiting = none) : hostSubscribe s = some (subscribed s) :=
  betweenStepsOnly_of_idle h _

theorem hostGetMem_of_admits (h : s.waiting = none) {a : Int} (hadm : s.admitsAddr a = true) :
    hostGetMem a s = some (s.cell a, touch a s) := by
  rw [hostGetMem, betweenStepsOnly_of_idle h, memRead_eq hadm, refusedCall]

theorem hostSetMem_of_admits (h : s.waiting = none) {a : Int} (v : Word) (hadm : s.admitsAddr a = true) :
    hostSetMem a v s = some (written a v s) := by
  rw [hostSetMem, betweenStepsOnly_of_idle h, memWrite_eq v hadm, refusedCall, Option.map_some]

theorem hostGetMem_refused {a : Int} (hr : s.admitsAddr a = false) : hostGetMem a s = none := by
  rw [hostGetMem, memRead_refused hr, raise, refusedCall, betweenStepsOnly, ite_self]

theorem hostSetMem_refused {a : Int} (v : Word) (hr : s.admitsAddr a = false) : hostSetMem a v s = none := by
  rw [hostSetMem, memWrite_refused v hr, raise, refusedCall, Option.map_none, betweenStepsOnly, ite_self]

/-! ### What a new listener receives and sees (70_reset_and_hazards.md R224) -/

theorem received_of_subscriber {i n : Nat} (h : s.host.subscribers[i]? = some n) : received i s = s.events.drop n := by
  rw [received, h]

/-- Views are counted from the first listener's subscription on. -/
theorem seen_of_subscriber {first i n : Nat} {rest : List Nat} (hfirst : s.host.subscribers = first :: rest)
    (h : s.host.subscribers[i]? = some n) : seen i s = s.views.drop (n - first) := by
  rw [hfirst] at h
  rw [seen, hfirst, h]

/-- The new listener is the last one. -/
theorem subscribed_subscriber (s : State) :
    (subscribed s).host.subscribers[s.host.subscribers.length]? = some s.events.length :=
  List.getElem?_concat_length ..

/-- As many views as there were events since the first listener subscribed: none is left for a listener who
subscribes now. -/
theorem subscribed_first (h : s.Inv) :
    ∃ first rest, (subscribed s).host.subscribers = first :: rest ∧ s.events.length - first = s.views.length := by
  rw [h.views, State.viewsDue]
  cases hs : s.host.subscribers with
  | nil => exact ⟨_, [], by rw [subscribed, hs]; rfl, Nat.sub_self _⟩
  | cons first rest => exact ⟨first, _, by rw [subscribed, hs]; rfl, rfl⟩

/-- A register write right after the subscription is the first thing the new listener hears of. -/
theorem newListener_hears (h : s.Inv) (x : Reg) (v : Word) :
    received s.host.subscribers.length (setReg x v (subscribed s)) = [regEvent s x v] ∧
      seen s.host.subscribers.length (setReg x v (subscribed s)) = [(setReg x v (subscribed s)).view] := by
  obtain ⟨first, rest, hfirst, hcount⟩ := subscribed_first h
  have hheard (w : View) : (subscribed s).heard [w] = [w] := by
    rw [State.heard, hfirst, if_neg (List.cons_ne_nil _ _)]
  constructor
  · rw [received_of_subscriber (s := setReg x v (subscribed s)) (subscribed_subscriber s), setReg_events]
    exact List.drop_left
  · rw [seen_of_subscriber (s := setReg x v (subscribed s)) hfirst (subscribed_subscriber s), hcount, setReg_views, hheard]
    exact List.drop_left

end

/-- Settles O54: between steps each call is the engine's own operation, and while a prompt waits every call is refused. -/
theorem hostAccessesActBetweenSteps : Obligations.HostAccessesActBetweenSteps := by
  intro s a v x
  refine ⟨fun hwaiting => ?_, fun hidle => ⟨betweenStepsOnly_of_idle hidle _, ?_, fun hrefused => ?_, fun hadm => ?_,
    fun hinv => ?_⟩⟩
  · have refused {α : Type} (r : Option α) : betweenStepsOnly s r = none := betweenStepsOnly_of_waiting hwaiting r
    exact ⟨refused _, refused _, refused _, refused _, refused _, fun _ => refused _, fun _ _ => ⟨refused _, refused _⟩⟩
  · exact ⟨_, hostSetReg_of_idle hidle x v, by rw [setReg_reg, if_pos rfl], unchanged_setReg x v s, setReg_cap x v s,
      setReg_events x v s, setReg_views x v s⟩
  · rw [admits_singleton] at hrefused
    exact ⟨hostGetMem_refused hrefused, hostSetMem_refused v hrefused⟩
  · rw [admits_singleton] at hadm
    have hcap : (touch a s).cap = s.capAfter [a] := by rw [capAfter_cons, capAfter_nil]
    exact ⟨⟨_, hostGetMem_of_admits hidle hadm, unchanged_touch a s, hcap, touch_events a s⟩,
      _, hostSetMem_of_admits hidle v hadm, by rw [written_cell v hadm, if_pos rfl], unchanged_written v hadm, hcap,
      written_events v hadm, written_views a v s⟩
  · exact ⟨_, _, hostSubscribe_of_idle hidle, hostSetReg_of_idle (s := subscribed s) hidle x v, newListener_hears hinv x v⟩

end Sys2Proof.Machine
end

section
/-! PROOFS. `reset(image)` (O53). -/

namespace Sys2Proof.Machine

open Sys2Proof Sys2Proof.Claims

/-! ### Which STACK_BASE reset uses (70_reset_and_hazards.md R217) -/

/-- A configured STACK_BASE is used for every image; the default is one for upward stacks only. -/
theorem stackBaseFor_eq_some_iff {p : Params} {len : Nat} {b : Int} :
    p.stackBaseFor len = some b ↔ p.stackBase = some b ∨ (p.stackBase = none ∧ p.dir = .up ∧ b = (len : Int) - 1) := by
  rw [Params.stackBaseFor]
  cases p.stackBase with
  | some c => simp
  | none => cases p.dir <;> simp [eq_comm]

theorem stackBaseFor_of_missing {p : Params} (len : Nat) (hbase : p.stackBase = none) (hdir : p.dir = .down) :
    p.stackBaseFor len = none := by
  rw [Params.stackBaseFor, hbase, hdir]

/-! ### The three outcomes of the call (R214; log 24) -/

section
variable {s : State} {image : List Word}

theorem hostReset_of_tooLong (hlong : s.params.memInit < image.length) : hostReset image s = none := by
  rw [hostReset, if_neg (Nat.not_le.2 hlong), betweenStepsOnly, ite_self]

theorem hostReset_of_noStackBase (hbase : s.params.stackBaseFor image.length = none) : hostReset image s = none := by
  rw [hostReset, hbase, Option.map_none, ite_self, betweenStepsOnly, ite_self]

theorem hostReset_of_stackBase {b : Int} (hidle : s.waiting = none) (hfits : image.length ≤ s.params.memInit)
    (hbase : s.params.stackBaseFor image.length = some b) :
    hostReset image s = some (State.afterReset s.params b image s.host s.events s.views) := by
  rw [hostReset, betweenStepsOnly_of_idle hidle, if_pos hfits, hbase, Option.map_some]

end

/-! ### The memory that reset leaves -/

section
variable (p : Params) (b : Int) (image : List Word) (h : HostState) (evs : List ChangeEvent) (vs : List View)

theorem afterReset_cell {a : Nat} (ha : a < p.memInit) :
    (State.afterReset p b image h evs vs).cell a = image.getD a 0 := by
  have hin : (0 : Int) ≤ a ∧ (a : Int) < (State.afterReset p b image h evs vs).cap :=
    ⟨Int.natCast_nonneg a, Int.ofNat_lt.2 ha⟩
  rw [State.cell, if_pos hin, Int.toNat_natCast]
  exact memGet_imageCells 0 image a

theorem afterReset_annotationAt (a : Int) : (State.afterReset p b image h evs vs).annotationAt a = none :=
  ite_self none

end

/-- Settles O53: the call is refused for a long image or a missing STACK_BASE, and answers `State.afterReset` otherwise. -/
theorem hostResetLoadsTheImage : Obligations.HostResetLoadsTheImage := by
  intro s image hidle
  refine ⟨hostReset_of_tooLong, fun hbase hdir => hostReset_of_noStackBase (stackBaseFor_of_missing _ hbase hdir),
    fun b hfits hbase => ?_⟩
  have hreset := hostReset_of_stackBase hidle hfits (stackBaseFor_eq_some_iff.2 hbase)
  refine ⟨_, hreset, rfl, rfl, rfl, rfl, ?zeroRegisters, rfl,
    fun a ha => ⟨afterReset_cell _ _ _ _ _ _ ha, afterReset_annotationAt _ _ _ _ _ _ a⟩,
    rfl, rfl, rfl, rfl, rfl, rfl, rfl, rfl, rfl, rfl⟩
  case zeroRegisters =>
    simp only [List.forall_mem_cons, List.not_mem_nil, false_implies, implies_true, and_true]
    exact ⟨rfl, rfl, rfl, rfl⟩

end Sys2Proof.Machine
end
